-- ==== Sys2Proof/Word.lean ====
section
/-! DEFINITION. The block's two word types: the 32-bit host register (10_state.md R22 to R25) and the byte. -/

namespace Sys2Proof

/-- A 32-bit host register, DATA operand or VALUE result. -/
abbrev Word := BitVec 32

/-- A byte of the bitstream, of the history ring or of the output. -/
abbrev Byte := BitVec 8

end Sys2Proof
end

