-- ==== Sys2Proof/Config.lean ====
section
/-! DEFINITION. The implementation parameters of 00_scope.md R6 to R14 and the free values of the model. -/

namespace Sys2Proof

/-- The sink's answer to one offered byte (00_scope.md R14, 20_memory.md R68). -/
inductive SinkAnswer where
  | accepted
  | refused
deriving DecidableEq, Repr, Inhabited

/-- The two values of LENGTH_POLICY (00_scope.md R12). -/
inductive LengthPolicy where
  | reference
  | anyConforming
deriving DecidableEq, Repr

namespace Config

/-- HT_CAP, the capacity of each code table and of HIST (R6). -/
abbrev htCap : Nat := 288

/-- N_TABLES, the number of table slots (R7). -/
abbrev nTables : Nat := 3

/-- MAX_BITS, the longest code length of the LL and DIST slots (R8). -/
abbrev maxBits : Nat := 15

/-- CL_MAX_BITS, the longest code length of the CL slot (R8). -/
abbrev clMaxBits : Nat := 7

/-- HR_CAP, the physical ring size in bytes (R9). -/
abbrev hrCap : Nat := 32768

/-- TROUBLE_LIMIT, the most micro-steps one command may take (R11). -/
abbrev troubleLimit : Nat := 131072

/-- LENGTH_POLICY of this hardware (R12: `reference`, the default, is this hardware). -/
abbrev lengthPolicy : LengthPolicy := .reference

/-- SINK, beyond the answers already settled in State: the answer of one draw, under no law (R14).
DESIGN CHOICE, notes/assumptions/5.md. -/
opaque sinkAnswer : Nat → SinkAnswer

/-- HIST after reset: one unspecified word per reset draw and entry (10_state.md R50).
DESIGN CHOICE, notes/assumptions/6.md. -/
opaque histAfterReset : Nat → Nat → Word

/-- The length vector another implementation proposes under `anyConforming` (R12): per draw, for the
frequencies and the length limit. DESIGN CHOICE, notes/assumptions/9.md. -/
opaque proposedLengths : Nat → List Nat → Nat → List Nat

end Config

end Sys2Proof
end

