-- ==== Sys2Proof/Syntax.lean ====
section
/-! DEFINITION. The 23 commands of 30_encoding.md R87, one constructor per row of the opcode table. -/

namespace Sys2Proof

/-- The table slot TSEL names (00_scope.md R7): LL = 0, DIST = 1, CL = 2. -/
inductive Slot where
  | ll
  | dist
  | cl
deriving DecidableEq, Repr

/-- A command and its operands. An index, distance or hint is the number IDX holds (30_encoding.md R85);
a DATA operand is the 32-bit word itself, because the illegal readings of R86 are part of the command's own
rule and are tested after the session check (60_exceptions.md R233). -/
inductive Instr where
  | nop
  | htResize (t : Slot) (n : Word)
  | htSetlen (t : Slot) (i : Nat) (len : Word)
  | htGetent (t : Slot) (i : Nat)
  | htSize (t : Slot)
  | htAssign (t : Slot)
  | htHist (t : Slot) (maxLen : Word)
  | htLookup (t : Slot) (length : Word) (bits : BitVec 16)
  | htLoadfixed (t : Slot)
  | histClear
  | histSet (i : Nat) (f : Word)
  | histInc (i : Nat)
  | histGet (i : Nat)
  | hrConfig (wb : Word)
  | hrRecord (b : Word)
  | hrRecskip (b : Word)
  | hrGet (d : Nat)
  | mhFind (triple : Word) (hint : Nat)
  | decStart (params : Word)
  | decDict (v : Word)
  | decOne (v : Word)
  | decFinish
  | decStatus
deriving DecidableEq, Repr

end Sys2Proof
end

