-- ==== Sys2Proof/WellFormed.lean ====
section
/-! DEFINITION. Which terms of Instr the 16-bit field IDX can carry (30_encoding.md R81, R85). -/

namespace Sys2Proof

/-- IDX is a 16-bit field (R81). -/
def idxFits (i : Nat) : Bool := decide (i < 65536)

/-- A command some 64-bit word stands for. -/
def Instr.wellFormed : Instr → Bool
  | .nop => true
  | .htResize _ _ => true
  | .htSetlen _ i _ => idxFits i
  | .htGetent _ i => idxFits i
  | .htSize _ => true
  | .htAssign _ => true
  | .htHist _ _ => true
  | .htLookup _ _ _ => true
  | .htLoadfixed _ => true
  | .histClear => true
  | .histSet i _ => idxFits i
  | .histInc i => idxFits i
  | .histGet i => idxFits i
  | .hrConfig _ => true
  | .hrRecord _ => true
  | .hrRecskip _ => true
  | .hrGet d => idxFits d
  | .mhFind _ h => idxFits h
  | .decStart _ => true
  | .decDict _ => true
  | .decOne _ => true
  | .decFinish => true
  | .decStatus => true

end Sys2Proof
end

