-- ==== Sys2Proof/Decode.lean ====
section
/-! DEFINITION. From the 64-bit command word to a command or a named rejection (30_encoding.md R80 to R89, R96), and back. -/

namespace Sys2Proof

/-- Why a command word is not executed. Each ends with `BadParam` and changes nothing else (R96). -/
inductive DecodeError where
  | reservedBits    -- RSV ≠ 0 (R82)
  | reservedOpcode  -- OPC not in R87 (R88)
  | unusedField     -- a field the format does not use, or unused DATA, is not 0 (R89)
  | badTableSelect  -- TSEL = 3 in a format that uses TSEL (R84)
deriving DecidableEq, Repr

/-! ## The fields of CMD (R81) -/

def opcOf (cmd : Word) : BitVec 8 := cmd.extractLsb' 0 8
def tselOf (cmd : Word) : BitVec 2 := cmd.extractLsb' 8 2
def idxOf (cmd : Word) : BitVec 16 := cmd.extractLsb' 10 16
def rsvOf (cmd : Word) : BitVec 6 := cmd.extractLsb' 26 6

/-- CMD from its fields, RSV = 0 (R81). -/
def packCmd (opc : BitVec 8) (tsel : BitVec 2) (idx : BitVec 16) : Word :=
  ((0#6 ++ idx) ++ tsel) ++ opc

/-! ## Operand formats (R83) -/

inductive Format where
  | fn | ft | ftd | fti | ftid | fi | fid | fd
deriving DecidableEq, Repr

def Format.usesTsel : Format → Bool
  | .ft | .ftd | .fti | .ftid => true
  | .fn | .fi | .fid | .fd => false

def Format.usesIdx : Format → Bool
  | .fti | .ftid | .fi | .fid => true
  | .fn | .ft | .ftd | .fd => false

def Format.usesData : Format → Bool
  | .ftd | .ftid | .fid | .fd => true
  | .fn | .ft | .fti | .fi => false

/-- The mask of fixed CMD bits, as the table of R83 prints it. -/
def Format.mask : Format → Word
  | .fn => 0xFFFFFFFF
  | .ft => 0xFFFFFCFF
  | .ftd => 0xFFFFFCFF
  | .fti => 0xFC0000FF
  | .ftid => 0xFC0000FF
  | .fi => 0xFC0003FF
  | .fid => 0xFC0003FF
  | .fd => 0xFFFFFFFF

/-- A field or DATA the format does not use is not 0 (R89). -/
def Format.unusedNonzero (f : Format) (cmd data : Word) : Bool :=
  (!f.usesTsel && tselOf cmd != 0) || (!f.usesIdx && idxOf cmd != 0) || (!f.usesData && data != 0)

/-! ## The opcode map (R87) -/

structure Row where
  opc : BitVec 8
  mnemonic : String
  format : Format
  /-- The command, from its slot, IDX and DATA; a format without TSEL ignores the slot. -/
  build : Slot → BitVec 16 → Word → Instr

def htgRows : List Row := [
  ⟨0x00, "NOP", .fn, fun _ _ _ => .nop⟩,
  ⟨0x01, "HT.RESIZE", .ftd, fun t _ d => .htResize t d⟩,
  ⟨0x02, "HT.SETLEN", .ftid, fun t i d => .htSetlen t i.toNat d⟩,
  ⟨0x03, "HT.GETENT", .fti, fun t i _ => .htGetent t i.toNat⟩,
  ⟨0x04, "HT.SIZE", .ft, fun t _ _ => .htSize t⟩,
  ⟨0x05, "HT.ASSIGN", .ft, fun t _ _ => .htAssign t⟩,
  ⟨0x06, "HT.HIST", .ftd, fun t _ d => .htHist t d⟩,
  ⟨0x07, "HT.LOOKUP", .ftid, fun t i d => .htLookup t d i⟩,
  ⟨0x08, "HT.LOADFIXED", .ft, fun t _ _ => .htLoadfixed t⟩,
  ⟨0x09, "HIST.CLEAR", .fn, fun _ _ _ => .histClear⟩,
  ⟨0x0A, "HIST.SET", .fid, fun _ i d => .histSet i.toNat d⟩,
  ⟨0x0B, "HIST.INC", .fi, fun _ i _ => .histInc i.toNat⟩,
  ⟨0x0C, "HIST.GET", .fi, fun _ i _ => .histGet i.toNat⟩]

def lzmRows : List Row := [
  ⟨0x10, "HR.CONFIG", .fd, fun _ _ d => .hrConfig d⟩,
  ⟨0x11, "HR.RECORD", .fd, fun _ _ d => .hrRecord d⟩,
  ⟨0x12, "HR.RECSKIP", .fd, fun _ _ d => .hrRecskip d⟩,
  ⟨0x13, "HR.GET", .fi, fun _ i _ => .hrGet i.toNat⟩,
  ⟨0x14, "MH.FIND", .fid, fun _ i d => .mhFind d i.toNat⟩]

def dbdRows : List Row := [
  ⟨0x20, "DEC.START", .fd, fun _ _ d => .decStart d⟩,
  ⟨0x21, "DEC.DICT", .fd, fun _ _ d => .decDict d⟩,
  ⟨0x22, "DEC.ONE", .fd, fun _ _ d => .decOne d⟩,
  ⟨0x23, "DEC.FINISH", .fn, fun _ _ _ => .decFinish⟩,
  ⟨0x24, "DEC.STATUS", .fn, fun _ _ _ => .decStatus⟩]

def opcodeRows : List Row := htgRows ++ lzmRows ++ dbdRows

def rowOf (opc : BitVec 8) : Option Row := opcodeRows.find? (fun r => r.opc == opc)

/-- TSEL 0, 1, 2 name LL, DIST, CL; 3 is reserved (R81, R84). -/
def slotOf (tsel : BitVec 2) : Option Slot :=
  match tsel.toNat with
  | 0 => some .ll
  | 1 => some .dist
  | 2 => some .cl
  | _ => none

/-- The decode checks of R96, in its order. Total on every word. -/
def decode (cmd data : Word) : Except DecodeError Instr :=
  if rsvOf cmd ≠ 0 then .error .reservedBits
  else
    match rowOf (opcOf cmd) with
    | none => .error .reservedOpcode
    | some r =>
      if r.format.unusedNonzero cmd data then .error .unusedField
      else if r.format.usesTsel then
        match slotOf (tselOf cmd) with
        | none => .error .badTableSelect
        | some t => .ok (r.build t (idxOf cmd) data)
      else .ok (r.build .ll (idxOf cmd) data)

/-- The decoder on one 64-bit command word `{DATA, CMD}` (R80). -/
def decodeWord (w : BitVec 64) : Except DecodeError Instr :=
  decode (w.extractLsb' 0 32) (w.extractLsb' 32 32)

/-! ## The encoder, from the same tables (R81, R83, R87) -/

/-- The TSEL value of a slot (R81). -/
def Slot.tsel : Slot → BitVec 2
  | .ll => 0
  | .dist => 1
  | .cl => 2

/-- The opcode of a command (R87). -/
def Instr.opc : Instr → BitVec 8
  | .nop => 0x00
  | .htResize _ _ => 0x01
  | .htSetlen _ _ _ => 0x02
  | .htGetent _ _ => 0x03
  | .htSize _ => 0x04
  | .htAssign _ => 0x05
  | .htHist _ _ => 0x06
  | .htLookup _ _ _ => 0x07
  | .htLoadfixed _ => 0x08
  | .histClear => 0x09
  | .histSet _ _ => 0x0A
  | .histInc _ => 0x0B
  | .histGet _ => 0x0C
  | .hrConfig _ => 0x10
  | .hrRecord _ => 0x11
  | .hrRecskip _ => 0x12
  | .hrGet _ => 0x13
  | .mhFind _ _ => 0x14
  | .decStart _ => 0x20
  | .decDict _ => 0x21
  | .decOne _ => 0x22
  | .decFinish => 0x23
  | .decStatus => 0x24

/-- The TSEL field of a command: its slot, or 0 where the format does not use TSEL (R83). -/
def Instr.tselField : Instr → BitVec 2
  | .htResize t _ => t.tsel
  | .htSetlen t _ _ => t.tsel
  | .htGetent t _ => t.tsel
  | .htSize t => t.tsel
  | .htAssign t => t.tsel
  | .htHist t _ => t.tsel
  | .htLookup t _ _ => t.tsel
  | .htLoadfixed t => t.tsel
  | .nop | .histClear | .histSet _ _ | .histInc _ | .histGet _
  | .hrConfig _ | .hrRecord _ | .hrRecskip _ | .hrGet _ | .mhFind _ _
  | .decStart _ | .decDict _ | .decOne _ | .decFinish | .decStatus => 0

/-- The IDX field of a command, or 0 where the format does not use IDX (R83, R85). -/
def Instr.idxField : Instr → BitVec 16
  | .htSetlen _ i _ => BitVec.ofNat 16 i
  | .htGetent _ i => BitVec.ofNat 16 i
  | .htLookup _ _ bits => bits
  | .histSet i _ => BitVec.ofNat 16 i
  | .histInc i => BitVec.ofNat 16 i
  | .histGet i => BitVec.ofNat 16 i
  | .hrGet d => BitVec.ofNat 16 d
  | .mhFind _ h => BitVec.ofNat 16 h
  | .nop | .htResize _ _ | .htSize _ | .htAssign _ | .htHist _ _ | .htLoadfixed _ | .histClear
  | .hrConfig _ | .hrRecord _ | .hrRecskip _
  | .decStart _ | .decDict _ | .decOne _ | .decFinish | .decStatus => 0

/-- The DATA operand of a command, or 0 where the format does not use DATA (R83). -/
def Instr.dataField : Instr → Word
  | .htResize _ n => n
  | .htSetlen _ _ len => len
  | .htHist _ m => m
  | .htLookup _ length _ => length
  | .histSet _ f => f
  | .hrConfig wb => wb
  | .hrRecord b => b
  | .hrRecskip b => b
  | .mhFind triple _ => triple
  | .decStart p => p
  | .decDict v => v
  | .decOne v => v
  | .nop | .htGetent _ _ | .htSize _ | .htAssign _ | .htLoadfixed _ | .histClear
  | .histInc _ | .histGet _ | .hrGet _ | .decFinish | .decStatus => 0

/-- The CMD word of a command. -/
def encodeCmd (i : Instr) : Word := packCmd i.opc i.tselField i.idxField

/-- The two words of a command, CMD and DATA (R80). -/
def encode (i : Instr) : Word × Word := (encodeCmd i, i.dataField)

/-- The 64-bit command word `{DATA, CMD}` (R80). -/
def encodeWord (i : Instr) : BitVec 64 := i.dataField ++ encodeCmd i

/-! ## The opcode table's numbering: bit 0 is CMD[0], and DATA follows from bit 32 -/

/-- The CMD word of an instruction whose low `nbits` bits are `w`. -/
def tableCmd (nbits w : Nat) : Word := BitVec.ofNat 32 (w % 2 ^ nbits)

/-- The DATA word of that instruction. -/
def tableData (nbits w : Nat) : Word := BitVec.ofNat 32 (w % 2 ^ nbits / 2 ^ 32)

/-- What the decoder reads from a word numbered as spec/opcode_table.json numbers it; the bits from
`nbits` up are 0. -/
def decodeTableWord (nbits w : Nat) : Option Instr :=
  match decode (tableCmd nbits w) (tableData nbits w) with
  | .ok i => some i
  | .error _ => none

end Sys2Proof
end

