-- ==== Sys2Proof/Machine/State.lean ====
section
/-! DEFINITION. Everything the block holds between two host accesses (10_state.md R20 to R48), the environment's pending
inputs (R53), and the state after reset (R49 to R52, 70_reset_and_hazards.md R261). -/

namespace Sys2Proof.Machine

/-- Why the machine stops with a fault. NO CONSTRUCTOR: the block raises no trap, exception or abort
(60_exceptions.md R230), and every error of a command is a status code written by a next state (R232). -/
inductive Fault where
deriving DecidableEq, Repr

/-- Why the model makes no claim about a step. -/
inductive Refusal where
  /-- Raised by `exec` alone, for a command that has no meaning yet; no arm raises it. Safe: nothing is claimed. -/
  | notModelled (mnemonic : String)
  /-- Raised by a host access that is not 32 bits wide, not 4-aligned, or at offset 0x10 or above: "not defined by
  this spec. A model refuses it" (20_memory.md R62). Safe: nothing is claimed. notes/assumptions/3.md. -/
  | undefinedHostAccess
deriving DecidableEq, Repr

/-! ## Huffman table generator (10_state.md §2) -/

/-- One CodeEntry (R28). -/
structure Entry where
  len : BitVec 5
  pat : BitVec 16
  sym : BitVec 9
deriving DecidableEq, Repr

/-- The existing entries of one slot, index 0 first; its length is the slot's size register (R27).
notes/assumptions/8.md. -/
abbrev Table := List Entry

structure Htg where
  ll : Table
  dist : Table
  cl : Table
  /-- HIST (R30). -/
  hist : Vector Word Config.htCap
deriving DecidableEq, Repr

/-! ## History ring and match finder (10_state.md §3) -/

structure Lzm where
  wb : BitVec 3
  pos : BitVec 15
  fill : BitVec 16
  /-- RING (R32): the slots whose byte is not 0, by rising slot. notes/assumptions/7.md. -/
  ring : List Host.Cell
  /-- INS (R34): the slots whose flag is 1, by rising slot. -/
  ins : List (Nat × Bool)
deriving DecidableEq, Repr

/-! ## Bitstream decoder (10_state.md §4) -/

/-- DSTATE (R36). -/
inductive DState where
  | idle
  | readBlockHeader
  | rawLength
  | rawBytes
  | fixedOrDynamicSetup
  | readCodeLengthAlphabetHeader
  | readCodeLengthAlphabet
  | readCodeLengths
  | readCodeLengthExtra
  | readLiteralOrLength
  | readLengthExtra
  | readDistance
  | readDistanceExtra
  | copyFromHistory
  | done
  | error
  | closed
deriving DecidableEq, Repr

/-- The decoder's registers (R36 to R45), each at its stated width. -/
structure Dbd where
  dstate : DState
  err : BitVec 8
  hold : Bool
  preset : Bool
  level : BitVec 2
  dictOpen : Bool
  bfinal : Bool
  setupKind : BitVec 2
  bitbuf : Byte
  bitcnt : BitVec 4
  acc : Word
  accn : BitVec 6
  outb : Byte
  outv : Bool
  hlit : BitVec 9
  hdist : BitVec 6
  hclen : BitVec 5
  idx : BitVec 9
  rep : BitVec 5
  lsym : BitVec 5
  length : BitVec 9
  dsym : BitVec 5
  dist : BitVec 16
  rem : BitVec 16
deriving DecidableEq, Repr

/-! ## The environment (R53: inputs, not state of the block) -/

/-- One thing the host can do to the block between commands: an access of `width` bytes at an offset from
BLOCK_BASE (20_memory.md R61, R62), or a pulse on RESET (70_reset_and_hazards.md R260). -/
inductive HostAccess where
  | write (offset width : Nat) (value : Word)
  | read (offset width : Nat)
  | reset
deriving DecidableEq, Repr

structure Env where
  /-- The host's accesses still to come, oldest first. notes/assumptions/1.md. -/
  host : List HostAccess
  /-- What the host's latest read returned. notes/assumptions/4.md. -/
  readData : Word
  /-- The sink's answers already settled, in order; after them each answer is a free value.
  notes/assumptions/5.md. -/
  sink : List SinkAnswer
  /-- The output stream: the accepted bytes, oldest first (20_memory.md R68). -/
  out : List Byte
  /-- The number of the next free value. notes/assumptions/6.md. -/
  draws : Nat
deriving DecidableEq, Repr

structure State where
  cmd : Word
  data : Word
  status : Word
  value : Word
  htg : Htg
  lzm : Lzm
  dbd : Dbd
  env : Env
deriving DecidableEq, Repr

/-! ## Reset (R49 to R52) -/

/-- HIST after the reset of draw `k`: unspecified (R50), so free values. notes/assumptions/6.md. -/
def histDraw (k : Nat) : Vector Word Config.htCap :=
  Vector.ofFn fun i => Config.histAfterReset k i.val

/-- The HTG after the reset of draw `k` (R50). -/
def Htg.reset (k : Nat) : Htg := { ll := [], dist := [], cl := [], hist := histDraw k }

/-- R51; a RING slot reads 0 until it is written (notes/assumptions/7.md). -/
def Lzm.reset : Lzm := { wb := 0, pos := 0, fill := 0, ring := [], ins := [] }

/-- R52. -/
def Dbd.reset : Dbd where
  dstate := .idle
  err := 0
  hold := false
  preset := false
  level := 0
  dictOpen := false
  bfinal := false
  setupKind := 0
  bitbuf := 0
  bitcnt := 0
  acc := 0
  accn := 0
  outb := 0
  outv := false
  hlit := 0
  hdist := 0
  hclen := 0
  idx := 0
  rep := 0
  lsym := 0
  length := 0
  dsym := 0
  dist := 0
  rem := 0

/-- Nothing placed: no host access pending, no settled answer, no output (notes/assumptions/1.md, 5.md, 6.md). -/
def Env.reset : Env := { host := [], readData := 0, sink := [], out := [], draws := 1 }

/-- The machine right after power-on reset (70_reset_and_hazards.md R261). -/
def State.reset : State where
  cmd := 0
  data := 0
  status := 0
  value := 0
  htg := Htg.reset 0
  lzm := Lzm.reset
  dbd := Dbd.reset
  env := Env.reset

end Sys2Proof.Machine
end

