-- ==== Sys2Proof/Machine/Flags.lean ====
section
/-! DEFINITION. The block has no condition flags (10_state.md R26): its one condition report is the status code in STATUS
(30_encoding.md R93), and its results are the VALUE layouts of R92. -/

namespace Sys2Proof.Machine

/-- The status codes, by the source's names (R93). -/
inductive Code where
  | ok
  | overflow
  | done
  | notFound
  | unsupported
  | outOfMemory
  | badState
  | badParam
  | badCodeLength
  | codeExcess
  | badBlockType
  | corruptLength
  | loopedState
  | eof
  | badBitLength
deriving DecidableEq, Repr

/-- STATUS[7:0] of a code (R93). -/
def Code.bits : Code → BitVec 8
  | .ok => 0x00
  | .overflow => 0x01
  | .done => 0x02
  | .notFound => 0x03
  | .unsupported => 0x10
  | .outOfMemory => 0x11
  | .badState => 0x12
  | .badParam => 0x13
  | .badCodeLength => 0x14
  | .codeExcess => 0x15
  | .badBlockType => 0x16
  | .corruptLength => 0x17
  | .loopedState => 0x18
  | .eof => 0x19
  | .badBitLength => 0x1A

/-- STATUS as the host reads it: the code in [7:0], bits [31:8] read as 0 (10_state.md R24). -/
def statusWord (b : BitVec 8) : Word := b.zeroExtend 32

/-- The STATUS word of a code. -/
def Code.word (c : Code) : Word := statusWord c.bits

/-- The 5-bit code of a decoder state (10_state.md R36). -/
def DState.code : DState → BitVec 5
  | .idle => 0
  | .readBlockHeader => 1
  | .rawLength => 2
  | .rawBytes => 3
  | .fixedOrDynamicSetup => 4
  | .readCodeLengthAlphabetHeader => 5
  | .readCodeLengthAlphabet => 6
  | .readCodeLengths => 7
  | .readCodeLengthExtra => 8
  | .readLiteralOrLength => 9
  | .readLengthExtra => 10
  | .readDistance => 11
  | .readDistanceExtra => 12
  | .copyFromHistory => 13
  | .done => 14
  | .error => 15
  | .closed => 16

/-- Which states are an open session (10_state.md R47). -/
def DState.isOpen : DState → Bool
  | .idle | .error | .closed => false
  | .readBlockHeader | .rawLength | .rawBytes | .fixedOrDynamicSetup | .readCodeLengthAlphabetHeader
  | .readCodeLengthAlphabet | .readCodeLengths | .readCodeLengthExtra | .readLiteralOrLength
  | .readLengthExtra | .readDistance | .readDistanceExtra | .copyFromHistory | .done => true

/-- VALUE of HT.GETENT: sym in [29:21], len in [20:16], pat in [15:0] (R92). -/
def entryValue (e : Entry) : Word := ((0#2 ++ e.sym) ++ e.len) ++ e.pat

/-- VALUE of DEC.STATUS: BITCNT in [19:16], ERR in [15:8], OUTV, FINAL, HOLD in [7:5], DSTATE in [4:0] (R92). -/
def engineValue (d : Dbd) : Word :=
  (((((0#12 ++ d.bitcnt) ++ d.err) ++ BitVec.ofBool d.outv) ++ BitVec.ofBool d.bfinal)
    ++ BitVec.ofBool d.hold) ++ d.dstate.code

end Sys2Proof.Machine
end

