-- ==== Sys2Proof/Machine/Operands.lean ====
section
/-! DEFINITION. The readings of DATA (30_encoding.md R86) and of the two bit-by-bit operand streams' bits. A reading answers
none where R86 calls the value illegal (`BadParam`). -/

namespace Sys2Proof.Machine

/-- U32: DATA as unsigned 32-bit. -/
def readU32 (d : Word) : Nat := d.toNat

/-- S32: two's complement, `s32(DATA)` (00_scope.md R15). -/
def readS32 (d : Word) : Int := d.toInt

/-- BYTE: DATA[7:0]; DATA[31:8] ≠ 0 is illegal. -/
def readByte (d : Word) : Option Byte :=
  if d.extractLsb' 8 24 = 0 then some (d.extractLsb' 0 8) else none

/-- A legal BM1 operand: the -1 of "no byte", or a byte. -/
inductive Bm1 where
  | minusOne
  | byte (b : Byte)
deriving DecidableEq, Repr

/-- BM1: `s32(DATA)` must be -1 or 0..255. -/
def readBm1 (d : Word) : Option Bm1 :=
  if readS32 d = -1 then some .minusOne
  else if readS32 d < -1 ∨ readS32 d > 255 then none
  else some (.byte (d.extractLsb' 0 8))

/-- A triple of bytes, oldest first (41_history_match.md R152). -/
structure Triple where
  b0 : Byte
  b1 : Byte
  b2 : Byte
deriving DecidableEq, Repr

/-- TRIPLE: b0 = DATA[7:0], b1 = DATA[15:8], b2 = DATA[23:16]; DATA[31:24] ≠ 0 is illegal. -/
def readTriple (d : Word) : Option Triple :=
  if d.extractLsb' 24 8 = 0 then some ⟨d.extractLsb' 0 8, d.extractLsb' 8 8, d.extractLsb' 16 8⟩ else none

/-- The fields of a START operand. -/
structure StartParams where
  method : BitVec 4
  windowBits : BitVec 4
  level : BitVec 2
  preset : Bool
deriving DecidableEq, Repr

/-- START: method = DATA[3:0], window_bits = DATA[7:4], level = DATA[9:8], preset = DATA[10];
DATA[31:11] ≠ 0 is illegal. -/
def readStart (d : Word) : Option StartParams :=
  if d.extractLsb' 11 21 = 0 then
    some ⟨d.extractLsb' 0 4, d.extractLsb' 4 4, d.extractLsb' 8 2, d.getLsbD 10⟩
  else none

/-- A START operand the decoder supports: method 8 and window_bits in 0..7 (42_decoder.md R161). -/
def StartParams.supported (p : StartParams) : Bool := p.method = 8 ∧ p.windowBits.toNat ≤ 7

end Sys2Proof.Machine
end

