-- ==== Sys2Proof/Machine/Ops.lean ====
section
/-! DEFINITION. The shared operations: ending a command, the sparse memories, the ring's Record and Get, the table slots, the
offer to the sink, the decoder's error entry Fail (the block's only counterpart of taking an exception, 60_exceptions.md
R236) and the start of a session, the only way out of it (R237). -/

namespace Sys2Proof.Machine

/-! ## Ending a command (00_scope.md R16) -/

/-- `finish` with a status byte already encoded, as the sticky ERR is (60_exceptions.md R235). -/
def finishBits (b : BitVec 8) (v : Word) (s : State) : State := { s with status := statusWord b, value := v }

/-- `finish(code, value)`: STATUS <- code, VALUE <- value. -/
def finish (c : Code) (v : Word) (s : State) : State := finishBits c.bits v s

/-- `raise Code`: STATUS <- Code, VALUE <- 0, and no other state written. -/
def raise (c : Code) (s : State) : State := finish c 0 s

/-- A decoder session is open (10_state.md R47). -/
def sessionOpen (s : State) : Bool := s.dbd.dstate.isOpen

/-! ## Sparse memories: (address, value) pairs by rising address, none holding the default value -/

/-- The value at `k`: the default `dflt` where nothing is listed. -/
def Memory.read {α : Type} (dflt : α) (m : List (Nat × α)) (k : Nat) : α :=
  match m with
  | [] => dflt
  | (a, v) :: rest => if k = a then v else Memory.read dflt rest k

/-- List `v` at `k`. -/
def Memory.insert {α : Type} (m : List (Nat × α)) (k : Nat) (v : α) : List (Nat × α) :=
  match m with
  | [] => [(k, v)]
  | (a, w) :: rest =>
    if k < a then (k, v) :: (a, w) :: rest
    else if k = a then (k, v) :: rest
    else (a, w) :: Memory.insert rest k v

/-- Take `k` off the list. -/
def Memory.erase {α : Type} (m : List (Nat × α)) (k : Nat) : List (Nat × α) :=
  m.filter (fun c => c.1 != k)

/-- Write `v` at `k`; writing the default value takes the entry off the list. -/
def Memory.write {α : Type} [DecidableEq α] (dflt : α) (m : List (Nat × α)) (k : Nat) (v : α) : List (Nat × α) :=
  if v = dflt then Memory.erase m k else Memory.insert m k v

/-- The canonical form: addresses strictly rising and below `cap`, and no entry equal to the default value. -/
abbrev Memory.wf {α : Type} (dflt : α) (cap : Nat) (m : List (Nat × α)) : Prop :=
  m.Pairwise (fun x y => x.1 < y.1) ∧ ∀ c ∈ m, c.1 < cap ∧ c.2 ≠ dflt

/-! ## The history ring (41_history_match.md §1) -/

/-- W = 1 << (8 + WB) (00_scope.md R9). -/
def Lzm.window (l : Lzm) : Nat := 2 ^ (8 + l.wb.toNat)

/-- The slot at distance `d` behind slot `p`: `(p - d) mod W`, for d ≤ 65536 (W divides 65536). -/
def slotBehind (w p d : Nat) : Nat := (p + 65536 - d) % w

/-- RING[k]. -/
def Lzm.ringAt (l : Lzm) (k : Nat) : Byte := Memory.read 0 l.ring k

/-- INS[k]. -/
def Lzm.insAt (l : Lzm) (k : Nat) : Bool := Memory.read false l.ins k

/-- The slot of distance `d`: `(POS - d) mod W` (10_state.md R32). -/
def Lzm.slotAt (l : Lzm) (d : Nat) : Nat := slotBehind l.window l.pos.toNat d

/-- POS after one record: `(POS + 1) mod W` (10_state.md R33). -/
def Lzm.nextPos (l : Lzm) : Nat := (l.pos.toNat + 1) % l.window

/-- FILL after one record: `min(FILL + 1, W)` (10_state.md R33). -/
def Lzm.nextFill (l : Lzm) : Nat := min (l.fill.toNat + 1) l.window

/-- INS after one record at POS (R141): the overwritten slot's flag is cleared, then the triple the byte completes
is flagged when insertion is asked for and three bytes stand in the window. -/
def Lzm.nextIns (l : Lzm) (ins : Bool) : List (Nat × Bool) :=
  let cleared := Memory.write false l.ins l.pos.toNat false
  if ins ∧ 3 ≤ l.nextFill then Memory.write false cleared (slotBehind l.window l.nextPos 3) true else cleared

/-- `Record(b, ins)` (R141). -/
def Lzm.record (b : Byte) (ins : Bool) (l : Lzm) : Lzm where
  wb := l.wb
  ring := Memory.write 0 l.ring l.pos.toNat b
  ins := l.nextIns ins
  pos := BitVec.ofNat 15 l.nextPos
  fill := BitVec.ofNat 16 l.nextFill

/-- `Get(d)` (R142). -/
def Lzm.get (l : Lzm) (d : Nat) : Byte :=
  if 1 ≤ d ∧ d ≤ l.fill.toNat then l.ringAt (l.slotAt d) else 0

/-- The window set to `1 << (8 + wb)` and emptied; the RING bytes stay (R143, 42_decoder.md R161). -/
def Lzm.configure (wb : BitVec 3) (l : Lzm) : Lzm := { wb := wb, pos := 0, fill := 0, ring := l.ring, ins := [] }

/-! ## The table slots (10_state.md R27, R28) -/

/-- The entries of slot `t`. -/
def Htg.table (h : Htg) : Slot → Table
  | .ll => h.ll
  | .dist => h.dist
  | .cl => h.cl

/-- Slot `t` replaced. -/
def Htg.setTable (h : Htg) (t : Slot) (es : Table) : Htg :=
  match t with
  | .ll => { h with ll := es }
  | .dist => { h with dist := es }
  | .cl => { h with cl := es }

/-- The entries of slot `t` of the machine. -/
def State.table (s : State) (t : Slot) : Table := s.htg.table t

/-- The machine with slot `t` replaced. -/
def State.setTable (s : State) (t : Slot) (es : Table) : State := { s with htg := s.htg.setTable t es }

/-- The machine with its decoder registers replaced. -/
def State.setDbd (s : State) (d : Dbd) : State := { s with dbd := d }

/-- The machine with its history ring and match finder replaced. -/
def State.setLzm (s : State) (l : Lzm) : State := { s with lzm := l }

/-- The entry HT.RESIZE and the decoder create at index `i`: len 0, pat 0, sym i (40_huffman.md R101). -/
def freshEntry (i : Nat) : Entry := { len := 0, pat := 0, sym := BitVec.ofNat 9 i }

/-- `n` fresh entries (42_decoder.md R182, R184). -/
def freshTable (n : Nat) : Table := (List.range n).map freshEntry

/-- The bit lengths of a table, as numbers. -/
def lengthsOf (t : Table) : List Nat := t.map (fun e => e.len.toNat)

/-- `T[t].len[i] <- v`; an index with no entry writes nothing. -/
def setLen (t : Table) (i v : Nat) : Table := t.modify i (fun e => { e with len := BitVec.ofNat 5 v })

/-- Lengths written to entries 0, 1, ... in order; the patterns stay (40_huffman.md R106). -/
def setLens : Table → List Nat → Table
  | [], _ => []
  | es, [] => es
  | e :: es, l :: ls => { e with len := BitVec.ofNat 5 l } :: setLens es ls

/-- Patterns written to entries 0, 1, ... in order (40_huffman.md R105). -/
def setPats : Table → List (BitVec 16) → Table
  | [], _ => []
  | es, [] => es
  | e :: es, p :: ps => { e with pat := p } :: setPats es ps

/-- `Lookup(t, length, bits)`: the symbol of the lowest matching index (40_huffman.md R119). -/
def lookup (t : Table) (length bits : Nat) : Option (BitVec 9) :=
  (t.find? (fun e => e.len.toNat == length && e.pat.toNat == bits)).map (fun e => e.sym)

/-! ## The sink (20_memory.md R68) -/

/-- The environment after one offer of `b`, and the answer: the next settled answer, or else a free value. An
accepted byte joins the output stream. notes/assumptions/5.md. -/
def Env.offer (b : Byte) (e : Env) : SinkAnswer × Env :=
  match e.sink with
  | .accepted :: q => (.accepted, { e with sink := q, out := e.out ++ [b] })
  | .refused :: q => (.refused, { e with sink := q })
  | [] =>
    match Config.sinkAnswer e.draws with
    | .accepted => (.accepted, { e with draws := e.draws + 1, out := e.out ++ [b] })
    | .refused => (.refused, { e with draws := e.draws + 1 })

/-- `Put(OUTB)`: the answer, and the machine after the offer. -/
def put (s : State) : SinkAnswer × State :=
  ((s.env.offer s.dbd.outb).1, { s with env := (s.env.offer s.dbd.outb).2 })

/-- `Emit(b)`: the byte waits in OUTB (42_decoder.md R174). -/
def emit (b : Byte) (d : Dbd) : Dbd := { d with outb := b, outv := true }

/-! ## The error entry and the way out (60_exceptions.md R236, R237) -/

/-- The registers `Fail(code)` writes (42_decoder.md R176). -/
def Dbd.failed (c : Code) (d : Dbd) : Dbd :=
  { d with dstate := .error, err := c.bits, bitcnt := 0, outv := false, hold := false }

/-- `Fail(code)`: the one error action that changes state, taken by every error inside Run and by the Eof of
DEC.FINISH. -/
def fail (c : Code) (s : State) : State := s.setDbd (s.dbd.failed c)

/-- The registers DEC.START writes: a fresh session in ReadBlockHeader with the dictionary open (42_decoder.md R161). -/
def Dbd.started (p : StartParams) : Dbd :=
  { Dbd.reset with dstate := .readBlockHeader, preset := p.preset, level := p.level, dictOpen := true }

/-- The start of a session from any state, Error included (R161, 60_exceptions.md R237): the window as HR.CONFIG sets
it, the decoder's registers as above, the table slots untouched. -/
def startSession (p : StartParams) (s : State) : State :=
  (s.setLzm (s.lzm.configure (p.windowBits.setWidth 3))).setDbd (Dbd.started p)

/-! ## Reset (70_reset_and_hazards.md R260, R261) -/

/-- RESET between two commands: every register and memory at its reset value, HIST drawn afresh; the environment's
pending inputs, the output it has received and its last read stay. notes/assumptions/15.md. -/
def resetBlock (s : State) : State :=
  { State.reset with
    htg := Htg.reset s.env.draws
    env := { s.env with draws := s.env.draws + 1 } }

end Sys2Proof.Machine
end

