-- ==== Sys2Proof/Machine/History.lean ====
section
/-! DEFINITION. The history ring and match finder: the five HR.* and MH.* commands (41_history_match.md). Each is refused with
BadState in an open session, before any operand check (R150). -/

namespace Sys2Proof.Machine

/-- The inserted triple at distance `d` stands in the window and equals `t` (R146, R152). -/
def Lzm.matchesAt (l : Lzm) (t : Triple) (d : Nat) : Bool :=
  l.insAt (l.slotAt d) && (l.get d == t.b0 && l.get (d - 1) == t.b1 && l.get (d - 2) == t.b2)

/-- The distances MH.FIND looks at, nearest first: max(h + 1, 3) to FILL (R146). -/
def Lzm.candidates (l : Lzm) (h : Nat) : List Nat := List.range' (max (h + 1) 3) (l.fill.toNat + 1 - max (h + 1) 3)

/-- The smallest candidate distance that matches, or 0 (R146). -/
def Lzm.find (l : Lzm) (t : Triple) (h : Nat) : Nat := ((l.candidates h).find? (l.matchesAt t)).getD 0

/-! ## The chained-hash realization (R148): not architectural, and equal to `find` for every hash function -/

/-- The triple at distance `d`. -/
def Lzm.tripleAt (l : Lzm) (d : Nat) : Triple := ⟨l.get d, l.get (d - 1), l.get (d - 2)⟩

/-- The chain of key `k` under the hash function `hash` (HASH_FN, 00_scope.md R13): the inserted positions that hash to
`k`, from the newest insertion back. -/
def Lzm.chain (hash : Triple → Nat) (l : Lzm) (k : Nat) : List Nat :=
  (List.range' 3 (l.fill.toNat - 2)).filter fun d => l.insAt (l.slotAt d) && hash (l.tripleAt d) == k

/-- The walk of the chain from the newest entry that skips entries at distance ≤ h and stops at the first one whose
bytes are the triple's (R148). -/
def Lzm.chainedFind (hash : Triple → Nat) (l : Lzm) (t : Triple) (h : Nat) : Nat :=
  (((l.chain hash (hash t)).dropWhile fun d => decide (d ≤ h)).find? fun d => l.tripleAt d == t).getD 0

/-! ## Commands -/

/-- HR.CONFIG wb (R143). -/
def execHrConfig (wb : Word) (s : State) : Host.Outcome State Fault Refusal :=
  .next <|
    if sessionOpen s then raise .badState s
    else if readU32 wb > 7 then raise .unsupported s
    else finish .ok 0 (s.setLzm (s.lzm.configure (wb.extractLsb' 0 3)))

/-- HR.RECORD b (R144). -/
def execHrRecord (b : Word) (s : State) : Host.Outcome State Fault Refusal :=
  .next <|
    if sessionOpen s then raise .badState s
    else
      match readByte b with
      | none => raise .badParam s
      | some x => finish .ok 0 (s.setLzm (s.lzm.record x true))

/-- HR.RECSKIP b (R145). -/
def execHrRecskip (b : Word) (s : State) : Host.Outcome State Fault Refusal :=
  .next <|
    if sessionOpen s then raise .badState s
    else
      match readByte b with
      | none => raise .badParam s
      | some x => finish .ok 0 (s.setLzm (s.lzm.record x false))

/-- HR.GET d (R147). -/
def execHrGet (d : Nat) (s : State) : Host.Outcome State Fault Refusal :=
  .next <|
    if sessionOpen s then raise .badState s
    else finish .ok ((s.lzm.get d).zeroExtend 32) s

/-- MH.FIND triple, hint (R146). -/
def execMhFind (triple : Word) (hint : Nat) (s : State) : Host.Outcome State Fault Refusal :=
  .next <|
    if sessionOpen s then raise .badState s
    else
      match readTriple triple with
      | none => raise .badParam s
      | some t => finish .ok (BitVec.ofNat 32 (s.lzm.find t hint)) s

end Sys2Proof.Machine
end

