-- ==== Sys2Proof/Machine/Huffman.lean ====
section
/-! DEFINITION. The Huffman table generator: canonical code assignment, length-limited lengths, the fixed tables and the
twelve HT.* and HIST.* commands (40_huffman.md). -/

namespace Sys2Proof.Machine

/-! ## Canonical code assignment (R113) -/

/-- `count[l]` for l in 1..15, and `count[0] = 0`; lengths 16..31 are asked for by no caller. -/
def codeCount (lens : List Nat) (l : Nat) : Nat := if l = 0 then 0 else lens.countP (fun x => x == l)

/-- The first code of length `l`: `code <- (code + count[l-1]) << 1`, from code 0. -/
def firstCode (lens : List Nat) : Nat → Nat
  | 0 => 0
  | l + 1 => (firstCode lens l + codeCount lens l) * 2

/-- The Kraft test: for some l in 1..15, `next[l] + count[l] > 2^l`. -/
def overSubscribed (lens : List Nat) : Bool :=
  (List.range' 1 15).any fun l => decide (firstCode lens l + codeCount lens l > 2 ^ l)

/-- The range test: some length is above 15. -/
def hasLongLength (lens : List Nat) : Bool := lens.any fun l => decide (l > 15)

/-- The table `next[0..15]` before any pattern is given out. -/
def firstCodes (lens : List Nat) : List Nat := (List.range 16).map (firstCode lens)

/-- Patterns in ascending index: 0 for length 0, else `next[l]`, which is then stepped. -/
def assignCodes (next : List Nat) : List Nat → List (BitVec 16)
  | [] => []
  | l :: ls =>
    if l = 0 then 0 :: assignCodes next ls
    else BitVec.ofNat 16 (next.getD l 0) :: assignCodes (next.set l (next.getD l 0 + 1)) ls

/-- `Canonical(len[0..n-1])`: the Kraft test over every length first, then the range test (R114). -/
def canonical (lens : List Nat) : Except Code (List (BitVec 16)) :=
  if overSubscribed lens then .error .codeExcess
  else if hasLongLength lens then .error .badCodeLength
  else .ok (assignCodes (firstCodes lens) lens)

/-! ## Length-limited lengths (R115 to R118) -/

/-- An item of the package-merge lists: its weight and the multiset of symbols under it. -/
structure Item where
  w : Nat
  syms : List Nat
deriving DecidableEq, Repr

/-- Put an item into a list sorted by weight, before the items of equal weight. -/
def insertItem (x : Item) : List Item → List Item
  | [] => [x]
  | y :: ys => if x.w ≤ y.w then x :: y :: ys else y :: insertItem x ys

/-- One leaf per nonzero frequency, from symbol `i` up, by (frequency, symbol) ascending. -/
def leafItems : Nat → List Nat → List Item
  | _, [] => []
  | i, f :: fs => if f = 0 then leafItems (i + 1) fs else insertItem ⟨f, [i]⟩ (leafItems (i + 1) fs)

/-- The packages of neighbouring pairs; an odd last item is dropped. -/
def packages : List Item → List Item
  | a :: b :: rest => ⟨a.w + b.w, a.syms ++ b.syms⟩ :: packages rest
  | _ => []

/-- The merge step of one leaf `x`, with `rest` merging the leaves after it: the packages lighter than `x` come first. -/
def mergeLeaf (x : Item) (rest : List Item → List Item) : List Item → List Item
  | [] => x :: rest []
  | y :: ys => if x.w ≤ y.w then x :: rest (y :: ys) else y :: mergeLeaf x rest ys

/-- The stable merge by weight; at equal weight every leaf precedes every package. -/
def mergeItems : List Item → List Item → List Item
  | [], ys => ys
  | x :: xs, ys => mergeLeaf x (mergeItems xs) ys

/-- The list after `r` repetitions of package and merge. -/
def mergeRounds (leaves : List Item) : Nat → List Item
  | 0 => leaves
  | r + 1 => mergeItems leaves (packages (mergeRounds leaves r))

/-- The number of nonzero frequencies, k (R115). -/
def usedSymbols (fs : List Nat) : Nat := fs.countP (fun f => f != 0)

/-- The symbols under the first 2k - 2 items. -/
def selectedSymbols (fs : List Nat) (m : Nat) : List Nat :=
  ((mergeRounds (leafItems 0 fs) (m - 1)).take (2 * usedSymbols fs - 2)).flatMap (fun x => x.syms)

/-- The reference construction (R117): L[i] is the number of occurrences of i in the selection. -/
def packageMerge (fs : List Nat) (m : Nat) : List Nat :=
  (List.range fs.length).map fun i => (selectedSymbols fs m).countP (fun x => x == i)

/-- Σ over L[i] > 0 of 2^(m - L[i]): the Kraft sum in units of 2^(-m), for lengths of at most m. -/
def kraftUnits (m : Nat) (ls : List Nat) : Nat := (ls.map fun l => if l = 0 then 0 else 2 ^ (m - l)).sum

/-- A conforming length vector, P1 to P3 of R116. -/
abbrev Conforming (fs : List Nat) (m : Nat) (ls : List Nat) : Prop :=
  ls.length = fs.length ∧ (∀ p ∈ fs.zip ls, (p.2 = 0 ↔ p.1 = 0)) ∧ (∀ l ∈ ls, l ≤ m) ∧ kraftUnits m ls ≤ 2 ^ m

/-- The weighted length Σ f[i]·L[i], which P4 of R116 minimises. -/
def weightedLength (fs ls : List Nat) : Nat := ((fs.zip ls).map fun p => p.1 * p.2).sum

/-- The vector an implementation under `any_conforming` returns at draw `k`: whatever it proposes, if that conforms
(R115, last case). notes/assumptions/9.md. -/
def conformingLengths (k : Nat) (fs : List Nat) (m : Nat) : List Nat :=
  if Conforming fs m (Config.proposedLengths k fs m) then Config.proposedLengths k fs m else packageMerge fs m

/-- The result for k > 2 and 2^m ≥ k, under either policy (R12, R115). -/
def longLengths (policy : LengthPolicy) (k : Nat) (fs : List Nat) (m : Nat) : List Nat :=
  match policy with
  | .reference => packageMerge fs m
  | .anyConforming => conformingLengths k fs m

/-- `Lengths(f[0..n-1], m)` under a policy; `k` numbers the draw `any_conforming` takes (R115). -/
def lengthsUnder (policy : LengthPolicy) (k : Nat) (fs : List Nat) (m : Nat) : Except Code (List Nat) :=
  if usedSymbols fs = 0 then .ok (fs.map fun _ => 0)
  else if usedSymbols fs ≤ 2 then .ok (fs.map fun f => if f = 0 then 0 else 1)
  else if 2 ^ m < usedSymbols fs then .error .badParam
  else .ok (longLengths policy k fs m)

/-- The draws one evaluation of `Lengths` takes: one where `any_conforming` picks its vector, else none. -/
def lengthDraws (policy : LengthPolicy) (fs : List Nat) (m : Nat) : Nat :=
  match policy with
  | .reference => 0
  | .anyConforming => if 2 < usedSymbols fs ∧ usedSymbols fs ≤ 2 ^ m then 1 else 0

/-! ## The fixed tables (R120, R121) -/

/-- The length of FIXED_LL entry `i`. -/
def fixedLlLen (i : Nat) : Nat :=
  if i ≤ 143 then 8 else if i ≤ 255 then 9 else if i ≤ 279 then 7 else 8

/-- The pattern of FIXED_LL entry `i`. -/
def fixedLlPat (i : Nat) : Nat :=
  if i ≤ 143 then 0x30 + i
  else if i ≤ 255 then 0x190 + (i - 144)
  else if i ≤ 279 then i - 256
  else 0xC0 + (i - 280)

/-- FIXED_LL, 288 entries. -/
def fixedLl : Table :=
  (List.range 288).map fun i => ⟨BitVec.ofNat 5 (fixedLlLen i), BitVec.ofNat 16 (fixedLlPat i), BitVec.ofNat 9 i⟩

/-- FIXED_DIST, 32 entries of length 5 with pat = sym = i. -/
def fixedDist : Table := (List.range 32).map fun i => ⟨5, BitVec.ofNat 16 i, BitVec.ofNat 9 i⟩

/-! ## Table commands (R101 to R108); each is refused with BadState in an open session, before any operand check (R125) -/

/-- The slot's entries after HT.RESIZE to `n` (R101). -/
def resized (es : Table) (n : Nat) : Table := es.take n ++ (List.range' es.length (n - es.length)).map freshEntry

/-- HT.RESIZE t, n (R101). -/
def execHtResize (t : Slot) (n : Word) (s : State) : Host.Outcome State Fault Refusal :=
  .next <|
    if sessionOpen s then raise .badState s
    else if readS32 n < 0 ∨ readS32 n > Config.htCap then raise .outOfMemory s
    else finish .ok 0 (s.setTable t (resized (s.table t) (readS32 n).toNat))

/-- HT.SETLEN t, i, len (R102). -/
def execHtSetlen (t : Slot) (i : Nat) (len : Word) (s : State) : Host.Outcome State Fault Refusal :=
  .next <|
    if sessionOpen s then raise .badState s
    else if i ≥ (s.table t).length then raise .badParam s
    else if readU32 len > 31 then raise .badParam s
    else finish .ok 0 (s.setTable t (setLen (s.table t) i (readU32 len)))

/-- HT.GETENT t, i (R103). -/
def execHtGetent (t : Slot) (i : Nat) (s : State) : Host.Outcome State Fault Refusal :=
  .next <|
    if sessionOpen s then raise .badState s
    else
      match (s.table t)[i]? with
      | none => raise .badParam s
      | some e => finish .ok (entryValue e) s

/-- HT.SIZE t (R104). -/
def execHtSize (t : Slot) (s : State) : Host.Outcome State Fault Refusal :=
  .next <|
    if sessionOpen s then raise .badState s
    else finish .ok (BitVec.ofNat 32 (s.table t).length) s

/-- HT.ASSIGN t (R105). -/
def execHtAssign (t : Slot) (s : State) : Host.Outcome State Fault Refusal :=
  .next <|
    if sessionOpen s then raise .badState s
    else
      match canonical (lengthsOf (s.table t)) with
      | .error c => raise c s
      | .ok ps => finish .ok 0 (s.setTable t (setPats (s.table t) ps))

/-- The limit HT.HIST's DATA asks for: 0 means the default 15 (R106). -/
def histLimit (maxLen : Word) : Nat := if readU32 maxLen = 0 then Config.maxBits else readU32 maxLen

/-- The frequencies HT.HIST reads: HIST[0 .. T[t].size-1] (R106). -/
def histInput (t : Slot) (s : State) : List Nat := (s.htg.hist.toList.take (s.table t).length).map BitVec.toNat

/-- The machine after the draws of `Lengths`. -/
def withDraws (n : Nat) (s : State) : State := { s with env := { s.env with draws := s.env.draws + n } }

/-- HT.HIST t, max_len under a LENGTH_POLICY (R106, R12). -/
def htHistUnder (policy : LengthPolicy) (t : Slot) (maxLen : Word) (s : State) : State :=
  if sessionOpen s then raise .badState s
  else if histLimit maxLen > Config.maxBits then raise .badParam s
  else
    match lengthsUnder policy s.env.draws (histInput t s) (histLimit maxLen) with
    | .error c => raise c s
    | .ok ls =>
      finish .ok 0
        (withDraws (lengthDraws policy (histInput t s) (histLimit maxLen)) (s.setTable t (setLens (s.table t) ls)))

/-- HT.HIST t, max_len (R106), under the policy of this hardware (R12). -/
def execHtHist (t : Slot) (maxLen : Word) (s : State) : Host.Outcome State Fault Refusal :=
  .next (htHistUnder Config.lengthPolicy t maxLen s)

/-- HT.LOOKUP t, length, bits (R107). -/
def execHtLookup (t : Slot) (length : Word) (bits : BitVec 16) (s : State) : Host.Outcome State Fault Refusal :=
  .next <|
    if sessionOpen s then raise .badState s
    else if readU32 length < 1 ∨ readU32 length > 15 then raise .badBitLength s
    else
      match lookup (s.table t) (readU32 length) bits.toNat with
      | none => finish .notFound 0 s
      | some sym => finish .ok (sym.zeroExtend 32) s

/-- HT.LOADFIXED t (R108). -/
def execHtLoadfixed (t : Slot) (s : State) : Host.Outcome State Fault Refusal :=
  .next <|
    if sessionOpen s then raise .badState s
    else
      match t with
      | .cl => raise .badParam s
      | .ll => finish .ok 0 (s.setTable .ll fixedLl)
      | .dist => finish .ok 0 (s.setTable .dist fixedDist)

/-! ## Histogram commands (R109 to R112) -/

/-- The machine with HIST replaced. -/
def State.setHist (s : State) (h : Vector Word Config.htCap) : State := { s with htg := { s.htg with hist := h } }

/-- HIST[i] (R112); read by the commands for i < 288 only. -/
def Htg.histAt (h : Htg) (i : Nat) : Word := h.hist[i]?.getD 0

/-- HIST.CLEAR (R109). -/
def execHistClear (s : State) : Host.Outcome State Fault Refusal :=
  .next <|
    if sessionOpen s then raise .badState s
    else finish .ok 0 (s.setHist (Vector.replicate Config.htCap 0))

/-- HIST.SET i, f (R110). -/
def execHistSet (i : Nat) (f : Word) (s : State) : Host.Outcome State Fault Refusal :=
  .next <|
    if sessionOpen s then raise .badState s
    else if i ≥ Config.htCap then raise .badParam s
    else finish .ok 0 (s.setHist (s.htg.hist.setIfInBounds i f))

/-- HIST.INC i (R111); the 32-bit addition wraps. -/
def execHistInc (i : Nat) (s : State) : Host.Outcome State Fault Refusal :=
  .next <|
    if sessionOpen s then raise .badState s
    else if i ≥ Config.htCap then raise .badParam s
    else finish .ok 0 (s.setHist (s.htg.hist.setIfInBounds i (s.htg.histAt i + 1)))

/-- HIST.GET i (R112). -/
def execHistGet (i : Nat) (s : State) : Host.Outcome State Fault Refusal :=
  .next <|
    if sessionOpen s then raise .badState s
    else if i ≥ Config.htCap then raise .badParam s
    else finish .ok (s.htg.histAt i) s

end Sys2Proof.Machine
end

