-- ==== Sys2Proof/Machine/Decoder.lean ====
section
/-! DEFINITION. The DEFLATE bitstream decoder: the bit-level state machine of 42_decoder.md §2 to §5 and the five DEC.*
commands of §1. -/

namespace Sys2Proof.Machine

/-- What one micro-step answers (R170): the loop goes on, or Run returns a code. -/
inductive Micro where
  | cont (s : State)
  | stop (c : Code) (s : State)
deriving DecidableEq, Repr

/-- A micro-step that fails (R176). -/
def failStep (c : Code) (s : State) : Micro := .stop c (fail c s)

/-! ## Bits, fields and codes (R171 to R173) -/

/-- The bit `NextBit()` returns. -/
def nextBit (s : State) : Bool := s.dbd.bitbuf.getLsbD 0

/-- The machine after `NextBit()` (R171). -/
def dropBit (s : State) : State :=
  s.setDbd { s.dbd with bitbuf := s.dbd.bitbuf >>> 1, bitcnt := s.dbd.bitcnt - 1 }

/-- A bit as a 32-bit value. -/
def bitWord (bit : Bool) : Word := (BitVec.ofBool bit).zeroExtend 32

/-- ACC with the bit added above the bits it holds: a field arrives least significant bit first (R172). -/
def fieldAcc (bit : Bool) (d : Dbd) : Word := d.acc ||| (bitWord bit <<< d.accn.toNat)

/-- `ReadField(n, bit)`: the field when its last bit came, or none while it is pending (R172). -/
def readField (n : Nat) (bit : Bool) (s : State) : Option Word :=
  if (s.dbd.accn + 1).toNat = n then some (fieldAcc bit s.dbd) else none

/-- The machine after `ReadField(n, bit)`. -/
def fieldState (n : Nat) (bit : Bool) (s : State) : State :=
  if (s.dbd.accn + 1).toNat = n then s.setDbd { s.dbd with acc := 0, accn := 0 }
  else s.setDbd { s.dbd with acc := fieldAcc bit s.dbd, accn := s.dbd.accn + 1 }

/-- The outcome of `ReadCode`. -/
inductive CodeRead where
  | pending
  | symbol (n : Nat)
  | bad
deriving DecidableEq, Repr

/-- ACC with the bit shifted in below: a code arrives most significant bit first (R173). -/
def codeAcc (bit : Bool) (d : Dbd) : Word := (d.acc <<< 1) ||| bitWord bit

/-- `ReadCode(t, maxbits, bit)` (R173). -/
def readCode (t : Slot) (maxbits : Nat) (bit : Bool) (s : State) : CodeRead :=
  match lookup (s.table t) (s.dbd.accn + 1).toNat (codeAcc bit s.dbd).toNat with
  | some sym => .symbol sym.toNat
  | none => if (s.dbd.accn + 1).toNat ≥ maxbits then .bad else .pending

/-- The machine after `ReadCode(t, maxbits, bit)`: ACC and ACCN are emptied by a match and hold the bits otherwise. -/
def codeState (t : Slot) (maxbits : Nat) (bit : Bool) (s : State) : State :=
  match readCode t maxbits bit s with
  | .symbol _ => s.setDbd { s.dbd with acc := 0, accn := 0 }
  | .pending | .bad => s.setDbd { s.dbd with acc := codeAcc bit s.dbd, accn := s.dbd.accn + 1 }

/-- `EndOfBlock()` (R175). -/
def endOfBlock (d : Dbd) : Dbd :=
  if d.bfinal then { d with dstate := .done, bitcnt := 0 } else { d with dstate := .readBlockHeader }

/-! ## Block header and stored blocks (R177 to R179) -/

/-- The transition on a whole block header `v`: BFINAL in bit 0, BTYPE in bits [2:1] (R177). -/
def onBlockHeader (v : Word) (s : State) : Micro :=
  let d := { s.dbd with bfinal := v.getLsbD 0 }
  match (v.extractLsb' 1 2).toNat with
  | 0 => .cont (s.setDbd { d with bitcnt := 0, dstate := .rawLength })
  | 1 => .cont (s.setDbd { d with setupKind := 1, dstate := .fixedOrDynamicSetup })
  | 2 => .cont (s.setDbd { d with dstate := .readCodeLengthAlphabetHeader })
  | _ => failStep .badBlockType (s.setDbd d)

/-- ReadBlockHeader (R177). -/
def stepBlockHeader (bit : Bool) (s : State) : Micro :=
  match readField 3 bit s with
  | none => .cont (fieldState 3 bit s)
  | some v => onBlockHeader v (fieldState 3 bit s)

/-- The transition on LEN and NLEN: LEN in v[15:0], NLEN in v[31:16] (R178). -/
def onRawLength (v : Word) (s : State) : Micro :=
  if v.extractLsb' 16 16 ≠ v.extractLsb' 0 16 ^^^ 0xFFFF then failStep .corruptLength s
  else if v.extractLsb' 0 16 = 0 then .cont (s.setDbd (endOfBlock { s.dbd with rem := 0 }))
  else .cont (s.setDbd { s.dbd with rem := v.extractLsb' 0 16, dstate := .rawBytes })

/-- RawLength (R178). -/
def stepRawLength (bit : Bool) (s : State) : Micro :=
  match readField 32 bit s with
  | none => .cont (fieldState 32 bit s)
  | some v => onRawLength v (fieldState 32 bit s)

/-- The transition on one whole stored byte (R179). -/
def onRawByte (v : Word) (s : State) : Micro :=
  let d := { emit (v.extractLsb' 0 8) s.dbd with rem := s.dbd.rem - 1 }
  .cont (s.setDbd (if d.rem = 0 then endOfBlock d else d))

/-- RawBytes (R179). -/
def stepRawBytes (bit : Bool) (s : State) : Micro :=
  match readField 8 bit s with
  | none => .cont (fieldState 8 bit s)
  | some v => onRawByte v (fieldState 8 bit s)

/-! ## Table setup (R180 to R186) -/

/-- FixedOrDynamicSetup, fixed (R180). -/
def setupFixed (s : State) : Micro :=
  .cont (((s.setTable .ll fixedLl).setTable .dist fixedDist).setDbd
    { s.dbd with setupKind := 0, dstate := .readLiteralOrLength })

/-- Canonical patterns for the first `n` entries of slot `t`, or the failure of Canonical. -/
def assignSlot (t : Slot) (n : Nat) (s : State) : Except Code State :=
  match canonical (lengthsOf ((s.table t).take n)) with
  | .error c => .error c
  | .ok ps => .ok (s.setTable t (setPats (s.table t) ps))

/-- FixedOrDynamicSetup, dynamic: LL first, then DIST; a DIST failure leaves the LL patterns written (R181). -/
def setupDynamic (s : State) : Micro :=
  match assignSlot .ll s.dbd.hlit.toNat s with
  | .error c => failStep c s
  | .ok s1 =>
    match assignSlot .dist s.dbd.hdist.toNat s1 with
    | .error c => failStep c s1
    | .ok s2 => .cont (s2.setDbd { s.dbd with setupKind := 0, dstate := .readLiteralOrLength })

/-- FixedOrDynamicSetup. SETUP_KIND is 1 or 2 there; the other two values are never held (R40). -/
def stepSetup (s : State) : Micro := if s.dbd.setupKind = 1 then setupFixed s else setupDynamic s

/-- The transition on the dynamic header `v` (R182). -/
def onAlphabetHeader (v : Word) (s : State) : Micro :=
  let hlit := (v.extractLsb' 0 5).toNat + 257
  let hdist := (v.extractLsb' 5 5).toNat + 1
  let hclen := (v.extractLsb' 10 4).toNat + 4
  if hlit > 286 ∨ hdist > 30 then failStep .badCodeLength s
  else
    .cont ((s.setTable .cl (freshTable 19)).setDbd
      { s.dbd with
        hlit := BitVec.ofNat 9 hlit
        hdist := BitVec.ofNat 6 hdist
        hclen := BitVec.ofNat 5 hclen
        idx := 0
        dstate := .readCodeLengthAlphabet })

/-- ReadCodeLengthAlphabetHeader (R182). -/
def stepAlphabetHeader (bit : Bool) (s : State) : Micro :=
  match readField 14 bit s with
  | none => .cont (fieldState 14 bit s)
  | some v => onAlphabetHeader v (fieldState 14 bit s)

/-- CL_ORDER (R183). -/
def clOrder : List Nat := [16, 17, 18, 0, 8, 7, 9, 6, 10, 5, 11, 4, 12, 3, 13, 2, 14, 1, 15]

/-- The end of the code-length alphabet: its patterns, and fresh LL and DIST slots (R184). -/
def finishAlphabet (s : State) : Micro :=
  match assignSlot .cl 19 s with
  | .error c => failStep c s
  | .ok s1 =>
    .cont (((s1.setTable .ll (freshTable s.dbd.hlit.toNat)).setTable .dist (freshTable s.dbd.hdist.toNat)).setDbd
      { s.dbd with idx := 0, dstate := .readCodeLengths })

/-- The transition on one code-length-alphabet length (R184). -/
def onAlphabetLength (v : Word) (s : State) : Micro :=
  let s1 := (s.setTable .cl (setLen (s.table .cl) (clOrder.getD s.dbd.idx.toNat 19) v.toNat)).setDbd
    { s.dbd with idx := s.dbd.idx + 1 }
  if s1.dbd.idx.toNat = s1.dbd.hclen.toNat then finishAlphabet s1 else .cont s1

/-- ReadCodeLengthAlphabet (R184). -/
def stepAlphabet (bit : Bool) (s : State) : Micro :=
  match readField 3 bit s with
  | none => .cont (fieldState 3 bit s)
  | some v => onAlphabetLength v (fieldState 3 bit s)

/-- `SetLen(j, v)`: LL entry j for j < HLIT, DIST entry j - HLIT otherwise (R185). -/
def setLenAt (j v : Nat) (s : State) : State :=
  if j < s.dbd.hlit.toNat then s.setTable .ll (setLen (s.table .ll) j v)
  else s.setTable .dist (setLen (s.table .dist) (j - s.dbd.hlit.toNat) v)

/-- `GetLen(j)`, the length SetLen(j, _) wrote (R186). -/
def getLenAt (j : Nat) (s : State) : Nat :=
  if j < s.dbd.hlit.toNat then (lengthsOf (s.table .ll)).getD j 0
  else (lengthsOf (s.table .dist)).getD (j - s.dbd.hlit.toNat) 0

/-- SetLen(IDX, v); IDX <- IDX + 1, `n` times (R185, R186). -/
def appendLens (v : Nat) : Nat → State → State
  | 0, s => s
  | n + 1, s =>
    let s1 := setLenAt s.dbd.idx.toNat v s
    appendLens v n (s1.setDbd { s1.dbd with idx := s1.dbd.idx + 1 })

/-- HLIT + HDIST, the number of code lengths of the block (R185). -/
def totalLens (d : Dbd) : Nat := d.hlit.toNat + d.hdist.toNat

/-- To the dynamic setup once every code length is read (R185, R186). -/
def lensDone (s : State) : State :=
  if s.dbd.idx.toNat = totalLens s.dbd then s.setDbd { s.dbd with setupKind := 2, dstate := .fixedOrDynamicSetup }
  else s

/-- The transition on one code-length symbol (R185). -/
def onLengthSymbol (sym : Nat) (s : State) : Micro :=
  if sym ≤ 15 then .cont (lensDone (appendLens sym 1 s))
  else if sym = 16 ∧ s.dbd.idx = 0 then failStep .badCodeLength s
  else .cont (s.setDbd { s.dbd with rep := BitVec.ofNat 5 sym, dstate := .readCodeLengthExtra })

/-- ReadCodeLengths (R185). -/
def stepCodeLengths (bit : Bool) (s : State) : Micro :=
  let s1 := codeState .cl Config.clMaxBits bit s
  match readCode .cl Config.clMaxBits bit s with
  | .pending => .cont s1
  | .symbol n => onLengthSymbol n s1
  | .bad => failStep .badCodeLength s1

/-- The extra bits of a repeat code: 2, 3 and 7 for 16, 17 and 18 (R186). REP holds no other value there. -/
def repExtra (rep : Nat) : Nat := if rep = 16 then 2 else if rep = 17 then 3 else 7

/-- The least count of a repeat code: 3, 3 and 11 for 16, 17 and 18 (R186). -/
def repBase (rep : Nat) : Nat := if rep = 16 then 3 else if rep = 17 then 3 else 11

/-- The transition on a repeat count's extra bits (R186). -/
def onRepeat (v : Word) (s : State) : Micro :=
  let cnt := repBase s.dbd.rep.toNat + v.toNat
  let val := if s.dbd.rep.toNat = 16 then getLenAt (s.dbd.idx.toNat - 1) s else 0
  if s.dbd.idx.toNat + cnt > totalLens s.dbd then failStep .badCodeLength s
  else
    let s1 := appendLens val cnt s
    .cont (lensDone (s1.setDbd { s1.dbd with rep := 0, dstate := .readCodeLengths }))

/-- ReadCodeLengthExtra (R186). -/
def stepLengthRepeat (bit : Bool) (s : State) : Micro :=
  let n := repExtra s.dbd.rep.toNat
  match readField n bit s with
  | none => .cont (fieldState n bit s)
  | some v => onRepeat v (fieldState n bit s)

/-! ## Compressed data (R187 to R193) -/

/-- LEN_BASE by LSYM (R188). -/
def lenBase : List Nat :=
  [3, 4, 5, 6, 7, 8, 9, 10, 11, 13, 15, 17, 19, 23, 27, 31, 35, 43, 51, 59, 67, 83, 99, 115, 131, 163, 195, 227, 258]

/-- LEN_EXTRA by LSYM (R188). -/
def lenExtra : List Nat :=
  [0, 0, 0, 0, 0, 0, 0, 0, 1, 1, 1, 1, 2, 2, 2, 2, 3, 3, 3, 3, 4, 4, 4, 4, 5, 5, 5, 5, 0]

/-- DIST_BASE by DSYM (R191). -/
def distBase : List Nat :=
  [1, 2, 3, 4, 5, 7, 9, 13, 17, 25, 33, 49, 65, 97, 129, 193, 257, 385, 513, 769, 1025, 1537, 2049, 3073, 4097, 6145,
    8193, 12289, 16385, 24577]

/-- DIST_EXTRA by DSYM (R191). -/
def distExtra : List Nat :=
  [0, 0, 0, 0, 1, 1, 2, 2, 3, 3, 4, 4, 5, 5, 6, 6, 7, 7, 8, 8, 9, 9, 10, 10, 11, 11, 12, 12, 13, 13]

/-- The transition on a literal/length symbol (R187). -/
def onLiteralOrLength (sym : Nat) (s : State) : Micro :=
  if sym < 256 then .cont (s.setDbd (emit (BitVec.ofNat 8 sym) s.dbd))
  else if sym = 256 then .cont (s.setDbd (endOfBlock s.dbd))
  else if sym ≤ 285 then
    .cont (s.setDbd
      { s.dbd with
        lsym := BitVec.ofNat 5 (sym - 257)
        length := BitVec.ofNat 9 (lenBase.getD (sym - 257) 0)
        dstate := if lenExtra.getD (sym - 257) 0 > 0 then .readLengthExtra else .readDistance })
  else failStep .badCodeLength s

/-- ReadLiteralOrLength (R187). -/
def stepLiteralOrLength (bit : Bool) (s : State) : Micro :=
  let s1 := codeState .ll Config.maxBits bit s
  match readCode .ll Config.maxBits bit s with
  | .pending => .cont s1
  | .symbol n => onLiteralOrLength n s1
  | .bad => failStep .badCodeLength s1

/-- ReadLengthExtra (R189). -/
def stepLengthExtra (bit : Bool) (s : State) : Micro :=
  let n := lenExtra.getD s.dbd.lsym.toNat 0
  let s1 := fieldState n bit s
  match readField n bit s with
  | none => .cont s1
  | some v => .cont (s1.setDbd { s1.dbd with length := s1.dbd.length + v.setWidth 9, dstate := .readDistance })

/-- The copy starts: REM <- LENGTH (R190, R192). -/
def startCopy (d : Dbd) : Dbd := { d with rem := d.length.zeroExtend 16, dstate := .copyFromHistory }

/-- The transition on a distance symbol (R190). -/
def onDistance (sym : Nat) (s : State) : Micro :=
  if sym > 29 then failStep .badCodeLength s
  else
    let d := { s.dbd with dsym := BitVec.ofNat 5 sym, dist := BitVec.ofNat 16 (distBase.getD sym 0) }
    .cont (s.setDbd (if distExtra.getD sym 0 > 0 then { d with dstate := .readDistanceExtra } else startCopy d))

/-- ReadDistance (R190). -/
def stepDistance (bit : Bool) (s : State) : Micro :=
  let s1 := codeState .dist Config.maxBits bit s
  match readCode .dist Config.maxBits bit s with
  | .pending => .cont s1
  | .symbol n => onDistance n s1
  | .bad => failStep .badCodeLength s1

/-- ReadDistanceExtra (R192). -/
def stepDistanceExtra (bit : Bool) (s : State) : Micro :=
  let n := distExtra.getD s.dbd.dsym.toNat 0
  let s1 := fieldState n bit s
  match readField n bit s with
  | none => .cont s1
  | some v => .cont (s1.setDbd (startCopy { s1.dbd with dist := s1.dbd.dist + v.setWidth 16 }))

/-- CopyFromHistory: `CopyStep()` (R193). -/
def copyStep (s : State) : Micro :=
  let d := { emit (s.lzm.get s.dbd.dist.toNat) s.dbd with rem := s.dbd.rem - 1 }
  .cont (s.setDbd (if d.rem = 0 then { d with dstate := .readLiteralOrLength } else d))

/-! ## The engine loop (R170) -/

/-- `BitStep(DSTATE, bit)`, after NextBit. Run is never entered in Idle, Error or Closed and never meets the three
bit-less states here, so what those arms answer is seen by no command (notes/assumptions/12.md). -/
def bitStep (bit : Bool) (s : State) : Micro :=
  match s.dbd.dstate with
  | .readBlockHeader => stepBlockHeader bit s
  | .rawLength => stepRawLength bit s
  | .rawBytes => stepRawBytes bit s
  | .readCodeLengthAlphabetHeader => stepAlphabetHeader bit s
  | .readCodeLengthAlphabet => stepAlphabet bit s
  | .readCodeLengths => stepCodeLengths bit s
  | .readCodeLengthExtra => stepLengthRepeat bit s
  | .readLiteralOrLength => stepLiteralOrLength bit s
  | .readLengthExtra => stepLengthExtra bit s
  | .readDistance => stepDistance bit s
  | .readDistanceExtra => stepDistanceExtra bit s
  | .idle | .fixedOrDynamicSetup | .copyFromHistory | .done | .error | .closed => .cont s

/-- A state that consumes input: `Ok` when no bit is held, else one bit (R170, "otherwise"). -/
def inputStep (s : State) : Micro :=
  if s.dbd.bitcnt = 0 then .stop .ok s else bitStep (nextBit s) (dropBit s)

/-- The pending byte is offered; accepted, it is recorded with insertion and OUTV becomes 0 (R170, R174). -/
def drainStep (s : State) : Micro :=
  match put s with
  | (.refused, s1) => .stop .overflow s1
  | (.accepted, s1) => .cont ((s1.setLzm (s1.lzm.record s1.dbd.outb true)).setDbd { s1.dbd with outv := false })

/-- The micro-step of a decoder with no byte pending (R170). -/
def engineStep (s : State) : Micro :=
  match s.dbd.dstate with
  | .done => .stop .done s
  | .copyFromHistory => copyStep s
  | .fixedOrDynamicSetup => stepSetup s
  | .idle | .readBlockHeader | .rawLength | .rawBytes | .readCodeLengthAlphabetHeader | .readCodeLengthAlphabet
  | .readCodeLengths | .readCodeLengthExtra | .readLiteralOrLength | .readLengthExtra | .readDistance
  | .readDistanceExtra | .error | .closed => inputStep s

/-- One micro-step: a pending byte is offered before anything else happens (R170). -/
def microStep (s : State) : Micro := if s.dbd.outv then drainStep s else engineStep s

/-- The loop of `Run()` with `fuel` micro-steps left: TROUBLE is TROUBLE_LIMIT - fuel. When none is left the next one
fails with LoopedState (R170, R198). notes/assumptions/10.md, 11.md. -/
def run : Nat → State → Code × State
  | 0, s => (.loopedState, fail .loopedState s)
  | fuel + 1, s =>
    match microStep s with
    | .cont s1 => run fuel s1
    | .stop c s1 => (c, s1)

/-- `Run()` (R170). -/
def runEngine (s : State) : Code × State := run Config.troubleLimit s

/-! ## Commands (§1) -/

/-- DEC.START method, wb, level, preset (R161): legal in every state. -/
def execDecStart (params : Word) (s : State) : Host.Outcome State Fault Refusal :=
  .next <|
    match readStart params with
    | none => raise .badParam s
    | some p => if p.supported then finish .ok 0 (startSession p s) else raise .unsupported s

/-- DEC.DICT v (R162). -/
def execDecDict (v : Word) (s : State) : Host.Outcome State Fault Refusal :=
  .next <|
    if !sessionOpen s then raise .badState s
    else
      match readBm1 v with
      | some .minusOne => finish .ok 0 s
      | none => raise .badParam s
      | some (.byte b) =>
        if !s.dbd.preset then raise .unsupported s
        else if !s.dbd.dictOpen then raise .badState s
        else finish .ok 0 (s.setLzm (s.lzm.record b true))

/-- BITBUF, BITCNT and DICT_OPEN after DEC.ONE takes its argument: a byte is loaded when HOLD = 0 and the state is not
Done (R163). -/
def loadByte (v : Bm1) (s : State) : State :=
  match v with
  | .minusOne => s
  | .byte b =>
    if !s.dbd.hold ∧ s.dbd.dstate ≠ .done then
      s.setDbd { s.dbd with bitbuf := b, bitcnt := 8, dictOpen := false }
    else s

/-- `HOLD <- h`. -/
def setHold (h : Bool) (s : State) : State := s.setDbd { s.dbd with hold := h }

/-- The end of a DEC.ONE whose Run returned `r`: HOLD <- (r == Overflow), finish(r, 0) (R163). -/
def oneEnd (r : Code × State) : State := finish r.1 0 (setHold (r.1 == .overflow) r.2)

/-- DEC.ONE v (R163). DEDUCED: an illegal operand while HOLD = 1 leaves HOLD at 1, as R163's raise says, where the words of
R38 give 0 (notes/assumptions/23.md). DEDUCED: an illegal operand in Done gives BadParam, as the order of R163's pseudocode
does, where R163's corner case, R194 and R200's Done row give Done (notes/assumptions/24.md). -/
def execDecOne (v : Word) (s : State) : Host.Outcome State Fault Refusal :=
  .next <|
    match s.dbd.dstate with
    | .idle => raise .badState s
    | .closed => raise .badState s
    | .error => finishBits s.dbd.err 0 s
    | .readBlockHeader | .rawLength | .rawBytes | .fixedOrDynamicSetup | .readCodeLengthAlphabetHeader
    | .readCodeLengthAlphabet | .readCodeLengths | .readCodeLengthExtra | .readLiteralOrLength | .readLengthExtra
    | .readDistance | .readDistanceExtra | .copyFromHistory | .done =>
      match readBm1 v with
      | none => raise .badParam s
      | some x => oneEnd (runEngine (loadByte x s))

/-- The end of a DEC.FINISH whose Run returned a code (R164). -/
def finishEnd (r : Code × State) : State :=
  match r.1 with
  | .overflow => finish .overflow 0 (setHold true r.2)
  | .done => finish .done 0 ((setHold false r.2).setDbd { (setHold false r.2).dbd with dstate := .closed })
  | .ok => finish .eof 0 (fail .eof (setHold false r.2))
  | .notFound | .unsupported | .outOfMemory | .badState | .badParam | .badCodeLength | .codeExcess | .badBlockType
  | .corruptLength | .loopedState | .eof | .badBitLength => finish r.1 0 (setHold false r.2)

/-- DEC.FINISH (R164). -/
def execDecFinish (s : State) : Host.Outcome State Fault Refusal :=
  .next <|
    match s.dbd.dstate with
    | .idle => raise .badState s
    | .closed => finish .done 0 s
    | .error => finishBits s.dbd.err 0 s
    | .readBlockHeader | .rawLength | .rawBytes | .fixedOrDynamicSetup | .readCodeLengthAlphabetHeader
    | .readCodeLengthAlphabet | .readCodeLengths | .readCodeLengthExtra | .readLiteralOrLength | .readLengthExtra
    | .readDistance | .readDistanceExtra | .copyFromHistory | .done => finishEnd (runEngine s)

/-- DEC.STATUS (R165): legal in every state, and changes no decoder state. -/
def execDecStatus (s : State) : Host.Outcome State Fault Refusal := .next (finish .ok (engineValue s.dbd) s)

end Sys2Proof.Machine
end

