-- ==== Sys2Proof/Machine/System.lean ====
section
/-! DEFINITION. NOP, the one command that belongs to no unit (30_encoding.md R90). -/

namespace Sys2Proof.Machine

/-- NOP (R90): legal in every decoder state. -/
def execNop (s : State) : Host.Outcome State Fault Refusal := .next (finish .ok 0 s)

end Sys2Proof.Machine
end

