-- ==== Sys2Proof/Machine/Dispatch.lean ====
section
/-! DEFINITION. One arm per command: its meaning. -/

namespace Sys2Proof.Machine

def exec (i : Instr) (s : State) : Host.Outcome State Fault Refusal :=
  match i with
  | .nop => Sys2Proof.Machine.execNop s
  | .htResize t n => Sys2Proof.Machine.execHtResize t n s
  | .htSetlen t k len => Sys2Proof.Machine.execHtSetlen t k len s
  | .htGetent t k => Sys2Proof.Machine.execHtGetent t k s
  | .htSize t => Sys2Proof.Machine.execHtSize t s
  | .htAssign t => Sys2Proof.Machine.execHtAssign t s
  | .htHist t maxLen => Sys2Proof.Machine.execHtHist t maxLen s
  | .htLookup t length bits => Sys2Proof.Machine.execHtLookup t length bits s
  | .htLoadfixed t => Sys2Proof.Machine.execHtLoadfixed t s
  | .histClear => Sys2Proof.Machine.execHistClear s
  | .histSet k f => Sys2Proof.Machine.execHistSet k f s
  | .histInc k => Sys2Proof.Machine.execHistInc k s
  | .histGet k => Sys2Proof.Machine.execHistGet k s
  | .hrConfig wb => Sys2Proof.Machine.execHrConfig wb s
  | .hrRecord b => Sys2Proof.Machine.execHrRecord b s
  | .hrRecskip b => Sys2Proof.Machine.execHrRecskip b s
  | .hrGet d => Sys2Proof.Machine.execHrGet d s
  | .mhFind triple hint => Sys2Proof.Machine.execMhFind triple hint s
  | .decStart params => Sys2Proof.Machine.execDecStart params s
  | .decDict v => Sys2Proof.Machine.execDecDict v s
  | .decOne v => Sys2Proof.Machine.execDecOne v s
  | .decFinish => Sys2Proof.Machine.execDecFinish s
  | .decStatus => Sys2Proof.Machine.execDecStatus s

end Sys2Proof.Machine
end

