-- ==== Sys2Proof/Machine/HostPort.lean ====
section
/-! DEFINITION. The 16-byte register window (20_memory.md R60 to R64): what one host access does, a CMD write issuing the
command it encodes. -/

namespace Sys2Proof.Machine

/-- A register of the window (20_memory.md R61). -/
inductive HostReg where
  | cmd
  | data
  | status
  | value
deriving DecidableEq, Repr

/-- The register at an offset, for an aligned 32-bit access; every other access is not defined (R61, R62). -/
def hostReg (offset width : Nat) : Option HostReg :=
  if width = 4 then
    match offset with
    | 0x00 => some .cmd
    | 0x04 => some .data
    | 0x08 => some .status
    | 0x0C => some .value
    | _ => none
  else none

/-- The offset in the window of a bus address, for a window placed at `base` (BLOCK_BASE, R61); none outside it. -/
def windowOffset (base addr : Nat) : Option Nat := if base ≤ addr ∧ addr < base + 16 then some (addr - base) else none

/-- What a read of a register returns (R22 to R25). -/
def State.hostRead (s : State) : HostReg → Word
  | .cmd => s.cmd
  | .data => s.data
  | .status => s.status
  | .value => s.value

/-- A CMD write (10_state.md R22, 30_encoding.md R80): CMD holds the word, and the command it encodes runs with the DATA
held at this moment; a word that fails a decode check ends with BadParam and changes nothing else (R96). -/
def issue (w : Word) (s : State) : Host.Outcome State Fault Refusal :=
  match decode w s.data with
  | .ok i => exec i { s with cmd := w }
  | .error _ => .next (raise .badParam { s with cmd := w })

/-- A write to a register: CMD issues, DATA is stored, STATUS and VALUE ignore it (R63). -/
def hostWrite (r : HostReg) (w : Word) (s : State) : Host.Outcome State Fault Refusal :=
  match r with
  | .cmd => issue w s
  | .data => .next { s with data := w }
  | .status => .next s
  | .value => .next s

/-- One thing the host does (R62, R63; 70_reset_and_hazards.md R260). -/
def access (a : HostAccess) (s : State) : Host.Outcome State Fault Refusal :=
  match a with
  | .write offset width w =>
    match hostReg offset width with
    | some r => hostWrite r w s
    | none => .refused .undefinedHostAccess
  | .read offset width =>
    match hostReg offset width with
    | some r => .next { s with env := { s.env with readData := s.hostRead r } }
    | none => .refused .undefinedHostAccess
  | .reset => .next (resetBlock s)

/-- The machine with the host's accesses replaced. -/
def State.setHost (s : State) (h : List HostAccess) : State := { s with env := { s.env with host := h } }

/-- One step: the host's next access, or nothing while the host does nothing (70_reset_and_hazards.md R262).
notes/assumptions/1.md. -/
def hostStep (s : State) : Host.Outcome State Fault Refusal :=
  match s.env.host with
  | [] => .next s
  | a :: rest => access a (s.setHost rest)

/-- The machine about to issue a command word: DATA holds the operand and the host's next access is the CMD write
(30_encoding.md R80). notes/assumptions/21.md. -/
def placeCommand (cmd data : Word) (s : State) : State :=
  { s with data := data, env := { s.env with host := .write 0 4 cmd :: s.env.host } }

end Sys2Proof.Machine
end

