-- ==== Sys2Proof/Machine/Step.lean ====
section
/-! DEFINITION. The step of the machine: one host access. -/

namespace Sys2Proof.Machine

/-- One step of the machine (Machine/HostPort.lean). -/
def step (s : State) : Host.Outcome State Fault Refusal := hostStep s

/-- `s` about to issue the command whose table bits are `w`: the very next step runs it. -/
def State.withFetchWord (s : State) (nbits w : Nat) : State := placeCommand (tableCmd nbits w) (tableData nbits w) s

end Sys2Proof.Machine
end

