-- ==== Sys2Proof/Machine/Assembler.lean ====
section
/-! DEFINITION. How a host issues commands: the write protocol of 30_encoding.md R80, the pseudo-instructions of R95 and the
assembler's written form of R94. -/

namespace Sys2Proof.Machine

/-! ## The write protocol (R80) -/

/-- The two writes that issue one command: the operand to DATA, then the control word to CMD. -/
def hostWrites (i : Instr) : List HostAccess := [.write 4 4 i.dataField, .write 0 4 (encodeCmd i)]

/-- The writes that issue a sequence of commands. -/
def assemble (is : List Instr) : List HostAccess := is.flatMap hostWrites

/-! ## Pseudo-instructions (R95) -/

inductive Pseudo where
  | htNew (t : Slot) (n : Word)
  | htBuild (t : Slot) (m : Word)
  | htFixed
  | decFeed (b : Word)
  | decClose
deriving DecidableEq, Repr

/-- An expansion: commands to issue in order, and whether the host issues them again while STATUS is Overflow. -/
structure Expansion where
  body : List Instr
  reissueOnOverflow : Bool
deriving DecidableEq, Repr

def Pseudo.expand : Pseudo → Expansion
  | .htNew t n => ⟨[.htResize t 0, .htResize t n], false⟩
  | .htBuild t m => ⟨[.htHist t m, .htAssign t], false⟩
  | .htFixed => ⟨[.htLoadfixed .ll, .htLoadfixed .dist], false⟩
  | .decFeed b => ⟨[.decOne b], true⟩
  | .decClose => ⟨[.decFinish], true⟩

/-! ## The assembler's written form (R94) -/

def slotText : Slot → String
  | .ll => "LL"
  | .dist => "DIST"
  | .cl => "CL"

/-- A number, in decimal. -/
def numText (n : Nat) : String := toString n

/-- A signed number, in decimal. -/
def intText (n : Int) : String := toString n

/-- The operands of DEC.START in writing order: method, wb, level, preset. -/
def startText (p : Word) : String :=
  numText (p.extractLsb' 0 4).toNat ++ ", " ++ numText (p.extractLsb' 4 4).toNat ++ ", "
    ++ numText (p.extractLsb' 8 2).toNat ++ ", " ++ numText (p.extractLsb' 10 22).toNat

/-- One command as a line of assembler text (R94). -/
def instrText : Instr → String
  | .nop => "NOP"
  | .htResize t n => "HT.RESIZE " ++ slotText t ++ ", " ++ intText (readS32 n)
  | .htSetlen t i len => "HT.SETLEN " ++ slotText t ++ ", " ++ numText i ++ ", " ++ numText (readU32 len)
  | .htGetent t i => "HT.GETENT " ++ slotText t ++ ", " ++ numText i
  | .htSize t => "HT.SIZE " ++ slotText t
  | .htAssign t => "HT.ASSIGN " ++ slotText t
  | .htHist t m => "HT.HIST " ++ slotText t ++ ", " ++ numText (readU32 m)
  | .htLookup t length bits => "HT.LOOKUP " ++ slotText t ++ ", " ++ numText (readU32 length) ++ ", " ++ numText bits.toNat
  | .htLoadfixed t => "HT.LOADFIXED " ++ slotText t
  | .histClear => "HIST.CLEAR"
  | .histSet i f => "HIST.SET " ++ numText i ++ ", " ++ numText (readU32 f)
  | .histInc i => "HIST.INC " ++ numText i
  | .histGet i => "HIST.GET " ++ numText i
  | .hrConfig wb => "HR.CONFIG " ++ numText (readU32 wb)
  | .hrRecord b => "HR.RECORD " ++ numText (readU32 b)
  | .hrRecskip b => "HR.RECSKIP " ++ numText (readU32 b)
  | .hrGet d => "HR.GET " ++ numText d
  | .mhFind triple h => "MH.FIND " ++ numText (readU32 triple) ++ ", " ++ numText h
  | .decStart p => "DEC.START " ++ startText p
  | .decDict v => "DEC.DICT " ++ intText (readS32 v)
  | .decOne v => "DEC.ONE " ++ intText (readS32 v)
  | .decFinish => "DEC.FINISH"
  | .decStatus => "DEC.STATUS"

end Sys2Proof.Machine
end

