-- ==== Sys2Proof/Safety.lean ====
section
/-! DEFINITION. The terms the statements are written in: what a command leaves alone, and the invariant of the machine. -/

namespace Sys2Proof.Machine

/-! ## Frames -/

/-- The host's two writable registers stay (10_state.md R22, R23: no command changes DATA, and CMD holds the last value
written), and so do the environment's pending inputs and the output. -/
def KeepsHostAndEnv (s t : State) : Prop := t.cmd = s.cmd ∧ t.data = s.data ∧ t.env = s.env

/-- The command reported `c` and `v` and changed nothing else. -/
def OnlyReports (c v : Word) (s t : State) : Prop :=
  t.status = c ∧ t.value = v ∧ t.htg = s.htg ∧ t.lzm = s.lzm ∧ t.dbd = s.dbd ∧ KeepsHostAndEnv s t

/-- Only slot `t` of the HTG changed: the other two slots, HIST, the LZM, the DBD, CMD, DATA and the environment stay. -/
def OnlySlot (t : Slot) (s s' : State) : Prop :=
  (∀ u, u ≠ t → s'.table u = s.table u) ∧ s'.htg.hist = s.htg.hist ∧ s'.lzm = s.lzm ∧ s'.dbd = s.dbd ∧ KeepsHostAndEnv s s'

/-- Only HIST changed: the three slots, the LZM, the DBD, CMD, DATA and the environment stay. -/
def OnlyHist (s s' : State) : Prop :=
  (∀ u, s'.table u = s.table u) ∧ s'.lzm = s.lzm ∧ s'.dbd = s.dbd ∧ KeepsHostAndEnv s s'

/-- Only the LZM changed: the HTG, the DBD, CMD, DATA and the environment stay. -/
def OnlyLzm (s s' : State) : Prop := s'.htg = s.htg ∧ s'.dbd = s.dbd ∧ KeepsHostAndEnv s s'

/-- The machine with the sink's settled answers replaced. -/
def State.setSink (s : State) (q : List SinkAnswer) : State := { s with env := { s.env with sink := q } }

/-- The commands an open session refuses: every HTG and LZM command (40_huffman.md R125, 41_history_match.md R150). -/
def isDirect : Instr → Bool
  | .htResize _ _ | .htSetlen _ _ _ | .htGetent _ _ | .htSize _ | .htAssign _ | .htHist _ _ | .htLookup _ _ _
  | .htLoadfixed _ | .histClear | .histSet _ _ | .histInc _ | .histGet _ | .hrConfig _ | .hrRecord _ | .hrRecskip _
  | .hrGet _ | .mhFind _ _ => true
  | .nop | .decStart _ | .decDict _ | .decOne _ | .decFinish | .decStatus => false

/-- The three legal readings of a BM1 operand word: -1, or 0..255 (30_encoding.md R86). -/
def IsBm1 (v : Word) : Prop := v = 0xFFFFFFFF ∨ v.toNat ≤ 255

/-- The Kraft sum over lengths 1..15 in units of 2^(-15) (40_huffman.md R113). -/
def kraftSum15 (lens : List Nat) : Nat := (lens.map fun l => if 1 ≤ l ∧ l ≤ 15 then 2 ^ (15 - l) else 0).sum

/-- The number of earlier entries with the same length as entry `i` (40_huffman.md R113). -/
def earlierOfLength (lens : List Nat) (i l : Nat) : Nat := (lens.take i).countP (fun x => x == l)

/-- The distances MH.FIND may answer for `t` and hint `h`, the set D of 41_history_match.md R146. -/
def InD (l : Lzm) (t : Triple) (h d : Nat) : Prop :=
  max (h + 1) 3 ≤ d ∧ d ≤ l.fill.toNat ∧ l.insAt (l.slotAt d) = true ∧ l.get d = t.b0 ∧ l.get (d - 1) = t.b1
    ∧ l.get (d - 2) = t.b2

/-- The bytes a copy of `n` bytes at distance `d` outputs, each read from the ring as the bytes before it left it
(42_decoder.md R193). -/
def copyOutput (d : Nat) : Nat → Lzm → List Byte
  | 0, _ => []
  | n + 1, l => l.get d :: copyOutput d n (l.record (l.get d) true)

/-- The ring after recording a list of bytes with insertion (20_memory.md R79). -/
def recordAll (bs : List Byte) (l : Lzm) : Lzm := bs.foldl (fun m b => m.record b true) l

/-- The machine after the bits of a field are read in turn, no bit completing it (42_decoder.md R172). -/
def feedField (n : Nat) (bits : List Bool) (s : State) : State := bits.foldl (fun t b => fieldState n b t) s

/-- The machine after the bits of a code are read in turn (42_decoder.md R173). -/
def feedCode (t : Slot) (maxbits : Nat) (bits : List Bool) (s : State) : State :=
  bits.foldl (fun u b => codeState t maxbits b u) s

/-- The bits of a code in the order they arrive: p[L-1], ..., p[0] (20_memory.md R66). -/
def codeBits (len : Nat) (p : BitVec 16) : List Bool := (List.range len).map fun i => p.getLsbD (len - 1 - i)

/-- The bits of an n-bit field in the order they arrive: v[0], ..., v[n-1] (20_memory.md R66). -/
def fieldBits (n : Nat) (v : Word) : List Bool := (List.range n).map fun i => v.getLsbD i

/-- The states whose micro-step takes a bit: the "otherwise" of 42_decoder.md R170, of those an open session can be in. -/
def consumesBits : DState → Bool
  | .readBlockHeader | .rawLength | .rawBytes | .readCodeLengthAlphabetHeader | .readCodeLengthAlphabet | .readCodeLengths
  | .readCodeLengthExtra | .readLiteralOrLength | .readLengthExtra | .readDistance | .readDistanceExtra => true
  | .idle | .fixedOrDynamicSetup | .copyFromHistory | .done | .error | .closed => false

/-- A bit-consuming state `st` with no byte pending and a bit held: the next micro-step takes that bit (42_decoder.md
R170). -/
def TakesBit (st : DState) (s : State) : Prop := s.dbd.dstate = st ∧ s.dbd.outv = false ∧ s.dbd.bitcnt ≠ 0

/-- The decoder's registers once the bit that completes a field or a code is taken: ACC and ACCN are empty (42_decoder.md
R171 to R173). -/
def Dbd.bitTaken (d : Dbd) : Dbd := { d with bitbuf := d.bitbuf >>> 1, bitcnt := d.bitcnt - 1, acc := 0, accn := 0 }

/-- The micro-step of `s` reads one bit of an n-bit field: a bit that leaves the field pending does nothing more, and
`whole v` holds where it completes the field `v` (42_decoder.md R172). -/
def ReadsField (n : Nat) (s : State) (whole : Word → Prop) : Prop :=
  (readField n (nextBit s) (dropBit s) = none → microStep s = .cont (fieldState n (nextBit s) (dropBit s)))
    ∧ ∀ v, readField n (nextBit s) (dropBit s) = some v → whole v

/-- The micro-step of `s` reads one bit of a code of slot `t`: a bit that leaves the code pending does nothing more, one
after which no code can match fails with BadCodeLength, and `whole sym` holds where it completes the code of `sym`
(42_decoder.md R173). -/
def ReadsCode (t : Slot) (maxbits : Nat) (s : State) (whole : Nat → Prop) : Prop :=
  (readCode t maxbits (nextBit s) (dropBit s) = .pending →
      microStep s = .cont (codeState t maxbits (nextBit s) (dropBit s)))
    ∧ (readCode t maxbits (nextBit s) (dropBit s) = .bad →
        microStep s = .stop .badCodeLength (fail .badCodeLength (codeState t maxbits (nextBit s) (dropBit s))))
    ∧ ∀ sym, readCode t maxbits (nextBit s) (dropBit s) = .symbol sym → whole sym

/-- Of the HTG no pattern, no symbol, no entry of CL and no frequency changed: the LL and DIST lengths alone may differ. -/
def OnlyLengths (s t : State) : Prop :=
  (∀ u, (t.table u).map (fun e => (e.pat, e.sym)) = (s.table u).map (fun e => (e.pat, e.sym)))
    ∧ t.htg.cl = s.htg.cl ∧ t.htg.hist = s.htg.hist

/-- Outside the HTG and the DBD nothing changed. -/
def OnlyHtgAndDbd (s t : State) : Prop := t.status = s.status ∧ t.value = s.value ∧ t.lzm = s.lzm ∧ KeepsHostAndEnv s t

/-! ## The invariant -/

/-- Every status code as STATUS holds it (30_encoding.md R93: no other value is ever written). -/
def statusCodes : List Word :=
  [0x00, 0x01, 0x02, 0x03, 0x10, 0x11, 0x12, 0x13, 0x14, 0x15, 0x16, 0x17, 0x18, 0x19, 0x1A]

/-- The codes Fail is called with (60_exceptions.md R232). -/
def failCodes : List (BitVec 8) := [0x14, 0x15, 0x16, 0x17, 0x18, 0x19]

/-- A slot holds at most HT_CAP entries (10_state.md R27), and entry i decodes to symbol i (R29). -/
def Table.wf (t : Table) : Prop := t.length ≤ Config.htCap ∧ ∀ i e, t[i]? = some e → e.sym = BitVec.ofNat 9 i

def Htg.wf (h : Htg) : Prop := Table.wf h.ll ∧ Table.wf h.dist ∧ Table.wf h.cl

/-- A slot is flagged only where a whole triple stands in the window: at a distance 3 to FILL (10_state.md R34). -/
def Lzm.insOk (l : Lzm) : Prop := ∀ k, l.insAt k = true → ∃ d, 3 ≤ d ∧ d ≤ l.fill.toNat ∧ l.slotAt d = k

/-- POS and FILL within the window (10_state.md R33), RING and INS in canonical form over their slots, and every flag at
the start of a recorded triple. -/
def Lzm.wf (l : Lzm) : Prop :=
  l.pos.toNat < l.window ∧ l.fill.toNat ≤ l.window ∧ Memory.wf 0 Config.hrCap l.ring ∧ Memory.wf false l.window l.ins
    ∧ l.insOk

/-- A field or code of at most `n` bits is being read: ACC holds ACCN < n bits (10_state.md R42). -/
def Dbd.reading (n : Nat) (d : Dbd) : Prop := d.accn.toNat < n ∧ d.acc.toNat < 2 ^ d.accn.toNat

/-- The dynamic-header counts are in range (10_state.md R44). -/
def Dbd.countsOk (d : Dbd) : Prop :=
  (257 ≤ d.hlit.toNat ∧ d.hlit.toNat ≤ 286) ∧ (1 ≤ d.hdist.toNat ∧ d.hdist.toNat ≤ 30)
    ∧ (4 ≤ d.hclen.toNat ∧ d.hclen.toNat ≤ 19)

/-- Every length of a slot is at most `n`. -/
def lensAtMost (n : Nat) (t : Table) : Prop := ∀ e ∈ t, e.len.toNat ≤ n

/-- The LL and DIST slots hold the HLIT and HDIST lengths being read, each in 0..15, and the CL slot the code they are
read with (42_decoder.md R181, R182, R184). -/
def lensReading (h : Htg) (d : Dbd) : Prop :=
  d.countsOk ∧ h.cl.length = 19 ∧ h.ll.length = d.hlit.toNat ∧ h.dist.length = d.hdist.toNat ∧ lensAtMost 15 h.ll
    ∧ lensAtMost 15 h.dist

/-- The copy length is in 3..258 (10_state.md R45). -/
def Dbd.lengthOk (d : Dbd) : Prop := 3 ≤ d.length.toNat ∧ d.length.toNat ≤ 258

/-- What the registers hold in each decoder state (10_state.md R44, R45: the ranges hold once a session has written them). -/
def phaseOk (h : Htg) (d : Dbd) : Prop :=
  match d.dstate with
  | .idle | .error | .closed => True
  | .readBlockHeader => d.reading 3
  | .rawLength => d.reading 32
  | .rawBytes => d.reading 8 ∧ 1 ≤ d.rem.toNat
  | .fixedOrDynamicSetup => d.reading 1 ∧ (d.setupKind = 1 ∨ (d.setupKind = 2 ∧ lensReading h d))
  | .readCodeLengthAlphabetHeader => d.reading 14
  | .readCodeLengthAlphabet =>
    d.reading 3 ∧ d.countsOk ∧ d.idx.toNat < d.hclen.toNat ∧ h.cl.length = 19 ∧ lensAtMost 7 h.cl
  | .readCodeLengths => d.reading 7 ∧ lensReading h d ∧ d.idx.toNat < totalLens d
  | .readCodeLengthExtra =>
    d.reading (repExtra d.rep.toNat) ∧ lensReading h d ∧ d.idx.toNat < totalLens d
      ∧ (16 ≤ d.rep.toNat ∧ d.rep.toNat ≤ 18) ∧ (d.rep.toNat = 16 → 1 ≤ d.idx.toNat)
  | .readLiteralOrLength => d.reading 15
  | .readLengthExtra =>
    d.reading (lenExtra.getD d.lsym.toNat 0) ∧ d.lsym.toNat ≤ 28 ∧ d.length.toNat = lenBase.getD d.lsym.toNat 0
  | .readDistance => d.reading 15 ∧ d.lengthOk
  | .readDistanceExtra =>
    d.reading (distExtra.getD d.dsym.toNat 0) ∧ d.dsym.toNat ≤ 29 ∧ d.dist.toNat = distBase.getD d.dsym.toNat 0
      ∧ d.lengthOk
  | .copyFromHistory =>
    d.reading 1 ∧ (1 ≤ d.rem.toNat ∧ d.rem.toNat ≤ 258) ∧ (1 ≤ d.dist.toNat ∧ d.dist.toNat ≤ 32768)
  | .done => d.bitcnt = 0

/-- The decoder between two micro-steps: BITCNT in 0..8 (10_state.md R41), the phase's ranges, a byte pending only in an
open session, and ERR a failure's code in Error and 0 elsewhere (60_exceptions.md R235). -/
def engineOk (h : Htg) (d : Dbd) : Prop :=
  d.bitcnt.toNat ≤ 8 ∧ phaseOk h d ∧ (d.outv = true → d.dstate.isOpen = true)
    ∧ (d.dstate = .error → d.err ∈ failCodes) ∧ (d.dstate ≠ .error → d.err = 0)

/-- The decoder between two commands: also HOLD = OUTV (10_state.md R38, 42_decoder.md R174), and no bit is held while
HOLD = 0 (R163). DEDUCED: HOLD = OUTV holds after a DEC.ONE that ends with BadParam while HOLD = 1 because HOLD stays 1
there, where R38's words give 0 (notes/assumptions/23.md). -/
def Dbd.wf (h : Htg) (d : Dbd) : Prop := engineOk h d ∧ d.hold = d.outv ∧ (d.hold = false → d.bitcnt = 0)

/-- The invariant of the machine between host accesses. -/
def State.Inv (s : State) : Prop := s.htg.wf ∧ s.lzm.wf ∧ s.dbd.wf s.htg ∧ s.status ∈ statusCodes

end Sys2Proof.Machine
end

