-- ==== Sys2Proof/Certificates/Slice0/Obligations.lean ====
section
/-! DEFINITION. What is claimed of the model, statement by statement, each from the spec's numbered rules. -/

open Sys2Proof Sys2Proof.Machine

/-! ## Encoding (30_encoding.md) -/

/-- Words written out from R81 and R87, one family at a time, decode to the command they stand for. -/
def Obligations.SampleWordsDecode : Prop :=
  decode 0x00000000 0 = .ok .nop
  ∧ decode 0x00001402 2 = .ok (.htSetlen .ll 5 2)
  ∧ decode 0x00003807 4 = .ok (.htLookup .ll 4 0xE)
  ∧ decode 0x00000206 3 = .ok (.htHist .cl 3)
  ∧ decode 0x0000080A 2 = .ok (.histSet 2 2)
  ∧ decode 0x00000011 0x61 = .ok (.hrRecord 0x61)
  ∧ decode 0x00001814 0x00636261 = .ok (.mhFind 0x00636261 6)
  ∧ decode 0x00000020 0x78 = .ok (.decStart 0x78)
  ∧ decode 0x00000304 0 = .error .badTableSelect

/-- Decode and encode agree on every command some word stands for: no bit of an encoding is dropped (R80, R81, R87). -/
def Obligations.EncodedCommandDecodes : Prop :=
  ∀ i : Instr, i.wellFormed = true →
    decode (encodeCmd i) i.dataField = .ok i ∧ decodeWord (encodeWord i) = .ok i

/-- A word that decodes is the encoding of what it decodes to: each word has one meaning (R82, R83, R89). -/
def Obligations.DecodedCommandEncodes : Prop :=
  ∀ (cmd data : Word) (i : Instr), decode cmd data = .ok i → i.wellFormed = true ∧ encode i = (cmd, data)

/-- A command decodes to a row of the opcode map exactly when its fixed bits match under the format's mask, an unused DATA
is 0 and a used TSEL is not 3 (R83, R84). -/
def Obligations.RowMatchesByMask : Prop :=
  ∀ r ∈ opcodeRows, ∀ cmd data : Word,
    ((cmd &&& r.format.mask) = r.opc.zeroExtend 32 ∧ (r.format.usesData = false → data = 0)
        ∧ (r.format.usesTsel = true → tselOf cmd ≠ 3))
      ↔ ∃ t : Slot, (r.format.usesTsel = true → t.tsel = tselOf cmd) ∧ decode cmd data = .ok (r.build t (idxOf cmd) data)

/-- The decode checks in their order, and what a command that fails one does: BadParam, VALUE 0 and nothing else; CMD
holds the word written (R82, R84, R88, R89, R96; for CMD itself notes/assumptions/19.md). -/
def Obligations.MalformedCommandEndsBadParam : Prop :=
  (∀ cmd data : Word,
    (cmd.toNat / 2 ^ 26 ≠ 0 → decode cmd data = .error .reservedBits)
    ∧ (cmd.toNat / 2 ^ 26 = 0 →
        (0x0D ≤ cmd.toNat % 256 ∧ cmd.toNat % 256 ≤ 0x0F ∨ 0x15 ≤ cmd.toNat % 256 ∧ cmd.toNat % 256 ≤ 0x1F
          ∨ 0x25 ≤ cmd.toNat % 256) →
        decode cmd data = .error .reservedOpcode)
    ∧ (∀ r ∈ opcodeRows, cmd.toNat / 2 ^ 26 = 0 → opcOf cmd = r.opc →
        ((r.format.usesTsel = false ∧ tselOf cmd ≠ 0) ∨ (r.format.usesIdx = false ∧ idxOf cmd ≠ 0)
          ∨ (r.format.usesData = false ∧ data ≠ 0)) →
        decode cmd data = .error .unusedField)
    ∧ (∀ r ∈ opcodeRows, cmd.toNat / 2 ^ 26 = 0 → opcOf cmd = r.opc → r.format.usesTsel = true → tselOf cmd = 3 →
        (r.format.usesIdx = false → idxOf cmd = 0) → (r.format.usesData = false → data = 0) →
        decode cmd data = .error .badTableSelect))
  ∧ (∀ (s : State) (w : Word) (rest : List HostAccess) (e : DecodeError),
      s.env.host = .write 0x00 4 w :: rest → decode w s.data = .error e →
      step s = .next { s.setHost rest with cmd := w, status := 0x13, value := 0 })

/-! ## The host port (20_memory.md, 30_encoding.md R80) -/

/-- A CMD write runs the command its word encodes, with the DATA held at that moment: the step is exec of that command on
the state whose CMD holds the word and whose host list has moved past the write (R22, R80; that the host's accesses are a
list the step reads is the model's, notes/assumptions/1.md). -/
def Obligations.StepRunsDecodedCommand : Prop :=
  ∀ (s : State) (w : Word) (rest : List HostAccess) (i : Instr),
    s.env.host = .write 0x00 4 w :: rest → decode w s.data = .ok i →
    step s = exec i { s.setHost rest with cmd := w }

/-- The write protocol issues exactly the command: the operand to DATA, then the control word to CMD (R80; the host's
list is the model's, notes/assumptions/1.md). -/
def Obligations.WritingDataThenCmdIssuesTheCommand : Prop :=
  ∀ (s : State) (i : Instr) (rest : List HostAccess), i.wellFormed = true → s.env.host = hostWrites i ++ rest →
    ∃ s1, step s = .next s1 ∧ step s1 = exec i { s.setHost rest with data := i.dataField, cmd := encodeCmd i }

/-- Reads return the register and change nothing else, a DATA write stores DATA, STATUS and VALUE writes are ignored, and a
host that does nothing leaves the block as it is (R22 to R25, R63, R262). What a read returns is seen in the model's own
field readData, and the accesses are the model's list (notes/assumptions/4.md, 1.md). -/
def Obligations.HostRegisterAccesses : Prop :=
  ∀ (s : State) (rest : List HostAccess) (w : Word),
    (s.env.host = .read 0x00 4 :: rest → step s = .next { s with env := { s.env with host := rest, readData := s.cmd } })
    ∧ (s.env.host = .read 0x04 4 :: rest → step s = .next { s with env := { s.env with host := rest, readData := s.data } })
    ∧ (s.env.host = .read 0x08 4 :: rest →
        step s = .next { s with env := { s.env with host := rest, readData := s.status } })
    ∧ (s.env.host = .read 0x0C 4 :: rest →
        step s = .next { s with env := { s.env with host := rest, readData := s.value } })
    ∧ (s.env.host = .write 0x04 4 w :: rest → step s = .next { s.setHost rest with data := w })
    ∧ (s.env.host = .write 0x08 4 w :: rest → step s = .next (s.setHost rest))
    ∧ (s.env.host = .write 0x0C 4 w :: rest → step s = .next (s.setHost rest))
    ∧ (s.env.host = [] → step s = .next s)

/-- Any other access width, a misaligned access, or an offset of 0x10 or above is refused (R62; notes/assumptions/1.md,
3.md). -/
def Obligations.UndefinedHostAccessIsRefused : Prop :=
  ∀ (s : State) (rest : List HostAccess) (offset width : Nat) (w : Word),
    (width ≠ 4 ∨ offset % 4 ≠ 0 ∨ 0x10 ≤ offset) →
    (s.env.host = .write offset width w :: rest → step s = .refused .undefinedHostAccess)
    ∧ (s.env.host = .read offset width :: rest → step s = .refused .undefinedHostAccess)

/-! ## Reset (10_state.md R49 to R52, 70_reset_and_hazards.md R261) -/

/-- The state after reset, register by register. -/
def Obligations.ResetRegisterValues : Prop :=
  State.reset.cmd = 0 ∧ State.reset.data = 0 ∧ State.reset.status = 0 ∧ State.reset.value = 0
  ∧ (∀ t, State.reset.table t = [])
  ∧ State.reset.lzm.wb = 0 ∧ State.reset.lzm.window = 256 ∧ State.reset.lzm.pos = 0 ∧ State.reset.lzm.fill = 0
  ∧ (∀ k, State.reset.lzm.insAt k = false) ∧ (∀ d, State.reset.lzm.get d = 0)
  ∧ State.reset.dbd.dstate = .idle ∧ State.reset.dbd.err = 0 ∧ State.reset.dbd.hold = false
  ∧ State.reset.dbd.preset = false ∧ State.reset.dbd.level = 0 ∧ State.reset.dbd.dictOpen = false
  ∧ State.reset.dbd.bfinal = false ∧ State.reset.dbd.setupKind = 0 ∧ State.reset.dbd.bitbuf = 0
  ∧ State.reset.dbd.bitcnt = 0 ∧ State.reset.dbd.acc = 0 ∧ State.reset.dbd.accn = 0 ∧ State.reset.dbd.outb = 0
  ∧ State.reset.dbd.outv = false ∧ State.reset.dbd.hlit = 0 ∧ State.reset.dbd.hdist = 0 ∧ State.reset.dbd.hclen = 0
  ∧ State.reset.dbd.idx = 0 ∧ State.reset.dbd.rep = 0 ∧ State.reset.dbd.lsym = 0 ∧ State.reset.dbd.length = 0
  ∧ State.reset.dbd.dsym = 0 ∧ State.reset.dbd.dist = 0 ∧ State.reset.dbd.rem = 0

/-- A reset pulse gives the reset values however the block was left, offers nothing to the sink, and leaves the host's
later accesses pending (R260, R261). HIST is not constrained: it is unspecified. That the environment stays is the model's
(notes/assumptions/15.md). -/
def Obligations.ResetPulseGivesResetState : Prop :=
  ∀ (s : State) (rest : List HostAccess), s.env.host = .reset :: rest →
    ∃ t, step s = .next t ∧ t.cmd = 0 ∧ t.data = 0 ∧ t.status = 0 ∧ t.value = 0
      ∧ (∀ u, t.table u = []) ∧ t.lzm.wb = 0 ∧ t.lzm.pos = 0 ∧ t.lzm.fill = 0 ∧ (∀ k, t.lzm.insAt k = false)
      ∧ t.dbd = State.reset.dbd ∧ t.env.out = s.env.out ∧ t.env.sink = s.env.sink ∧ t.env.host = rest

/-- The invariant holds at reset, the canonical form of RING and INS among it (the model's choice, notes/assumptions/7.md). -/
def Obligations.ResetStateIsWellFormed : Prop := State.reset.Inv

/-- Every step keeps the invariant, from every state that meets it: slots of at most 288 entries with sym = index (R27,
R29), POS and FILL within the window (R33), RING and INS in canonical form, every decoder register in its range for
its state (R41, R42, R44, R45), HOLD = OUTV and no bit held while HOLD = 0 (R163), ERR 0 outside Error (R235), and STATUS
one of the fifteen codes (R93). Two parts are the model's own: that HOLD stays 1, and so equal to OUTV, after a DEC.ONE that
ends with BadParam while HOLD = 1 is its reading, where R38's words give 0 (notes/assumptions/23.md, DEDUCED), and the
canonical form of RING and INS is its choice (notes/assumptions/7.md, DESIGN CHOICE). -/
def Obligations.StepKeepsInvariant : Prop := ∀ s t : State, s.Inv → step s = .next t → t.Inv

/-! ## Whole-machine rules -/

/-- Every command answers a next state, for every operand and from every state; none changes CMD or DATA, and VALUE is 0
after every status but Ok (R23, R25, R92, R230). -/
def Obligations.EveryCommandAnswers : Prop :=
  ∀ (i : Instr) (s : State), ∃ t, exec i s = .next t ∧ t.cmd = s.cmd ∧ t.data = s.data ∧ (t.status ≠ 0 → t.value = 0)

/-- No command reads STATUS or VALUE: the outcome is the same whatever an earlier command left there (R26). -/
def Obligations.NoCommandReadsStatus : Prop :=
  ∀ (i : Instr) (s : State) (a b : Word), exec i { s with status := a, value := b } = exec i s

/-- NOP and DEC.STATUS are legal in every state and change STATUS and VALUE only; DEC.STATUS reports the engine's registers
in the layout of R92 (R90, R165). -/
def Obligations.NopAndStatusOnlyReport : Prop :=
  ∀ s : State,
    (∃ t, exec .nop s = .next t ∧ OnlyReports 0x00 0 s t)
    ∧ (∃ t, exec .decStatus s = .next t ∧ OnlyReports 0x00 t.value s t
        ∧ t.value.extractLsb' 0 5 = s.dbd.dstate.code ∧ t.value.getLsbD 5 = s.dbd.hold ∧ t.value.getLsbD 6 = s.dbd.bfinal
        ∧ t.value.getLsbD 7 = s.dbd.outv ∧ t.value.extractLsb' 8 8 = s.dbd.err
        ∧ t.value.extractLsb' 16 4 = s.dbd.bitcnt ∧ t.value.extractLsb' 20 12 = 0)

/-- While a session is open every HTG and LZM command ends with BadState and VALUE 0 and changes nothing, before any operand
check (R125, R150). -/
def Obligations.OpenSessionOwnsTablesAndHistory : Prop :=
  ∀ (i : Instr) (s : State), isDirect i = true → sessionOpen s = true →
    exec i s = .next { s with status := 0x12, value := 0 }

/-- Patterns are written only by HT.ASSIGN, HT.LOADFIXED, HT.RESIZE and the decoder: every other command leaves every
pattern of every slot (R124). -/
def Obligations.OtherCommandsLeavePatterns : Prop :=
  ∀ (i : Instr) (s t : State), exec i s = .next t →
    (match i with
      | .htResize _ _ | .htAssign _ | .htLoadfixed _ | .decOne _ | .decFinish => False
      | _ => True) →
    ∀ u, (t.table u).map (fun e => e.pat) = (s.table u).map (fun e => e.pat)

/-- Only HR.CONFIG and DEC.START write WB, and HR.CONFIG does not while a session is open: the window is fixed for a
session (R31, R268). -/
def Obligations.WindowIsFixedForASession : Prop :=
  ∀ (i : Instr) (s t : State), exec i s = .next t → (∀ p, i ≠ .decStart p) →
    ((∀ wb, i ≠ .hrConfig wb) ∨ sessionOpen s = true) → t.lzm.wb = s.lzm.wb

/-- Error is sticky: no command but DEC.START changes any decoder register there; DEC.ONE and DEC.FINISH report ERR and
change nothing, and DEC.DICT reports BadState (R195, R235, R237). -/
def Obligations.ErrorIsSticky : Prop :=
  ∀ (s : State), s.dbd.dstate = .error →
    (∀ (i : Instr) (t : State), (∀ p, i ≠ .decStart p) → exec i s = .next t → t.dbd = s.dbd)
    ∧ (∀ v, ∃ t, exec (.decOne v) s = .next t ∧ OnlyReports (s.dbd.err.zeroExtend 32) 0 s t)
    ∧ (∃ t, exec .decFinish s = .next t ∧ OnlyReports (s.dbd.err.zeroExtend 32) 0 s t)
    ∧ (∀ v, ∃ t, exec (.decDict v) s = .next t ∧ OnlyReports 0x12 0 s t)

/-- The level of a session has no effect on any command but DEC.START: two states that differ in LEVEL alone give outcomes
that differ in LEVEL alone (R39, R161). -/
def Obligations.LevelHasNoEffect : Prop :=
  ∀ (i : Instr) (s : State) (lv : BitVec 2), (∀ p, i ≠ .decStart p) →
    ∃ t, exec i s = .next t
      ∧ exec i (s.setDbd { s.dbd with level := lv }) = .next (t.setDbd { t.dbd with level := lv })

/-! ## Huffman table generator (40_huffman.md) -/

/-- HT.RESIZE (R101). -/
def Obligations.HtResizeSetsTableLength : Prop :=
  ∀ (t : Slot) (n : Word) (s : State), ∃ s', exec (.htResize t n) s = .next s' ∧
    (sessionOpen s = true → OnlyReports 0x12 0 s s') ∧
    (sessionOpen s = false → (n.toInt < 0 ∨ 288 < n.toInt) → OnlyReports 0x11 0 s s') ∧
    (sessionOpen s = false → 0 ≤ n.toInt → n.toInt ≤ 288 →
      s'.status = 0x00 ∧ s'.value = 0 ∧ (s'.table t).length = n.toInt.toNat ∧
      (∀ i, i < (s.table t).length → i < n.toInt.toNat → (s'.table t)[i]? = (s.table t)[i]?) ∧
      (∀ i, (s.table t).length ≤ i → i < n.toInt.toNat →
        (s'.table t)[i]? = some { len := 0, pat := 0, sym := BitVec.ofNat 9 i }) ∧
      OnlySlot t s s')

/-- HT.SETLEN (R102). -/
def Obligations.HtSetlenWritesOneLength : Prop :=
  ∀ (t : Slot) (i : Nat) (len : Word) (s : State), ∃ s', exec (.htSetlen t i len) s = .next s' ∧
    (sessionOpen s = true → OnlyReports 0x12 0 s s') ∧
    (sessionOpen s = false → ((s.table t).length ≤ i ∨ 31 < len.toNat) → OnlyReports 0x13 0 s s') ∧
    (∀ e : Entry, sessionOpen s = false → (s.table t)[i]? = some e → len.toNat ≤ 31 →
      s'.status = 0x00 ∧ s'.value = 0 ∧
      (s'.table t)[i]? = some { e with len := BitVec.ofNat 5 len.toNat } ∧
      (∀ j, j ≠ i → (s'.table t)[j]? = (s.table t)[j]?) ∧ OnlySlot t s s')

/-- HT.GETENT (R103). -/
def Obligations.HtGetentReadsOneEntry : Prop :=
  ∀ (t : Slot) (i : Nat) (s : State), ∃ s', exec (.htGetent t i) s = .next s' ∧
    (sessionOpen s = true → OnlyReports 0x12 0 s s') ∧
    (sessionOpen s = false → (s.table t).length ≤ i → OnlyReports 0x13 0 s s') ∧
    (∀ e : Entry, sessionOpen s = false → (s.table t)[i]? = some e →
      OnlyReports 0x00 s'.value s s' ∧ s'.value.extractLsb' 0 16 = e.pat ∧ s'.value.extractLsb' 16 5 = e.len ∧
      s'.value.extractLsb' 21 9 = e.sym ∧ s'.value.extractLsb' 30 2 = 0)

/-- HT.SIZE (R104). -/
def Obligations.HtSizeReadsTableLength : Prop :=
  ∀ (t : Slot) (s : State), ∃ s', exec (.htSize t) s = .next s' ∧
    (sessionOpen s = true → OnlyReports 0x12 0 s s') ∧
    (sessionOpen s = false → OnlyReports 0x00 (BitVec.ofNat 32 (s.table t).length) s s')

/-- HT.ASSIGN (R105): Canonical's patterns into the entries, or its failure with no entry written. -/
def Obligations.HtAssignWritesCanonicalPatterns : Prop :=
  ∀ (t : Slot) (s : State), ∃ s', exec (.htAssign t) s = .next s' ∧
    (sessionOpen s = true → OnlyReports 0x12 0 s s') ∧
    (sessionOpen s = false → canonical (lengthsOf (s.table t)) = .error .codeExcess → OnlyReports 0x15 0 s s') ∧
    (sessionOpen s = false → canonical (lengthsOf (s.table t)) = .error .badCodeLength → OnlyReports 0x14 0 s s') ∧
    (∀ ps : List (BitVec 16), sessionOpen s = false → canonical (lengthsOf (s.table t)) = .ok ps →
      s'.status = 0x00 ∧ s'.value = 0 ∧ (s'.table t).length = (s.table t).length ∧
      (∀ (i : Nat) (e : Entry), (s.table t)[i]? = some e → (s'.table t)[i]? = some { e with pat := ps.getD i 0 }) ∧ OnlySlot t s s')

/-- The two failures of Canonical and their order: CodeExcess exactly when the Kraft sum over lengths 1..15 exceeds 1, and
BadCodeLength exactly when it does not and some length is above 15 (R113 with its derived Kraft sentence, R114). -/
def Obligations.CanonicalFailuresAndTheirOrder : Prop :=
  ∀ lens : List Nat,
    (canonical lens = .error .codeExcess ↔ 2 ^ 15 < kraftSum15 lens)
    ∧ (canonical lens = .error .badCodeLength ↔ kraftSum15 lens ≤ 2 ^ 15 ∧ ∃ l ∈ lens, 15 < l)
    ∧ ((∃ ps, canonical lens = .ok ps) ↔ kraftSum15 lens ≤ 2 ^ 15 ∧ ∀ l ∈ lens, l ≤ 15)

/-- The patterns Canonical assigns: 0 for length 0, else the first code of the length plus the number of earlier entries of
that length, where the first code is `(prev_first_code + prev_count) << 1` (R113). -/
def Obligations.CanonicalPatternsAreConsecutive : Prop :=
  ∀ (lens : List Nat) (ps : List (BitVec 16)), canonical lens = .ok ps →
    ps.length = lens.length ∧
    ∀ i l : Nat, lens[i]? = some l →
      (l = 0 → ps[i]? = some 0) ∧
      (0 < l → ∃ p : BitVec 16, ps[i]? = some p ∧ p.toNat = firstCode lens l + earlierOfLength lens i l ∧ p.toNat < 2 ^ l)

/-- After a successful Canonical no code is a prefix of another (R123, which the spec derives from R113). -/
def Obligations.CanonicalCodesArePrefixFree : Prop :=
  ∀ (lens : List Nat) (ps : List (BitVec 16)), canonical lens = .ok ps →
    ∀ (i j li lj : Nat) (pi pj : BitVec 16), i ≠ j → lens[i]? = some li → lens[j]? = some lj → ps[i]? = some pi → ps[j]? = some pj →
      0 < li → li ≤ lj → pj.toNat / 2 ^ (lj - li) ≠ pi.toNat

/-- The fixed tables, band by band (R120, R121), and the patterns Canonical gives their lengths (R122, which the spec derives
from R113). -/
def Obligations.FixedTablesMatchCanonical : Prop :=
  fixedLl.length = 288 ∧ fixedDist.length = 32
  ∧ (∀ i < 144, fixedLl[i]? = some ⟨8, BitVec.ofNat 16 (0x30 + i), BitVec.ofNat 9 i⟩)
  ∧ (∀ i < 112, fixedLl[144 + i]? = some ⟨9, BitVec.ofNat 16 (0x190 + i), BitVec.ofNat 9 (144 + i)⟩)
  ∧ (∀ i < 24, fixedLl[256 + i]? = some ⟨7, BitVec.ofNat 16 i, BitVec.ofNat 9 (256 + i)⟩)
  ∧ (∀ i < 8, fixedLl[280 + i]? = some ⟨8, BitVec.ofNat 16 (0xC0 + i), BitVec.ofNat 9 (280 + i)⟩)
  ∧ (∀ i < 32, fixedDist[i]? = some ⟨5, BitVec.ofNat 16 i, BitVec.ofNat 9 i⟩)
  ∧ canonical (lengthsOf fixedLl) = .ok (fixedLl.map fun e => e.pat)
  ∧ canonical (lengthsOf fixedDist) = .ok (fixedDist.map fun e => e.pat)

/-- HT.HIST (R106, R115) on this hardware, LENGTH_POLICY = reference: the limit (0 means 15), the two BadParam cases, and the
lengths written for 0, 1 or 2, and more than 2 nonzero frequencies. -/
def Obligations.HtHistDerivesLengths : Prop :=
  ∀ (t : Slot) (maxLen : Word) (s : State) (m : Nat) (fs : List Nat),
    m = (if maxLen.toNat = 0 then 15 else maxLen.toNat) →
    fs = (s.htg.hist.toList.take (s.table t).length).map BitVec.toNat →
    ∃ s', exec (.htHist t maxLen) s = .next s' ∧
      (sessionOpen s = true → OnlyReports 0x12 0 s s') ∧
      (sessionOpen s = false → 15 < m → OnlyReports 0x13 0 s s') ∧
      (sessionOpen s = false → m ≤ 15 → 2 < usedSymbols fs → 2 ^ m < usedSymbols fs → OnlyReports 0x13 0 s s') ∧
      (sessionOpen s = false → m ≤ 15 → (usedSymbols fs ≤ 2 ∨ usedSymbols fs ≤ 2 ^ m) →
        s'.status = 0x00 ∧ s'.value = 0 ∧ (s'.table t).length = (s.table t).length ∧
        (∀ (i : Nat) (e : Entry) (f : Nat), (s.table t)[i]? = some e → fs[i]? = some f →
          (s'.table t)[i]? = some
            { e with
              len := BitVec.ofNat 5
                (if usedSymbols fs ≤ 2 then (if f = 0 then 0 else 1) else (packageMerge fs m).getD i 0) }) ∧
        OnlySlot t s s')

/-- Under either LENGTH_POLICY the lengths derived for more than 2 nonzero frequencies conform: length 0 exactly for
frequency 0, no length above the limit, and Kraft's inequality (R115, R116 P1 to P3, R117, R118; that any_conforming takes a
free proposal filtered by R116 is the model's, notes/assumptions/9.md). -/
def Obligations.DerivedLengthsConform : Prop :=
  ∀ (policy : LengthPolicy) (k : Nat) (fs : List Nat) (m : Nat) (ls : List Nat),
    lengthsUnder policy k fs m = .ok ls → 2 < usedSymbols fs → Conforming fs m ls

/-- The reference construction is optimal: no conforming vector has a smaller weighted length (R116 P4; R117 derives it
from the package-merge theorem). -/
def Obligations.ReferenceLengthsAreOptimal : Prop :=
  ∀ (fs : List Nat) (m : Nat) (ls : List Nat), 2 < usedSymbols fs → usedSymbols fs ≤ 2 ^ m → Conforming fs m ls →
    weightedLength fs (packageMerge fs m) ≤ weightedLength fs ls

/-- HT.LOOKUP (R107, R119): the symbol of the lowest matching index, NotFound where there is none. -/
def Obligations.HtLookupFindsLowestMatch : Prop :=
  ∀ (t : Slot) (length : Word) (bits : BitVec 16) (s : State), ∃ s', exec (.htLookup t length bits) s = .next s' ∧
    (sessionOpen s = true → OnlyReports 0x12 0 s s') ∧
    (sessionOpen s = false → (length.toNat < 1 ∨ 15 < length.toNat) → OnlyReports 0x1A 0 s s') ∧
    (sessionOpen s = false → 1 ≤ length.toNat → length.toNat ≤ 15 →
      (∀ e ∈ s.table t, ¬(e.len.toNat = length.toNat ∧ e.pat = bits)) → OnlyReports 0x03 0 s s') ∧
    (∀ (i : Nat) (e : Entry), sessionOpen s = false → 1 ≤ length.toNat → length.toNat ≤ 15 → (s.table t)[i]? = some e →
      e.len.toNat = length.toNat → e.pat = bits →
      (∀ (j : Nat) (e' : Entry), j < i → (s.table t)[j]? = some e' → ¬(e'.len.toNat = length.toNat ∧ e'.pat = bits)) →
      OnlyReports 0x00 (e.sym.zeroExtend 32) s s')

/-- HT.LOADFIXED (R108). -/
def Obligations.HtLoadfixedReplacesTheSlot : Prop :=
  ∀ (t : Slot) (s : State), ∃ s', exec (.htLoadfixed t) s = .next s' ∧
    (sessionOpen s = true → OnlyReports 0x12 0 s s') ∧
    (sessionOpen s = false → t = .cl → OnlyReports 0x13 0 s s') ∧
    (sessionOpen s = false → t ≠ .cl → s'.status = 0x00 ∧ s'.value = 0 ∧
      s'.table t = (if t = .ll then fixedLl else fixedDist) ∧ OnlySlot t s s')

/-- HIST.CLEAR, HIST.SET and HIST.INC (R109, R110, R111). -/
def Obligations.HistogramWrites : Prop :=
  ∀ (i : Nat) (f : Word) (s : State),
    (∃ s', exec .histClear s = .next s' ∧ (sessionOpen s = true → OnlyReports 0x12 0 s s') ∧
      (sessionOpen s = false → s'.status = 0x00 ∧ s'.value = 0 ∧ (∀ j < 288, s'.htg.hist[j]? = some 0) ∧ OnlyHist s s')) ∧
    (∃ s', exec (.histSet i f) s = .next s' ∧ (sessionOpen s = true → OnlyReports 0x12 0 s s') ∧
      (sessionOpen s = false → 288 ≤ i → OnlyReports 0x13 0 s s') ∧
      (sessionOpen s = false → i < 288 → s'.status = 0x00 ∧ s'.value = 0 ∧ s'.htg.hist[i]? = some f ∧
        (∀ j, j ≠ i → s'.htg.hist[j]? = s.htg.hist[j]?) ∧ OnlyHist s s')) ∧
    (∃ s', exec (.histInc i) s = .next s' ∧ (sessionOpen s = true → OnlyReports 0x12 0 s s') ∧
      (sessionOpen s = false → 288 ≤ i → OnlyReports 0x13 0 s s') ∧
      (∀ x : Word, sessionOpen s = false → s.htg.hist[i]? = some x → s'.status = 0x00 ∧ s'.value = 0 ∧
        s'.htg.hist[i]? = some (BitVec.ofNat 32 ((x.toNat + 1) % 2 ^ 32)) ∧
        (∀ j, j ≠ i → s'.htg.hist[j]? = s.htg.hist[j]?) ∧ OnlyHist s s'))

/-- HIST.GET (R112). -/
def Obligations.HistGetReadsOneFrequency : Prop :=
  ∀ (i : Nat) (s : State), ∃ s', exec (.histGet i) s = .next s' ∧
    (sessionOpen s = true → OnlyReports 0x12 0 s s') ∧
    (sessionOpen s = false → 288 ≤ i → OnlyReports 0x13 0 s s') ∧
    (∀ x : Word, sessionOpen s = false → s.htg.hist[i]? = some x → OnlyReports 0x00 x s s')

/-! ## History ring and match finder (41_history_match.md) -/

/-- HR.CONFIG (R143): the window set and emptied, the RING bytes kept. -/
def Obligations.HrConfigEmptiesTheWindow : Prop :=
  ∀ (wb : Word) (s : State), ∃ s', exec (.hrConfig wb) s = .next s' ∧
    (sessionOpen s = true → OnlyReports 0x12 0 s s') ∧
    (sessionOpen s = false → 7 < wb.toNat → OnlyReports 0x10 0 s s') ∧
    (sessionOpen s = false → wb.toNat ≤ 7 →
      s'.status = 0x00 ∧ s'.value = 0 ∧ s'.lzm.wb.toNat = wb.toNat ∧ s'.lzm.pos = 0 ∧ s'.lzm.fill = 0 ∧
      (∀ k, s'.lzm.insAt k = false) ∧ (∀ k, s'.lzm.ringAt k = s.lzm.ringAt k) ∧ OnlyLzm s s')

/-- HR.RECORD and HR.RECSKIP (R141, R144, R145): the byte at POS and no other ring byte, POS and FILL stepped, and the INS
flags: the overwritten slot's cleared, and, for HR.RECORD alone, the completed triple's set once FILL is 3 or more. -/
def Obligations.RecordWritesOneByte : Prop :=
  ∀ (b : Word) (skip : Bool) (s : State) (w : Nat), w = 2 ^ (8 + s.lzm.wb.toNat) →
    ∃ s', exec (if skip then .hrRecskip b else .hrRecord b) s = .next s' ∧
      (sessionOpen s = true → OnlyReports 0x12 0 s s') ∧
      (sessionOpen s = false → 255 < b.toNat → OnlyReports 0x13 0 s s') ∧
      (sessionOpen s = false → b.toNat ≤ 255 →
        s'.status = 0x00 ∧ s'.value = 0 ∧
        s'.lzm.ringAt s.lzm.pos.toNat = BitVec.ofNat 8 b.toNat ∧
        (∀ k, k ≠ s.lzm.pos.toNat → s'.lzm.ringAt k = s.lzm.ringAt k) ∧
        s'.lzm.wb = s.lzm.wb ∧ s'.lzm.pos.toNat = (s.lzm.pos.toNat + 1) % w ∧
        s'.lzm.fill.toNat = min (s.lzm.fill.toNat + 1) w ∧
        (∀ k, s'.lzm.insAt k =
          (if skip = false ∧ 3 ≤ s'.lzm.fill.toNat ∧ k = (s'.lzm.pos.toNat + w - 3) % w then true
            else if k = s.lzm.pos.toNat then false else s.lzm.insAt k)) ∧
        OnlyLzm s s')

/-- After a Record, Get(1) is the byte and Get(d + 1) is what Get(d) was (R70, which the spec derives from R141). -/
def Obligations.RecordShiftsEveryDistance : Prop :=
  ∀ (l : Lzm) (b : Byte) (ins : Bool), l.pos.toNat < l.window → l.fill.toNat ≤ l.window →
    (l.record b ins).get 1 = b ∧
    ∀ d, 1 ≤ d → d + 1 ≤ (l.record b ins).fill.toNat → (l.record b ins).get (d + 1) = l.get d

/-- HR.GET (R142, R147): the byte at the distance, or 0 for every distance that names no recorded byte. -/
def Obligations.HrGetReadsByDistance : Prop :=
  ∀ (d : Nat) (s : State), ∃ s', exec (.hrGet d) s = .next s' ∧
    (sessionOpen s = true → OnlyReports 0x12 0 s s') ∧
    (sessionOpen s = false → 1 ≤ d → d ≤ s.lzm.fill.toNat →
      OnlyReports 0x00
        ((s.lzm.ringAt (((s.lzm.pos.toNat : Int) - (d : Int)) % ((2 ^ (8 + s.lzm.wb.toNat) : Nat) : Int)).toNat).zeroExtend 32)
        s s') ∧
    (sessionOpen s = false → (d = 0 ∨ s.lzm.fill.toNat < d) → OnlyReports 0x00 0 s s')

/-- MH.FIND (R146, R152): the least distance of the set D, or 0 where D is empty. -/
def Obligations.MhFindAnswersNearestMatch : Prop :=
  ∀ (triple : Word) (h : Nat) (s : State) (t : Triple),
    t = ⟨triple.extractLsb' 0 8, triple.extractLsb' 8 8, triple.extractLsb' 16 8⟩ →
    ∃ s', exec (.mhFind triple h) s = .next s' ∧
      (sessionOpen s = true → OnlyReports 0x12 0 s s') ∧
      (sessionOpen s = false → triple.extractLsb' 24 8 ≠ 0 → OnlyReports 0x13 0 s s') ∧
      (sessionOpen s = false → triple.extractLsb' 24 8 = 0 → (∀ d, ¬InD s.lzm t h d) → OnlyReports 0x00 0 s s') ∧
      (∀ d, sessionOpen s = false → triple.extractLsb' 24 8 = 0 → InD s.lzm t h d →
        (∀ d', InD s.lzm t h d' → d ≤ d') → OnlyReports 0x00 (BitVec.ofNat 32 d) s s')

/-- `Lzm.chainedFind`, the model's own realization of a chained hash, answers what MH.FIND answers, whatever the hash function
(R148, which the spec derives from R146). Its chain holds live entries alone, so that it meets no stale entry to stop at: that
is the model's choice, notes/assumptions/14.md. -/
def Obligations.ChainedHashAnswersAsMhFind : Prop :=
  ∀ (hash : Triple → Nat) (l : Lzm) (t : Triple) (h : Nat), l.chainedFind hash t h = l.find t h

/-- The triple a record with insertion completes is found at distance 3, and the one a skip record completes is not found at
distance 3: an older inserted copy of it may be found further back (R145; R149, which the spec derives from R141 and R146). -/
def Obligations.RecordedTripleIsFound : Prop :=
  ∀ (l : Lzm) (b : Byte), l.wf → 2 ≤ l.fill.toNat →
    (l.record b true).find ((l.record b true).tripleAt 3) 0 = 3
    ∧ (l.record b false).find ((l.record b false).tripleAt 3) 0 ≠ 3

/-! ## Decoder commands (42_decoder.md §1) -/

/-- DEC.START (R161). -/
def Obligations.DecStartOpensASession : Prop :=
  ∀ (p : Word) (s : State), ∃ t, exec (.decStart p) s = .next t ∧
    (p.extractLsb' 11 21 ≠ 0 → OnlyReports 0x13 0 s t) ∧
    (p.extractLsb' 11 21 = 0 → (p.extractLsb' 0 4 ≠ 8 ∨ 7 < (p.extractLsb' 4 4).toNat) → OnlyReports 0x10 0 s t) ∧
    (p.extractLsb' 11 21 = 0 → p.extractLsb' 0 4 = 8 → (p.extractLsb' 4 4).toNat ≤ 7 →
      t.status = 0x00 ∧ t.value = 0 ∧ t.lzm.wb = p.extractLsb' 4 3 ∧ t.lzm.pos = 0 ∧ t.lzm.fill = 0 ∧
      (∀ k, t.lzm.insAt k = false) ∧ (∀ k, t.lzm.ringAt k = s.lzm.ringAt k) ∧
      t.dbd = { State.reset.dbd with
        dstate := .readBlockHeader, preset := p.getLsbD 10, level := p.extractLsb' 8 2, dictOpen := true } ∧
      t.htg = s.htg ∧ KeepsHostAndEnv s t)

/-- DEC.DICT, its checks in the order of R162. That the order holds in Done as well, where a session without the preset flag
then gives Unsupported and R200's summary prints BadState, is the model's reading (notes/assumptions/18.md). -/
def Obligations.DecDictPreloadsTheRing : Prop :=
  ∀ (v : Word) (s : State), ∃ t, exec (.decDict v) s = .next t ∧
    (sessionOpen s = false → OnlyReports 0x12 0 s t) ∧
    (sessionOpen s = true → v = 0xFFFFFFFF → OnlyReports 0x00 0 s t) ∧
    (sessionOpen s = true → ¬IsBm1 v → OnlyReports 0x13 0 s t) ∧
    (sessionOpen s = true → v.toNat ≤ 255 → s.dbd.preset = false → OnlyReports 0x10 0 s t) ∧
    (sessionOpen s = true → v.toNat ≤ 255 → s.dbd.preset = true → s.dbd.dictOpen = false → OnlyReports 0x12 0 s t) ∧
    (sessionOpen s = true → v.toNat ≤ 255 → s.dbd.preset = true → s.dbd.dictOpen = true →
      t.status = 0x00 ∧ t.value = 0 ∧ t.lzm = s.lzm.record (BitVec.ofNat 8 v.toNat) true ∧ OnlyLzm s t)

/-- DEC.ONE, in the order of R163: the protocol errors, the byte it loads (or ignores while HOLD = 1, in Done, or for -1), and
its end. Two clauses are the model's reading: BadParam while HOLD = 1 leaves HOLD at 1, where R38's words give 0
(notes/assumptions/23.md), and an illegal operand in Done gives BadParam, where R163's corner case, R194 and R200's Done row
give Done (notes/assumptions/24.md). -/
def Obligations.DecOneRunsTheEngine : Prop :=
  ∀ (v : Word) (s : State),
    ((s.dbd.dstate = .idle ∨ s.dbd.dstate = .closed) → ∃ t, exec (.decOne v) s = .next t ∧ OnlyReports 0x12 0 s t) ∧
    (s.dbd.dstate = .error → ∃ t, exec (.decOne v) s = .next t ∧ OnlyReports (s.dbd.err.zeroExtend 32) 0 s t) ∧
    (sessionOpen s = true → ¬IsBm1 v → ∃ t, exec (.decOne v) s = .next t ∧ OnlyReports 0x13 0 s t) ∧
    (∀ r s1 s2, sessionOpen s = true → IsBm1 v →
      s1 = (if s.dbd.hold = false ∧ v ≠ 0xFFFFFFFF ∧ s.dbd.dstate ≠ .done then
          { s with dbd := { s.dbd with bitbuf := BitVec.ofNat 8 v.toNat, bitcnt := 8, dictOpen := false } } else s) →
      run 131072 s1 = (r, s2) →
      exec (.decOne v) s = .next
        { s2 with dbd := { s2.dbd with hold := decide (r = .overflow) }, status := r.bits.zeroExtend 32, value := 0 })

/-- DEC.FINISH (R164): BadState before a start, Done again when Closed, Closed after Done, Eof where the stream is
incomplete, Overflow resumable, and an engine error as it is. -/
def Obligations.DecFinishClosesTheSession : Prop :=
  ∀ s : State,
    (s.dbd.dstate = .idle → ∃ t, exec .decFinish s = .next t ∧ OnlyReports 0x12 0 s t) ∧
    (s.dbd.dstate = .closed → ∃ t, exec .decFinish s = .next t ∧ OnlyReports 0x02 0 s t) ∧
    (s.dbd.dstate = .error → ∃ t, exec .decFinish s = .next t ∧ OnlyReports (s.dbd.err.zeroExtend 32) 0 s t) ∧
    (∀ r s2, sessionOpen s = true → run 131072 s = (r, s2) →
      ∃ t, exec .decFinish s = .next t ∧ t.value = 0 ∧ t.htg = s2.htg ∧ t.lzm = s2.lzm ∧ KeepsHostAndEnv s2 t ∧
        (r = .overflow → t.status = 0x01 ∧ t.dbd = { s2.dbd with hold := true }) ∧
        (r = .done → t.status = 0x02 ∧ t.dbd = { s2.dbd with hold := false, dstate := .closed }) ∧
        (r = .ok → t.status = 0x19 ∧
          t.dbd = { s2.dbd with dstate := .error, err := 0x19, bitcnt := 0, outv := false, hold := false }) ∧
        (r ≠ .overflow → r ≠ .done → r ≠ .ok →
          t.status = r.bits.zeroExtend 32 ∧ t.dbd = { s2.dbd with hold := false })) ∧
    (s.dbd.dstate = .done → s.dbd.outv = false → ∃ t, exec .decFinish s = .next t ∧ t.status = 0x02 ∧ t.value = 0 ∧
      t.dbd = { s.dbd with hold := false, dstate := .closed } ∧ t.htg = s.htg ∧ t.lzm = s.lzm ∧ KeepsHostAndEnv s t)

/-! ## The engine (42_decoder.md §2 to §5) -/

/-- An offered byte and a stored one. A pending byte is offered before anything else: accepted, it joins the output and the
ring with insertion and is pending no more; refused, Run stops with Overflow, the byte still pending and nothing but the
answer taken (R68, R79, R170, R174). So DEC.ONE while HOLD = 1 and DEC.FINISH end with STATUS 0x01 and HOLD 1 where the byte is
refused again (R243). RawBytes emits each whole 8-bit field, REM falls by one, and the last byte ends the block (R175, R179);
the DEC.ONE of such a byte is given whole for a sink that accepts and for one that refuses. The sink's list and the output
list are the model's (notes/assumptions/5.md). -/
def Obligations.StoredByteIsOutput : Prop :=
  (∀ (s : State) (q : List SinkAnswer), s.dbd.outv = true →
    (s.env.sink = .accepted :: q → microStep s = .cont
      { s with
        lzm := s.lzm.record s.dbd.outb true
        env := { s.env with sink := q, out := s.env.out ++ [s.dbd.outb] }
        dbd := { s.dbd with outv := false } }) ∧
    (s.env.sink = .refused :: q → microStep s = .stop .overflow { s with env := { s.env with sink := q } })) ∧
  (∀ (v : Word) (s : State) (q : List SinkAnswer), sessionOpen s = true → s.dbd.outv = true →
    s.env.sink = .refused :: q →
    (IsBm1 v → s.dbd.hold = true → exec (.decOne v) s = .next
      { s with status := 0x01, value := 0, env := { s.env with sink := q } }) ∧
    exec .decFinish s = .next
      { s with status := 0x01, value := 0, env := { s.env with sink := q }, dbd := { s.dbd with hold := true } }) ∧
  (∀ s : State, TakesBit .rawBytes s → ReadsField 8 s fun v => microStep s = .cont (s.setDbd
    { s.dbd.bitTaken with
      outb := BitVec.ofNat 8 v.toNat
      outv := true
      rem := s.dbd.rem - 1
      dstate := if s.dbd.rem = 1 then (if s.dbd.bfinal = true then .done else .readBlockHeader) else .rawBytes
      bitcnt := if s.dbd.rem = 1 ∧ s.dbd.bfinal = true then 0 else s.dbd.bitcnt - 1 })) ∧
  (∀ (v : Word) (s : State) (q : List SinkAnswer) (b : Byte) (d : Dbd), v.toNat ≤ 255 → b = BitVec.ofNat 8 v.toNat →
    s.dbd.dstate = .rawBytes → s.dbd.hold = false → s.dbd.outv = false → s.dbd.acc = 0 → s.dbd.accn = 0 →
    1 ≤ s.dbd.rem.toNat →
    d = { s.dbd with
      dstate := if s.dbd.rem = 1 then (if s.dbd.bfinal = true then .done else .readBlockHeader) else .rawBytes
      rem := s.dbd.rem - 1, bitbuf := 0, bitcnt := 0, dictOpen := false, outb := b } →
    (s.env.sink = .accepted :: q → exec (.decOne v) s = .next
      { s with
        status := if s.dbd.rem = 1 ∧ s.dbd.bfinal = true then 0x02 else 0x00
        value := 0
        lzm := s.lzm.record b true
        env := { s.env with sink := q, out := s.env.out ++ [b] }
        dbd := d }) ∧
    (s.env.sink = .refused :: q → exec (.decOne v) s = .next
      { s with
        status := 0x01, value := 0
        env := { s.env with sink := q }
        dbd := { d with outv := true, hold := true } }))

/-- A block header (R71, R177, R180): BFINAL is bit 0 and BTYPE bits [2:1]. A stored block skips to the byte boundary; a fixed
block loads the fixed tables, whatever the slots held; a dynamic block goes to its header; BTYPE 3 fails with BadBlockType.
First the micro-step, wherever in a byte the header begins (R175: with no alignment), and the fixed setup; then the DEC.ONE of
a block's first byte, given whole, with the five bits after the header read into the code or field, or skipped. -/
def Obligations.HeaderByteSelectsTheBlock : Prop :=
  (∀ s : State, TakesBit .readBlockHeader s → ReadsField 3 s fun v => ∀ d : Dbd,
    d = { s.dbd.bitTaken with bfinal := v.getLsbD 0 } →
    (v.toNat / 2 % 4 = 0 → microStep s = .cont (s.setDbd { d with bitcnt := 0, dstate := .rawLength })) ∧
    (v.toNat / 2 % 4 = 1 → microStep s = .cont (s.setDbd { d with setupKind := 1, dstate := .fixedOrDynamicSetup })) ∧
    (v.toNat / 2 % 4 = 2 → microStep s = .cont (s.setDbd { d with dstate := .readCodeLengthAlphabetHeader })) ∧
    (v.toNat / 2 % 4 = 3 → microStep s = .stop .badBlockType (fail .badBlockType (s.setDbd d)))) ∧
  (∀ s : State, s.dbd.dstate = .fixedOrDynamicSetup → s.dbd.outv = false → s.dbd.setupKind = 1 →
    microStep s = .cont
      { s with
        htg := { s.htg with ll := fixedLl, dist := fixedDist }
        dbd := { s.dbd with setupKind := 0, dstate := .readLiteralOrLength } }) ∧
  (∀ (v : Word) (s : State) (b : Byte), v.toNat ≤ 255 → b = BitVec.ofNat 8 v.toNat →
    s.dbd.dstate = .readBlockHeader → s.dbd.hold = false → s.dbd.outv = false → s.dbd.acc = 0 → s.dbd.accn = 0 →
    (b.extractLsb' 1 2 = 0 → exec (.decOne v) s = .next
      { s with
        status := 0x00, value := 0
        dbd := { s.dbd with
          dstate := .rawLength, bfinal := b.getLsbD 0, bitbuf := b >>> 3, bitcnt := 0, dictOpen := false } }) ∧
    (b.extractLsb' 1 2 = 1 → exec (.decOne v) s = .next
      { s with
        status := 0x00, value := 0
        htg := { s.htg with ll := fixedLl, dist := fixedDist }
        dbd := { s.dbd with
          dstate := .readLiteralOrLength, setupKind := 0, bfinal := b.getLsbD 0, bitbuf := 0, bitcnt := 0
          dictOpen := false, accn := 5
          acc := (bitWord (b.getLsbD 3) <<< 4) ||| (bitWord (b.getLsbD 4) <<< 3) ||| (bitWord (b.getLsbD 5) <<< 2)
            ||| (bitWord (b.getLsbD 6) <<< 1) ||| bitWord (b.getLsbD 7) } }) ∧
    (b.extractLsb' 1 2 = 2 → exec (.decOne v) s = .next
      { s with
        status := 0x00, value := 0
        dbd := { s.dbd with
          dstate := .readCodeLengthAlphabetHeader, bfinal := b.getLsbD 0, bitbuf := 0, bitcnt := 0
          dictOpen := false, accn := 5, acc := (b >>> 3).zeroExtend 32 } }) ∧
    (b.extractLsb' 1 2 = 3 → exec (.decOne v) s = .next
      { s with
        status := 0x16, value := 0
        dbd := { s.dbd with
          dstate := .error, err := 0x16, bfinal := b.getLsbD 0, bitbuf := b >>> 3, bitcnt := 0, dictOpen := false } }))

/-- LEN and NLEN of a stored block, four bytes, LEN first and each low byte first (R67, R178): CorruptLength unless NLEN is
LEN's complement; REM takes LEN, and a block of length 0 ends at once (R175). First the micro-step on the 32-bit field, its
pending bits included; then the DEC.ONE of each of the first three bytes, which joins ACC above the bytes before it, and that
of the fourth, given whole. -/
def Obligations.RawLengthIsChecked : Prop :=
  (∀ s : State, TakesBit .rawLength s → ReadsField 32 s fun v =>
    (v.toNat / 2 ^ 16 + v.toNat % 2 ^ 16 ≠ 0xFFFF →
      microStep s = .stop .corruptLength (fail .corruptLength (s.setDbd s.dbd.bitTaken))) ∧
    (v.toNat / 2 ^ 16 + v.toNat % 2 ^ 16 = 0xFFFF → v.toNat % 2 ^ 16 ≠ 0 →
      microStep s = .cont (s.setDbd
        { s.dbd.bitTaken with rem := BitVec.ofNat 16 (v.toNat % 2 ^ 16), dstate := .rawBytes })) ∧
    (v.toNat / 2 ^ 16 + v.toNat % 2 ^ 16 = 0xFFFF → v.toNat % 2 ^ 16 = 0 →
      microStep s = .cont (s.setDbd
        { s.dbd.bitTaken with
          rem := 0
          dstate := if s.dbd.bfinal = true then .done else .readBlockHeader
          bitcnt := if s.dbd.bfinal = true then 0 else s.dbd.bitcnt - 1 }))) ∧
  (∀ (v : Word) (s : State) (k : Nat), v.toNat ≤ 255 → k < 3 → s.dbd.dstate = .rawLength → s.dbd.hold = false →
    s.dbd.outv = false → s.dbd.accn.toNat = 8 * k → s.dbd.acc.toNat < 2 ^ (8 * k) →
    exec (.decOne v) s = .next
      { s with
        status := 0x00, value := 0
        dbd := { s.dbd with
          acc := BitVec.ofNat 32 (s.dbd.acc.toNat + v.toNat * 2 ^ (8 * k)), accn := BitVec.ofNat 6 (8 * k + 8)
          bitbuf := 0, bitcnt := 0, dictOpen := false } }) ∧
  (∀ (v : Word) (s : State) (len nlen : BitVec 16), v.toNat ≤ 255 →
    len = s.dbd.acc.extractLsb' 0 16 → nlen = BitVec.ofNat 8 v.toNat ++ s.dbd.acc.extractLsb' 16 8 →
    s.dbd.dstate = .rawLength → s.dbd.hold = false → s.dbd.outv = false → s.dbd.accn = 24 → s.dbd.acc.toNat < 2 ^ 24 →
    (nlen ≠ ~~~len → exec (.decOne v) s = .next
      { s with
        status := 0x17, value := 0
        dbd := { s.dbd with
          dstate := .error, err := 0x17, acc := 0, accn := 0, bitbuf := 0, bitcnt := 0, dictOpen := false } }) ∧
    (nlen = ~~~len → exec (.decOne v) s = .next
      { s with
        status := if len = 0 ∧ s.dbd.bfinal = true then 0x02 else 0x00
        value := 0
        dbd := { s.dbd with
          dstate := if len = 0 then (if s.dbd.bfinal = true then .done else .readBlockHeader) else .rawBytes
          rem := len, acc := 0, accn := 0, bitbuf := 0, bitcnt := 0, dictOpen := false } }))

/-- Every field but a Huffman code arrives least significant bit first, over any number of bytes (R66, R172). -/
def Obligations.FieldsArriveLowBitFirst : Prop :=
  ∀ (n : Nat) (v : Word) (s : State), 1 ≤ n → n ≤ 32 → s.dbd.acc = 0 → s.dbd.accn = 0 →
    (∀ k, k + 1 < n → readField n (v.getLsbD k) (feedField n ((fieldBits n v).take k) s) = none) ∧
    (∃ w, readField n (v.getLsbD (n - 1)) (feedField n ((fieldBits n v).take (n - 1)) s) = some w
      ∧ w.toNat = v.toNat % 2 ^ n) ∧
    (feedField n (fieldBits n v) s).dbd.acc = 0 ∧ (feedField n (fieldBits n v) s).dbd.accn = 0

/-- A Huffman code arrives most significant bit first: a code of the slot none of whose proper prefixes is a code is pending
until its last bit and then gives its symbol, and a bit string none of whose prefixes is a code fails with BadCodeLength at
bit maxbits (R66, R173). What a symbol then does in the three states that read one: in ReadCodeLengths, with the CL code of
at most 7 bits, a length written at IDX or a repeat code (R185); in ReadLiteralOrLength, with the LL code of at most 15, a
literal, the end of the block, a length symbol or BadCodeLength (R175, R187); in ReadDistance, with the DIST code of at most
15, a distance symbol or BadCodeLength (R190). What R188 and R191 hold for each symbol is CopyOutputsFromHistory's. -/
def Obligations.CodesArriveHighBitFirst : Prop :=
  (∀ (t : Slot) (maxbits len : Nat) (p : BitVec 16) (sym : BitVec 9) (s : State),
    1 ≤ len → len ≤ maxbits → maxbits ≤ 15 → p.toNat < 2 ^ len → s.dbd.acc = 0 → s.dbd.accn = 0 →
    lookup (s.table t) len p.toNat = some sym →
    (∀ k, 1 ≤ k → k < len → lookup (s.table t) k (p.toNat / 2 ^ (len - k)) = none) →
    (∀ k, k + 1 < len →
      readCode t maxbits ((codeBits len p).getD k false) (feedCode t maxbits ((codeBits len p).take k) s) = .pending) ∧
    readCode t maxbits (p.getLsbD 0) (feedCode t maxbits ((codeBits len p).take (len - 1)) s) = .symbol sym.toNat ∧
    (feedCode t maxbits (codeBits len p) s).dbd.acc = 0 ∧ (feedCode t maxbits (codeBits len p) s).dbd.accn = 0) ∧
  (∀ (t : Slot) (maxbits : Nat) (p : BitVec 16) (s : State),
    1 ≤ maxbits → maxbits ≤ 15 → p.toNat < 2 ^ maxbits → s.dbd.acc = 0 → s.dbd.accn = 0 →
    (∀ k, 1 ≤ k → k ≤ maxbits → lookup (s.table t) k (p.toNat / 2 ^ (maxbits - k)) = none) →
    (∀ k, k + 1 < maxbits →
      readCode t maxbits ((codeBits maxbits p).getD k false) (feedCode t maxbits ((codeBits maxbits p).take k) s)
        = .pending) ∧
    readCode t maxbits (p.getLsbD 0) (feedCode t maxbits ((codeBits maxbits p).take (maxbits - 1)) s) = .bad) ∧
  (∀ s : State, TakesBit .readCodeLengths s → phaseOk s.htg s.dbd → ReadsCode .cl 7 s fun sym =>
    (sym ≤ 15 → ∃ t, microStep s = .cont t ∧
      (∀ j, j < totalLens s.dbd → getLenAt j t = if j = s.dbd.idx.toNat then sym else getLenAt j s) ∧
      t.dbd = { s.dbd.bitTaken with
        idx := BitVec.ofNat 9 (s.dbd.idx.toNat + 1)
        setupKind := if s.dbd.idx.toNat + 1 = totalLens s.dbd then 2 else s.dbd.setupKind
        dstate := if s.dbd.idx.toNat + 1 = totalLens s.dbd then .fixedOrDynamicSetup else .readCodeLengths } ∧
      OnlyLengths s t ∧ OnlyHtgAndDbd s t) ∧
    (sym = 16 → s.dbd.idx = 0 →
      microStep s = .stop .badCodeLength (fail .badCodeLength (s.setDbd s.dbd.bitTaken))) ∧
    (16 ≤ sym → sym ≤ 18 → (sym = 16 → s.dbd.idx ≠ 0) →
      microStep s = .cont (s.setDbd { s.dbd.bitTaken with rep := BitVec.ofNat 5 sym, dstate := .readCodeLengthExtra }))) ∧
  (∀ s : State, TakesBit .readLiteralOrLength s → ReadsCode .ll 15 s fun sym =>
    (sym < 256 → microStep s = .cont (s.setDbd { s.dbd.bitTaken with outb := BitVec.ofNat 8 sym, outv := true })) ∧
    (sym = 256 → microStep s = .cont (s.setDbd
      { s.dbd.bitTaken with
        dstate := if s.dbd.bfinal = true then .done else .readBlockHeader
        bitcnt := if s.dbd.bfinal = true then 0 else s.dbd.bitcnt - 1 })) ∧
    (257 ≤ sym → sym ≤ 285 → microStep s = .cont (s.setDbd
      { s.dbd.bitTaken with
        lsym := BitVec.ofNat 5 (sym - 257)
        length := BitVec.ofNat 9 (lenBase.getD (sym - 257) 0)
        dstate := if 265 ≤ sym ∧ sym ≤ 284 then .readLengthExtra else .readDistance })) ∧
    (286 ≤ sym → microStep s = .stop .badCodeLength (fail .badCodeLength (s.setDbd s.dbd.bitTaken)))) ∧
  (∀ s : State, TakesBit .readDistance s → ReadsCode .dist 15 s fun sym =>
    (sym ≤ 3 → microStep s = .cont (s.setDbd
      { s.dbd.bitTaken with
        dsym := BitVec.ofNat 5 sym
        dist := BitVec.ofNat 16 (distBase.getD sym 0)
        rem := BitVec.ofNat 16 s.dbd.length.toNat
        dstate := .copyFromHistory })) ∧
    (4 ≤ sym → sym ≤ 29 → microStep s = .cont (s.setDbd
      { s.dbd.bitTaken with
        dsym := BitVec.ofNat 5 sym
        dist := BitVec.ofNat 16 (distBase.getD sym 0)
        dstate := .readDistanceExtra })) ∧
    (30 ≤ sym → microStep s = .stop .badCodeLength (fail .badCodeLength (s.setDbd s.dbd.bitTaken))))

/-- The header of a dynamic block, state by state. The 14-bit field gives HLIT, HDIST and HCLEN, fails above 286 or 30, and
otherwise leaves CL fresh (R182). Each 3-bit length goes to the CL entry CL_ORDER names, and the HCLEN-th ends in CL's
patterns and fresh LL and DIST slots, or in CodeExcess (R183, R184). A repeat code reads 2, 3 or 7 bits and writes its run
of lengths, across the LL and DIST boundary, or fails where the run passes the end (R186). The dynamic setup writes the
patterns of LL, then those of DIST, or fails with CodeExcess, a failure of DIST leaving those of LL written (R181). The
premises are those the invariant gives in each state; `setLen` and `setPats` write what HtSetlenWritesOneLength and
HtAssignWritesCanonicalPatterns say. -/
def Obligations.RepeatRunWritesLengths : Prop :=
  (∀ n, (freshTable n).length = n ∧
    ∀ i, i < n → (freshTable n)[i]? = some { len := 0, pat := 0, sym := BitVec.ofNat 9 i }) ∧
  (∀ s : State, TakesBit .readCodeLengthAlphabetHeader s → ReadsField 14 s fun v =>
    ∀ hlit hdist hclen : Nat, hlit = v.toNat % 32 + 257 → hdist = v.toNat / 32 % 32 + 1 → hclen = v.toNat / 1024 % 16 + 4 →
      ((286 < hlit ∨ 30 < hdist) →
        microStep s = .stop .badCodeLength (fail .badCodeLength (s.setDbd s.dbd.bitTaken))) ∧
      (hlit ≤ 286 → hdist ≤ 30 → microStep s = .cont ((s.setTable .cl (freshTable 19)).setDbd
        { s.dbd.bitTaken with
          hlit := BitVec.ofNat 9 hlit, hdist := BitVec.ofNat 6 hdist, hclen := BitVec.ofNat 5 hclen, idx := 0
          dstate := .readCodeLengthAlphabet }))) ∧
  (∀ s : State, TakesBit .readCodeLengthAlphabet s → phaseOk s.htg s.dbd → ReadsField 3 s fun v =>
    ∀ (es : Table) (d : Dbd),
      es = setLen s.htg.cl
        ([16, 17, 18, 0, 8, 7, 9, 6, 10, 5, 11, 4, 12, 3, 13, 2, 14, 1, 15].getD s.dbd.idx.toNat 19) v.toNat →
      d = { s.dbd.bitTaken with idx := BitVec.ofNat 9 (s.dbd.idx.toNat + 1) } →
      (s.dbd.idx.toNat + 1 < s.dbd.hclen.toNat → microStep s = .cont ((s.setTable .cl es).setDbd d)) ∧
      (∀ c, s.dbd.idx.toNat + 1 = s.dbd.hclen.toNat → canonical (lengthsOf es) = .error c →
        c = .codeExcess ∧ microStep s = .stop c (fail c ((s.setTable .cl es).setDbd d))) ∧
      (∀ ps, s.dbd.idx.toNat + 1 = s.dbd.hclen.toNat → canonical (lengthsOf es) = .ok ps →
        microStep s = .cont ((((s.setTable .cl (setPats es ps)).setTable .ll (freshTable s.dbd.hlit.toNat)).setTable
          .dist (freshTable s.dbd.hdist.toNat)).setDbd { d with idx := 0, dstate := .readCodeLengths }))) ∧
  (∀ s : State, TakesBit .readCodeLengthExtra s →
    ReadsField (if s.dbd.rep.toNat = 16 then 2 else if s.dbd.rep.toNat = 17 then 3 else 7) s fun v =>
      microStep s = onRepeat v (s.setDbd s.dbd.bitTaken)) ∧
  (∀ (v : Word) (s : State) (cnt val : Nat), lensReading s.htg s.dbd → s.dbd.idx.toNat < totalLens s.dbd →
    (s.dbd.rep.toNat = 16 ∧ 1 ≤ s.dbd.idx.toNat ∧ v.toNat < 4 ∨ s.dbd.rep.toNat = 17 ∧ v.toNat < 8
      ∨ s.dbd.rep.toNat = 18 ∧ v.toNat < 128) →
    cnt = (if s.dbd.rep.toNat = 18 then 11 else 3) + v.toNat →
    val = (if s.dbd.rep.toNat = 16 then getLenAt (s.dbd.idx.toNat - 1) s else 0) →
    (totalLens s.dbd < s.dbd.idx.toNat + cnt → onRepeat v s = .stop .badCodeLength (fail .badCodeLength s)) ∧
    (s.dbd.idx.toNat + cnt ≤ totalLens s.dbd → ∃ t, onRepeat v s = .cont t ∧
      (∀ j, j < totalLens s.dbd →
        getLenAt j t = if s.dbd.idx.toNat ≤ j ∧ j < s.dbd.idx.toNat + cnt then val else getLenAt j s) ∧
      t.dbd = { s.dbd with
        rep := 0
        idx := BitVec.ofNat 9 (s.dbd.idx.toNat + cnt)
        setupKind := if s.dbd.idx.toNat + cnt = totalLens s.dbd then 2 else s.dbd.setupKind
        dstate := if s.dbd.idx.toNat + cnt = totalLens s.dbd then .fixedOrDynamicSetup else .readCodeLengths } ∧
      OnlyLengths s t ∧ OnlyHtgAndDbd s t)) ∧
  (∀ s : State, s.dbd.dstate = .fixedOrDynamicSetup → s.dbd.outv = false → s.dbd.setupKind = 2 →
    lensReading s.htg s.dbd →
    (∀ c, canonical (lengthsOf s.htg.ll) = .error c → c = .codeExcess ∧ microStep s = .stop c (fail c s)) ∧
    (∀ ps c, canonical (lengthsOf s.htg.ll) = .ok ps → canonical (lengthsOf s.htg.dist) = .error c →
      c = .codeExcess ∧ microStep s = .stop c (fail c (s.setTable .ll (setPats s.htg.ll ps)))) ∧
    (∀ ps qs, canonical (lengthsOf s.htg.ll) = .ok ps → canonical (lengthsOf s.htg.dist) = .ok qs →
      microStep s = .cont (((s.setTable .ll (setPats s.htg.ll ps)).setTable .dist (setPats s.htg.dist qs)).setDbd
        { s.dbd with setupKind := 0, dstate := .readLiteralOrLength })))

/-- A length and a distance from their symbols to the copy. Run goes from micro-step to micro-step and ends at the first
that stops; with no byte pending it stops with Ok and changes nothing where a state that consumes bits holds none, and with
Done in Done, so a DEC.ONE of -1 leaves a decoder that waits for input as it was, and every DEC.ONE in Done answers Done (R163,
R170, R194). LEN_EXTRA and LEN_BASE, DIST_EXTRA and DIST_BASE, symbol by symbol: the symbols of `e` extra bits stand
together and their bases are `2 ^ e` apart (R188, R191). The extra bits are added to the base, which gives a length in
3..258 and a distance in 1..32768, and the last of them starts the copy (R189, R192). A copy of n bytes through an accepting
sink outputs and records the n bytes at DIST, one by one, and goes back to ReadLiteralOrLength, in 2n micro-steps (R170,
R174, R193). The sink's list and the output list are the model's (notes/assumptions/5.md). -/
def Obligations.CopyOutputsFromHistory : Prop :=
  (∀ (k : Nat) (s t : State) (c : Code), (microStep s = .cont t → run (k + 1) s = run k t) ∧
    (microStep s = .stop c t → run (k + 1) s = (c, t))) ∧
  (∀ s : State, consumesBits s.dbd.dstate = true → s.dbd.outv = false → s.dbd.bitcnt = 0 →
    microStep s = .stop .ok s ∧
    (s.dbd.hold = false → exec (.decOne 0xFFFFFFFF) s = .next { s with status := 0x00, value := 0 })) ∧
  (∀ s : State, s.dbd.dstate = .done → s.dbd.outv = false → microStep s = .stop .done s ∧
    ∀ v, IsBm1 v → exec (.decOne v) s = .next
      { s with status := 0x02, value := 0, dbd := { s.dbd with hold := false } }) ∧
  (∀ i, i < 8 → lenExtra.getD i 0 = 0 ∧ lenBase.getD i 0 = 3 + i) ∧
  (∀ e i, 1 ≤ e → e ≤ 5 → i < 4 →
    lenExtra.getD (4 + 4 * e + i) 0 = e ∧ lenBase.getD (4 + 4 * e + i) 0 = 2 ^ (e + 2) + 3 + i * 2 ^ e) ∧
  (lenExtra.getD 28 0 = 0 ∧ lenBase.getD 28 0 = 258) ∧
  (∀ i, i < 4 → distExtra.getD i 0 = 0 ∧ distBase.getD i 0 = 1 + i) ∧
  (∀ e i, 1 ≤ e → e ≤ 13 → i < 2 →
    distExtra.getD (2 + 2 * e + i) 0 = e ∧ distBase.getD (2 + 2 * e + i) 0 = 2 ^ (e + 1) + 1 + i * 2 ^ e) ∧
  (∀ s : State, TakesBit .readLengthExtra s → phaseOk s.htg s.dbd →
    ReadsField (lenExtra.getD s.dbd.lsym.toNat 0) s fun v =>
      ∀ len : Nat, len = lenBase.getD s.dbd.lsym.toNat 0 + v.toNat → 3 ≤ len ∧ len ≤ 258 ∧
        microStep s = .cont (s.setDbd { s.dbd.bitTaken with length := BitVec.ofNat 9 len, dstate := .readDistance })) ∧
  (∀ s : State, TakesBit .readDistanceExtra s → phaseOk s.htg s.dbd →
    ReadsField (distExtra.getD s.dbd.dsym.toNat 0) s fun v =>
      ∀ d : Nat, d = distBase.getD s.dbd.dsym.toNat 0 + v.toNat → 1 ≤ d ∧ d ≤ 32768 ∧
        microStep s = .cont (s.setDbd
          { s.dbd.bitTaken with
            dist := BitVec.ofNat 16 d, rem := BitVec.ofNat 16 s.dbd.length.toNat, dstate := .copyFromHistory })) ∧
  (∀ (n : Nat) (s : State) (q : List SinkAnswer), 1 ≤ n → s.dbd.dstate = .copyFromHistory → s.dbd.outv = false →
    s.dbd.rem.toNat = n → s.env.sink = List.replicate n .accepted ++ q →
    ∃ t, (∀ k, run (2 * n + k) s = run k t) ∧
      t.env = { s.env with sink := q, out := s.env.out ++ copyOutput s.dbd.dist.toNat n s.lzm } ∧
      t.lzm = recordAll (copyOutput s.dbd.dist.toNat n s.lzm) s.lzm ∧
      t.dbd = { s.dbd with dstate := .readLiteralOrLength, rem := 0, outb := t.dbd.outb } ∧
      t.htg = s.htg ∧ t.cmd = s.cmd ∧ t.data = s.data)

/-- A copy whose distance is less than its length repeats the bytes it has just output, and a distance beyond the recorded
history gives 0 (R193, R196). -/
def Obligations.OverlappingCopyRepeats : Prop :=
  ∀ (d n : Nat) (l : Lzm) (i : Nat), l.pos.toNat < l.window → l.fill.toNat ≤ l.window → 1 ≤ d → i < n →
    (d ≤ l.fill.toNat → (copyOutput d n l).getD i 0 =
      if i < d then l.get (d - i) else (copyOutput d n l).getD (i - d) 0) ∧
    (min (l.fill.toNat + i) l.window < d → (copyOutput d n l).getD i 0 = 0)

/-- During a DEC.ONE or a DEC.FINISH the bytes recorded in the ring are exactly the bytes the sink accepts, in the same order, each
with insertion (R79, R151, R174). The output list is the model's (notes/assumptions/5.md). -/
def Obligations.RecordedBytesAreTheOutput : Prop :=
  ∀ (i : Instr) (s t : State), ((∃ v, i = .decOne v) ∨ i = .decFinish) → exec i s = .next t →
    ∃ bs, t.env.out = s.env.out ++ bs ∧ t.lzm = recordAll bs s.lzm

/-- Fail (R176, R236): what it writes, and that a decoder command of an open session that ends with one of the failure codes
has gone through it. -/
def Obligations.FailureEntersError : Prop :=
  (∀ (c : Code) (s : State), fail c s =
    { s with dbd := { s.dbd with dstate := .error, err := c.bits, bitcnt := 0, outv := false, hold := false } }) ∧
  (∀ (i : Instr) (s t : State), ((∃ v, i = .decOne v) ∨ i = .decFinish) → sessionOpen s = true → exec i s = .next t →
    (0x14 ≤ t.status.toNat ∧ t.status.toNat ≤ 0x19) →
    t.dbd.dstate = .error ∧ t.dbd.err.zeroExtend 32 = t.status ∧ t.dbd.bitcnt = 0 ∧ t.dbd.outv = false ∧
      t.dbd.hold = false)

/-- Where the sink's refusals fall does not matter: a DEC.ONE that meets a refusal and is issued again, with the same byte,
another or -1, ends as the DEC.ONE that meets none (R197, which the spec derives from R163, R170 and R174; R243). The sink's
list is the model's (notes/assumptions/5.md). -/
def Obligations.RefusalDoesNotChangeTheOutput : Prop :=
  ∀ (v w : Word) (s t : State) (q1 q2 : List SinkAnswer), s.Inv → IsBm1 w → (∀ a ∈ q1, a = .accepted) →
    exec (.decOne v) (s.setSink (q1 ++ .refused :: q2)) = .next t → t.status = 0x01 →
    exec (.decOne w) t = exec (.decOne v) (s.setSink (q1 ++ q2))

/-- LoopedState is unreachable: from every state of the invariant, one decoder command takes fewer than 2700 micro-steps
(R198 and R244, which the spec derives; notes/assumptions/10.md). -/
def Obligations.LoopedStateIsUnreachable : Prop :=
  ∀ (s : State) (x : Bm1), s.Inv → sessionOpen s = true →
    (run 2700 (loadByte x s)).1 ≠ .loopedState ∧ (run 2700 s).1 ≠ .loopedState
      ∧ run 131072 (loadByte x s) = run 2700 (loadByte x s) ∧ run 131072 s = run 2700 s
end

