-- ==== Sys2Proof/Laws/State.lean ====
section
/-! SUPPORT. One lemma for each field and each update of the state, so that no proof unfolds a record update. -/

namespace Sys2Proof.Machine

/-! ## finishBits -/

@[simp] theorem finishBits_cmd (b : BitVec 8) (v : Word) (s : State) : (finishBits b v s).cmd = s.cmd := rfl
@[simp] theorem finishBits_data (b : BitVec 8) (v : Word) (s : State) : (finishBits b v s).data = s.data := rfl
@[simp] theorem finishBits_status (b : BitVec 8) (v : Word) (s : State) : (finishBits b v s).status = statusWord b := rfl
@[simp] theorem finishBits_value (b : BitVec 8) (v : Word) (s : State) : (finishBits b v s).value = v := rfl
@[simp] theorem finishBits_htg (b : BitVec 8) (v : Word) (s : State) : (finishBits b v s).htg = s.htg := rfl
@[simp] theorem finishBits_lzm (b : BitVec 8) (v : Word) (s : State) : (finishBits b v s).lzm = s.lzm := rfl
@[simp] theorem finishBits_dbd (b : BitVec 8) (v : Word) (s : State) : (finishBits b v s).dbd = s.dbd := rfl
@[simp] theorem finishBits_env (b : BitVec 8) (v : Word) (s : State) : (finishBits b v s).env = s.env := rfl

/-! ## finish -/

@[simp] theorem finish_cmd (c : Code) (v : Word) (s : State) : (finish c v s).cmd = s.cmd := rfl
@[simp] theorem finish_data (c : Code) (v : Word) (s : State) : (finish c v s).data = s.data := rfl
@[simp] theorem finish_status (c : Code) (v : Word) (s : State) : (finish c v s).status = c.word := rfl
@[simp] theorem finish_value (c : Code) (v : Word) (s : State) : (finish c v s).value = v := rfl
@[simp] theorem finish_htg (c : Code) (v : Word) (s : State) : (finish c v s).htg = s.htg := rfl
@[simp] theorem finish_lzm (c : Code) (v : Word) (s : State) : (finish c v s).lzm = s.lzm := rfl
@[simp] theorem finish_dbd (c : Code) (v : Word) (s : State) : (finish c v s).dbd = s.dbd := rfl
@[simp] theorem finish_env (c : Code) (v : Word) (s : State) : (finish c v s).env = s.env := rfl

/-! ## raise -/

@[simp] theorem raise_cmd (c : Code) (s : State) : (raise c s).cmd = s.cmd := rfl
@[simp] theorem raise_data (c : Code) (s : State) : (raise c s).data = s.data := rfl
@[simp] theorem raise_status (c : Code) (s : State) : (raise c s).status = c.word := rfl
@[simp] theorem raise_value (c : Code) (s : State) : (raise c s).value = 0 := rfl
@[simp] theorem raise_htg (c : Code) (s : State) : (raise c s).htg = s.htg := rfl
@[simp] theorem raise_lzm (c : Code) (s : State) : (raise c s).lzm = s.lzm := rfl
@[simp] theorem raise_dbd (c : Code) (s : State) : (raise c s).dbd = s.dbd := rfl
@[simp] theorem raise_env (c : Code) (s : State) : (raise c s).env = s.env := rfl

/-! ## State.setTable -/

@[simp] theorem State.setTable_cmd (s : State) (t : Slot) (es : Table) : (s.setTable t es).cmd = s.cmd := rfl
@[simp] theorem State.setTable_data (s : State) (t : Slot) (es : Table) : (s.setTable t es).data = s.data := rfl
@[simp] theorem State.setTable_status (s : State) (t : Slot) (es : Table) : (s.setTable t es).status = s.status := rfl
@[simp] theorem State.setTable_value (s : State) (t : Slot) (es : Table) : (s.setTable t es).value = s.value := rfl
@[simp] theorem State.setTable_htg (s : State) (t : Slot) (es : Table) : (s.setTable t es).htg = s.htg.setTable t es := rfl
@[simp] theorem State.setTable_lzm (s : State) (t : Slot) (es : Table) : (s.setTable t es).lzm = s.lzm := rfl
@[simp] theorem State.setTable_dbd (s : State) (t : Slot) (es : Table) : (s.setTable t es).dbd = s.dbd := rfl
@[simp] theorem State.setTable_env (s : State) (t : Slot) (es : Table) : (s.setTable t es).env = s.env := rfl

/-! ## State.setDbd -/

@[simp] theorem State.setDbd_cmd (s : State) (d : Dbd) : (s.setDbd d).cmd = s.cmd := rfl
@[simp] theorem State.setDbd_data (s : State) (d : Dbd) : (s.setDbd d).data = s.data := rfl
@[simp] theorem State.setDbd_status (s : State) (d : Dbd) : (s.setDbd d).status = s.status := rfl
@[simp] theorem State.setDbd_value (s : State) (d : Dbd) : (s.setDbd d).value = s.value := rfl
@[simp] theorem State.setDbd_htg (s : State) (d : Dbd) : (s.setDbd d).htg = s.htg := rfl
@[simp] theorem State.setDbd_lzm (s : State) (d : Dbd) : (s.setDbd d).lzm = s.lzm := rfl
@[simp] theorem State.setDbd_dbd (s : State) (d : Dbd) : (s.setDbd d).dbd = d := rfl
@[simp] theorem State.setDbd_env (s : State) (d : Dbd) : (s.setDbd d).env = s.env := rfl

/-! ## State.setLzm -/

@[simp] theorem State.setLzm_cmd (s : State) (l : Lzm) : (s.setLzm l).cmd = s.cmd := rfl
@[simp] theorem State.setLzm_data (s : State) (l : Lzm) : (s.setLzm l).data = s.data := rfl
@[simp] theorem State.setLzm_status (s : State) (l : Lzm) : (s.setLzm l).status = s.status := rfl
@[simp] theorem State.setLzm_value (s : State) (l : Lzm) : (s.setLzm l).value = s.value := rfl
@[simp] theorem State.setLzm_htg (s : State) (l : Lzm) : (s.setLzm l).htg = s.htg := rfl
@[simp] theorem State.setLzm_lzm (s : State) (l : Lzm) : (s.setLzm l).lzm = l := rfl
@[simp] theorem State.setLzm_dbd (s : State) (l : Lzm) : (s.setLzm l).dbd = s.dbd := rfl
@[simp] theorem State.setLzm_env (s : State) (l : Lzm) : (s.setLzm l).env = s.env := rfl

/-! ## State.setHist -/

@[simp] theorem State.setHist_cmd (s : State) (h : Vector Word Config.htCap) : (s.setHist h).cmd = s.cmd := rfl
@[simp] theorem State.setHist_data (s : State) (h : Vector Word Config.htCap) : (s.setHist h).data = s.data := rfl
@[simp] theorem State.setHist_status (s : State) (h : Vector Word Config.htCap) : (s.setHist h).status = s.status := rfl
@[simp] theorem State.setHist_value (s : State) (h : Vector Word Config.htCap) : (s.setHist h).value = s.value := rfl
@[simp] theorem State.setHist_lzm (s : State) (h : Vector Word Config.htCap) : (s.setHist h).lzm = s.lzm := rfl
@[simp] theorem State.setHist_dbd (s : State) (h : Vector Word Config.htCap) : (s.setHist h).dbd = s.dbd := rfl
@[simp] theorem State.setHist_env (s : State) (h : Vector Word Config.htCap) : (s.setHist h).env = s.env := rfl

/-! ## State.setHost -/

@[simp] theorem State.setHost_cmd (s : State) (h : List HostAccess) : (s.setHost h).cmd = s.cmd := rfl
@[simp] theorem State.setHost_data (s : State) (h : List HostAccess) : (s.setHost h).data = s.data := rfl
@[simp] theorem State.setHost_status (s : State) (h : List HostAccess) : (s.setHost h).status = s.status := rfl
@[simp] theorem State.setHost_value (s : State) (h : List HostAccess) : (s.setHost h).value = s.value := rfl
@[simp] theorem State.setHost_htg (s : State) (h : List HostAccess) : (s.setHost h).htg = s.htg := rfl
@[simp] theorem State.setHost_lzm (s : State) (h : List HostAccess) : (s.setHost h).lzm = s.lzm := rfl
@[simp] theorem State.setHost_dbd (s : State) (h : List HostAccess) : (s.setHost h).dbd = s.dbd := rfl

/-! ## State.setSink -/

@[simp] theorem State.setSink_cmd (s : State) (q : List SinkAnswer) : (s.setSink q).cmd = s.cmd := rfl
@[simp] theorem State.setSink_data (s : State) (q : List SinkAnswer) : (s.setSink q).data = s.data := rfl
@[simp] theorem State.setSink_status (s : State) (q : List SinkAnswer) : (s.setSink q).status = s.status := rfl
@[simp] theorem State.setSink_value (s : State) (q : List SinkAnswer) : (s.setSink q).value = s.value := rfl
@[simp] theorem State.setSink_htg (s : State) (q : List SinkAnswer) : (s.setSink q).htg = s.htg := rfl
@[simp] theorem State.setSink_lzm (s : State) (q : List SinkAnswer) : (s.setSink q).lzm = s.lzm := rfl
@[simp] theorem State.setSink_dbd (s : State) (q : List SinkAnswer) : (s.setSink q).dbd = s.dbd := rfl

/-! ## withDraws -/

@[simp] theorem withDraws_cmd (n : Nat) (s : State) : (withDraws n s).cmd = s.cmd := rfl
@[simp] theorem withDraws_data (n : Nat) (s : State) : (withDraws n s).data = s.data := rfl
@[simp] theorem withDraws_status (n : Nat) (s : State) : (withDraws n s).status = s.status := rfl
@[simp] theorem withDraws_value (n : Nat) (s : State) : (withDraws n s).value = s.value := rfl
@[simp] theorem withDraws_htg (n : Nat) (s : State) : (withDraws n s).htg = s.htg := rfl
@[simp] theorem withDraws_lzm (n : Nat) (s : State) : (withDraws n s).lzm = s.lzm := rfl
@[simp] theorem withDraws_dbd (n : Nat) (s : State) : (withDraws n s).dbd = s.dbd := rfl

/-! ## setHold -/

@[simp] theorem setHold_cmd (h : Bool) (s : State) : (setHold h s).cmd = s.cmd := rfl
@[simp] theorem setHold_data (h : Bool) (s : State) : (setHold h s).data = s.data := rfl
@[simp] theorem setHold_status (h : Bool) (s : State) : (setHold h s).status = s.status := rfl
@[simp] theorem setHold_value (h : Bool) (s : State) : (setHold h s).value = s.value := rfl
@[simp] theorem setHold_htg (h : Bool) (s : State) : (setHold h s).htg = s.htg := rfl
@[simp] theorem setHold_lzm (h : Bool) (s : State) : (setHold h s).lzm = s.lzm := rfl
@[simp] theorem setHold_env (h : Bool) (s : State) : (setHold h s).env = s.env := rfl

/-! ## fail -/

@[simp] theorem fail_cmd (c : Code) (s : State) : (fail c s).cmd = s.cmd := rfl
@[simp] theorem fail_data (c : Code) (s : State) : (fail c s).data = s.data := rfl
@[simp] theorem fail_status (c : Code) (s : State) : (fail c s).status = s.status := rfl
@[simp] theorem fail_value (c : Code) (s : State) : (fail c s).value = s.value := rfl
@[simp] theorem fail_htg (c : Code) (s : State) : (fail c s).htg = s.htg := rfl
@[simp] theorem fail_lzm (c : Code) (s : State) : (fail c s).lzm = s.lzm := rfl
@[simp] theorem fail_dbd (c : Code) (s : State) : (fail c s).dbd = s.dbd.failed c := rfl
@[simp] theorem fail_env (c : Code) (s : State) : (fail c s).env = s.env := rfl

/-! ## dropBit -/

@[simp] theorem dropBit_cmd (s : State) : (dropBit s).cmd = s.cmd := rfl
@[simp] theorem dropBit_data (s : State) : (dropBit s).data = s.data := rfl
@[simp] theorem dropBit_status (s : State) : (dropBit s).status = s.status := rfl
@[simp] theorem dropBit_value (s : State) : (dropBit s).value = s.value := rfl
@[simp] theorem dropBit_htg (s : State) : (dropBit s).htg = s.htg := rfl
@[simp] theorem dropBit_lzm (s : State) : (dropBit s).lzm = s.lzm := rfl
@[simp] theorem dropBit_env (s : State) : (dropBit s).env = s.env := rfl

@[simp] theorem State.setHist_hist (s : State) (h : Vector Word Config.htCap) : (s.setHist h).htg.hist = h := rfl
@[simp] theorem State.setHist_table (s : State) (h : Vector Word Config.htCap) (u : Slot) :
    (s.setHist h).table u = s.table u := by cases u <;> rfl
@[simp] theorem State.setHost_host (s : State) (h : List HostAccess) : (s.setHost h).env.host = h := rfl
@[simp] theorem State.setHost_sink (s : State) (h : List HostAccess) : (s.setHost h).env.sink = s.env.sink := rfl
@[simp] theorem State.setHost_out (s : State) (h : List HostAccess) : (s.setHost h).env.out = s.env.out := rfl
@[simp] theorem State.setSink_sink (s : State) (q : List SinkAnswer) : (s.setSink q).env.sink = q := rfl
@[simp] theorem State.setSink_out (s : State) (q : List SinkAnswer) : (s.setSink q).env.out = s.env.out := rfl
@[simp] theorem withDraws_zero (s : State) : withDraws 0 s = s := rfl
@[simp] theorem setHold_hold (h : Bool) (s : State) : (setHold h s).dbd.hold = h := rfl
@[simp] theorem setHold_dstate (h : Bool) (s : State) : (setHold h s).dbd.dstate = s.dbd.dstate := rfl

/-! ## The slots -/

@[simp] theorem Htg.setTable_hist (h : Htg) (t : Slot) (es : Table) : (h.setTable t es).hist = h.hist := by cases t <;> rfl
@[simp] theorem Htg.table_ll (h : Htg) : h.table .ll = h.ll := rfl
@[simp] theorem Htg.table_dist (h : Htg) : h.table .dist = h.dist := rfl
@[simp] theorem Htg.table_cl (h : Htg) : h.table .cl = h.cl := rfl
@[simp] theorem Htg.setTable_same (h : Htg) (t : Slot) (es : Table) : (h.setTable t es).table t = es := by cases t <;> rfl

@[simp] theorem Htg.setTable_other (h : Htg) {t u : Slot} (es : Table) (hu : u ≠ t) :
    (h.setTable t es).table u = h.table u := by
  cases t <;> cases u <;> first | rfl | exact absurd rfl hu

@[simp] theorem State.table_setTable_same (s : State) (t : Slot) (es : Table) : (s.setTable t es).table t = es :=
  Htg.setTable_same s.htg t es

@[simp] theorem State.table_setTable_other (s : State) {t u : Slot} (es : Table) (hu : u ≠ t) :
    (s.setTable t es).table u = s.table u :=
  Htg.setTable_other s.htg es hu

@[simp] theorem finishBits_table (b : BitVec 8) (v : Word) (s : State) (u : Slot) : (finishBits b v s).table u = s.table u := rfl
@[simp] theorem finish_table (c : Code) (v : Word) (s : State) (u : Slot) : (finish c v s).table u = s.table u := rfl
@[simp] theorem raise_table (c : Code) (s : State) (u : Slot) : (raise c s).table u = s.table u := rfl
@[simp] theorem State.setDbd_table (s : State) (d : Dbd) (u : Slot) : (s.setDbd d).table u = s.table u := rfl
@[simp] theorem State.setLzm_table (s : State) (l : Lzm) (u : Slot) : (s.setLzm l).table u = s.table u := rfl
@[simp] theorem State.setHost_table (s : State) (h : List HostAccess) (u : Slot) : (s.setHost h).table u = s.table u := rfl
@[simp] theorem State.setSink_table (s : State) (q : List SinkAnswer) (u : Slot) : (s.setSink q).table u = s.table u := rfl
@[simp] theorem withDraws_table (n : Nat) (s : State) (u : Slot) : (withDraws n s).table u = s.table u := rfl
@[simp] theorem setHold_table (h : Bool) (s : State) (u : Slot) : (setHold h s).table u = s.table u := rfl
@[simp] theorem fail_table (c : Code) (s : State) (u : Slot) : (fail c s).table u = s.table u := rfl
@[simp] theorem dropBit_table (s : State) (u : Slot) : (dropBit s).table u = s.table u := rfl

/-! ## Sessions -/

@[simp] theorem sessionOpen_finish (c : Code) (v : Word) (s : State) : sessionOpen (finish c v s) = sessionOpen s := rfl
@[simp] theorem sessionOpen_setTable (s : State) (t : Slot) (es : Table) : sessionOpen (s.setTable t es) = sessionOpen s := rfl
@[simp] theorem sessionOpen_setLzm (s : State) (l : Lzm) : sessionOpen (s.setLzm l) = sessionOpen s := rfl

/-! ## The decoder registers -/

@[simp] theorem Dbd.failed_dstate (c : Code) (d : Dbd) : (d.failed c).dstate = .error := rfl
@[simp] theorem Dbd.failed_err (c : Code) (d : Dbd) : (d.failed c).err = c.bits := rfl
@[simp] theorem Dbd.failed_bitcnt (c : Code) (d : Dbd) : (d.failed c).bitcnt = 0 := rfl
@[simp] theorem Dbd.failed_outv (c : Code) (d : Dbd) : (d.failed c).outv = false := rfl
@[simp] theorem Dbd.failed_hold (c : Code) (d : Dbd) : (d.failed c).hold = false := rfl

/-! ## Frames -/

/-- A command that only reports keeps everything else, whatever it reports. -/
theorem finish_onlyReports (c : Code) (v : Word) (s : State) : OnlyReports c.word v s (finish c v s) :=
  ⟨rfl, rfl, rfl, rfl, rfl, rfl, rfl, rfl⟩

theorem finishBits_onlyReports (b : BitVec 8) (v : Word) (s : State) :
    OnlyReports (statusWord b) v s (finishBits b v s) :=
  ⟨rfl, rfl, rfl, rfl, rfl, rfl, rfl, rfl⟩

theorem raise_onlyReports (c : Code) (s : State) : OnlyReports c.word 0 s (raise c s) := finish_onlyReports c 0 s

theorem setTable_onlySlot (c : Code) (v : Word) (s : State) (t : Slot) (es : Table) :
    OnlySlot t s (finish c v (s.setTable t es)) :=
  ⟨fun _ hu => State.table_setTable_other s es hu, Htg.setTable_hist s.htg t es, rfl, rfl, rfl, rfl, rfl⟩

theorem setHist_onlyHist (c : Code) (v : Word) (s : State) (h : Vector Word Config.htCap) :
    OnlyHist s (finish c v (s.setHist h)) :=
  ⟨State.setHist_table s h, rfl, rfl, rfl, rfl, rfl⟩

theorem setLzm_onlyLzm (c : Code) (v : Word) (s : State) (l : Lzm) : OnlyLzm s (finish c v (s.setLzm l)) :=
  ⟨rfl, rfl, rfl, rfl, rfl⟩

/-- STATUS takes the code's number, and no other value than the fifteen of R93. -/
theorem Code.word_mem_statusCodes (c : Code) : c.word ∈ statusCodes := by cases c <;> decide

/-- Only Ok is 0. -/
theorem Code.word_eq_zero (c : Code) : c.word = 0 ↔ c = .ok := by cases c <;> decide

end Sys2Proof.Machine
end

