-- ==== Sys2Proof/Laws/Decode.lean ====
section
/-! SUPPORT. The laws of the command word: its fields after packing, the row of each opcode, and the first rejected check. -/

namespace Sys2Proof

/-! ## Fields -/

@[simp] theorem opcOf_packCmd (o : BitVec 8) (t : BitVec 2) (i : BitVec 16) : opcOf (packCmd o t i) = o := by
  apply BitVec.eq_of_getLsbD_eq
  intro j hj
  simp only [opcOf, packCmd, BitVec.getLsbD_extractLsb', BitVec.getLsbD_append, hj, decide_true, Bool.true_and, Nat.zero_add]
  simp

@[simp] theorem tselOf_packCmd (o : BitVec 8) (t : BitVec 2) (i : BitVec 16) : tselOf (packCmd o t i) = t := by
  apply BitVec.eq_of_getLsbD_eq
  intro j hj
  have h1 : ¬(8 + j < 8) := by omega
  simp only [tselOf, packCmd, BitVec.getLsbD_extractLsb', BitVec.getLsbD_append, hj, decide_true, Bool.true_and, h1,
    Nat.add_sub_cancel_left]
  simp

@[simp] theorem idxOf_packCmd (o : BitVec 8) (t : BitVec 2) (i : BitVec 16) : idxOf (packCmd o t i) = i := by
  apply BitVec.eq_of_getLsbD_eq
  intro j hj
  have h1 : ¬(10 + j < 8) := by omega
  have h2 : ¬(10 + j - 8 < 2) := by omega
  have h3 : 10 + j - 8 - 2 = j := by omega
  simp only [idxOf, packCmd, BitVec.getLsbD_extractLsb', BitVec.getLsbD_append, hj, h1, h2, h3, decide_true, Bool.true_and]
  simp [hj]

@[simp] theorem rsvOf_packCmd (o : BitVec 8) (t : BitVec 2) (i : BitVec 16) : rsvOf (packCmd o t i) = 0 := by
  apply BitVec.eq_of_getLsbD_eq
  intro j hj
  have h1 : ¬(26 + j < 8) := by omega
  have h2 : ¬(26 + j - 8 < 2) := by omega
  have h3 : ¬(26 + j - 8 - 2 < 16) := by omega
  simp only [rsvOf, packCmd, BitVec.getLsbD_extractLsb', BitVec.getLsbD_append, hj, h1, h2, h3, decide_true, Bool.true_and]
  simp

/-- A word whose RSV is 0 is packed from its fields. -/
theorem packCmd_fields {cmd : Word} (h : rsvOf cmd = 0) : packCmd (opcOf cmd) (tselOf cmd) (idxOf cmd) = cmd := by
  apply BitVec.eq_of_getLsbD_eq
  intro j hj
  have hr : ∀ k, (rsvOf cmd).getLsbD k = false := by rw [h]; simp
  simp only [packCmd, opcOf, tselOf, idxOf, BitVec.getLsbD_extractLsb', BitVec.getLsbD_append]
  by_cases h1 : j < 8
  · simp [h1]
  · by_cases h2 : j - 8 < 2
    · simp [h1, h2, show 8 + (j - 8) = j by omega]
    · by_cases h3 : j - 8 - 2 < 16
      · simp [h1, h2, h3, show 10 + (j - 8 - 2) = j by omega]
      · have := hr (j - 26)
        simp only [rsvOf, BitVec.getLsbD_extractLsb', show 26 + (j - 26) = j by omega, show j - 26 < 6 by omega, decide_true,
          Bool.true_and] at this
        simp [h1, h2, h3, this]

@[simp] theorem wordOf_encodeWord_cmd (i : Instr) : (encodeWord i).extractLsb' 0 32 = encodeCmd i := by
  apply BitVec.eq_of_getLsbD_eq
  intro j hj
  simp only [encodeWord, BitVec.getLsbD_extractLsb', BitVec.getLsbD_append, hj, decide_true, Bool.true_and]
  simp [hj]

@[simp] theorem wordOf_encodeWord_data (i : Instr) : (encodeWord i).extractLsb' 32 32 = i.dataField := by
  apply BitVec.eq_of_getLsbD_eq
  intro j hj
  simp only [encodeWord, BitVec.getLsbD_extractLsb', BitVec.getLsbD_append, hj, decide_true, Bool.true_and]
  simp [hj]

/-! ## Slots and indexes -/

@[simp] theorem slotOf_tsel (t : Slot) : slotOf t.tsel = some t := by cases t <;> rfl

theorem slotOf_some {x : BitVec 2} {t : Slot} (h : slotOf x = some t) : t.tsel = x := by
  revert h; revert x; cases t <;> decide

theorem slotOf_none (x : BitVec 2) : slotOf x = none ↔ x = 3 := by revert x; decide

/-- IDX carries every index below 65536. -/
theorem idx_roundtrip {i : Nat} (h : idxFits i = true) : (BitVec.ofNat 16 i).toNat = i := by
  have h' : i < 65536 := by simpa [idxFits] using h
  simp; omega

/-! ## Rows -/

/-- No two rows of the opcode map share an opcode. -/
theorem opcodeRows_pairwise : opcodeRows.Pairwise (fun a b => a.opc ≠ b.opc) := by decide

theorem rowOf_some {o : BitVec 8} {r : Row} (h : rowOf o = some r) : r ∈ opcodeRows ∧ r.opc = o := by
  refine ⟨List.mem_of_find?_eq_some h, ?_⟩
  simpa using List.find?_some h

/-- Every row is the one its opcode finds. -/
theorem rowOf_of_mem : ∀ r ∈ opcodeRows, rowOf r.opc = some r := by
  intro r hr
  simp only [opcodeRows, htgRows, lzmRows, dbdRows, List.cons_append, List.nil_append, List.mem_cons, List.not_mem_nil,
    or_false] at hr
  rcases hr with rfl | rfl | rfl | rfl | rfl | rfl | rfl | rfl | rfl | rfl | rfl | rfl | rfl | rfl | rfl | rfl | rfl | rfl
    | rfl | rfl | rfl | rfl | rfl <;> rfl

/-- A word that passes every check of R96 and names its slot decodes to its row's command. -/
theorem decode_of_row {cmd data : Word} {r : Row} (hr : r ∈ opcodeRows) (h0 : rsvOf cmd = 0) (ho : opcOf cmd = r.opc)
    (hu : r.format.unusedNonzero cmd data = false) {t : Slot} (ht : r.format.usesTsel = true → slotOf (tselOf cmd) = some t) :
    decode cmd data = .ok (r.build (if r.format.usesTsel then t else .ll) (idxOf cmd) data) := by
  have hrow : rowOf (opcOf cmd) = some r := ho ▸ rowOf_of_mem r hr
  unfold decode
  by_cases hf : r.format.usesTsel = true
  · simp [h0, hrow, hu, hf, ht hf]
  · simp [h0, hrow, hu, hf]

/-- What a word that decodes satisfies. -/
theorem decode_ok {cmd data : Word} {i : Instr} (h : decode cmd data = .ok i) :
    rsvOf cmd = 0 ∧ ∃ r ∈ opcodeRows, r.opc = opcOf cmd ∧ r.format.unusedNonzero cmd data = false ∧
      ∃ t, (r.format.usesTsel = true → slotOf (tselOf cmd) = some t) ∧ i = r.build t (idxOf cmd) data := by
  unfold decode at h
  split at h
  · cases h
  · rename_i h0
    refine ⟨not_not.1 h0, ?_⟩
    cases hr : rowOf (opcOf cmd) with
    | none => rw [hr] at h; cases h
    | some r =>
      rw [hr] at h
      obtain ⟨hm, ho⟩ := rowOf_some hr
      refine ⟨r, hm, ho, ?_⟩
      by_cases hu : r.format.unusedNonzero cmd data = true
      · simp [hu] at h
      · refine ⟨by simpa using hu, ?_⟩
        by_cases hf : r.format.usesTsel = true
        · cases ht : slotOf (tselOf cmd) with
          | none => simp [hu, hf, ht] at h
          | some t => exact ⟨t, fun _ => rfl, by simpa [hu, hf, ht] using h.symm⟩
        · exact ⟨.ll, fun h => absurd h hf, by simpa [hu, hf] using h.symm⟩

end Sys2Proof
end

