-- ==== Sys2Proof/Laws/Huffman.lean ====
section
/-! SUPPORT. The laws of the table slots: what each update leaves at each index, the form the slots keep, and what Canonical,
Lengths and Lookup can answer. -/

namespace Sys2Proof.Machine

/-! ## Fresh entries -/

@[simp] theorem freshTable_length (n : Nat) : (freshTable n).length = n := by simp [freshTable]

theorem freshTable_getElem? (n i : Nat) : (freshTable n)[i]? = if i < n then some (freshEntry i) else none := by
  unfold freshTable
  split
  · rename_i h; simp [h]
  · rename_i h; simp; omega

theorem freshTable_wf {n : Nat} (h : n ≤ Config.htCap) : Table.wf (freshTable n) := by
  refine ⟨by simpa using h, fun i e he => ?_⟩
  rw [freshTable_getElem?] at he
  split at he
  · cases he; rfl
  · cases he

theorem freshTable_lens (n k : Nat) : lensAtMost k (freshTable n) := by
  intro e he
  simp only [freshTable, List.mem_map] at he
  obtain ⟨i, -, rfl⟩ := he
  exact Nat.zero_le k

/-! ## One length -/

@[simp] theorem setLen_length (t : Table) (i v : Nat) : (setLen t i v).length = t.length := by simp [setLen]

theorem setLen_getElem? (t : Table) (i v j : Nat) :
    (setLen t i v)[j]? = if j = i then t[j]?.map (fun e => { e with len := BitVec.ofNat 5 v }) else t[j]? := by
  unfold setLen
  rw [List.getElem?_modify]
  by_cases h : i = j
  · simp [h]
  · have h' : j ≠ i := fun e => h e.symm
    simp [h, h']

theorem setLen_pats (t : Table) (i v : Nat) : (setLen t i v).map (fun e => e.pat) = t.map (fun e => e.pat) := by
  apply List.ext_getElem?
  intro j
  rw [List.getElem?_map, List.getElem?_map, setLen_getElem?]
  split
  · rw [Option.map_map]; rfl
  · rfl

theorem setLen_wf {t : Table} (i v : Nat) (h : Table.wf t) : Table.wf (setLen t i v) := by
  refine ⟨by simpa using h.1, fun j e he => ?_⟩
  rw [setLen_getElem?] at he
  split at he
  · obtain ⟨e', he', rfl⟩ := Option.map_eq_some_iff.1 he
    exact h.2 j e' he'
  · exact h.2 j e he

theorem setLen_lens {t : Table} {n : Nat} (i : Nat) {v : Nat} (h : lensAtMost n t) (hv : v ≤ n) :
    lensAtMost n (setLen t i v) := by
  intro e he
  obtain ⟨j, hj⟩ := List.mem_iff_getElem?.1 he
  rw [setLen_getElem?] at hj
  split at hj
  · obtain ⟨e', -, rfl⟩ := Option.map_eq_some_iff.1 hj
    exact (Nat.mod_le _ _).trans hv
  · exact h e (List.mem_iff_getElem?.2 ⟨j, hj⟩)

/-- The length at `j` after one length is written at `i`. -/
theorem lengthsOf_setLen (t : Table) {i v : Nat} (hv : v < 32) (j : Nat) :
    (lengthsOf (setLen t i v)).getD j 0 = if j = i ∧ j < t.length then v else (lengthsOf t).getD j 0 := by
  simp only [lengthsOf, List.getD_eq_getElem?_getD, List.getElem?_map, setLen_getElem?]
  by_cases h : j = i
  · by_cases h2 : j < t.length
    · simp [h, h ▸ h2, Nat.mod_eq_of_lt hv]
    · simp [h2]
  · simp [h]

/-! ## Lengths and patterns from index 0 up -/

@[simp] theorem setLens_length (t : Table) (ls : List Nat) : (setLens t ls).length = t.length := by
  induction t generalizing ls with
  | nil => rfl
  | cons e t ih => cases ls <;> simp [setLens, ih]

theorem setLens_getElem? (t : Table) (ls : List Nat) (j : Nat) :
    (setLens t ls)[j]? = t[j]?.map (fun e => match ls[j]? with
      | some l => { e with len := BitVec.ofNat 5 l }
      | none => e) := by
  induction t generalizing ls j with
  | nil => rfl
  | cons e t ih =>
    cases ls with
    | nil => cases j <;> simp [setLens]
    | cons l ls => cases j <;> simp [setLens, ih]

theorem setLens_pats (t : Table) (ls : List Nat) : (setLens t ls).map (fun e => e.pat) = t.map (fun e => e.pat) := by
  induction t generalizing ls with
  | nil => rfl
  | cons e t ih => cases ls <;> simp [setLens, ih]

theorem setLens_wf {t : Table} (ls : List Nat) (h : Table.wf t) : Table.wf (setLens t ls) := by
  refine ⟨by simpa using h.1, fun j e he => ?_⟩
  rw [setLens_getElem?] at he
  obtain ⟨e', he', rfl⟩ := Option.map_eq_some_iff.1 he
  split <;> exact h.2 j e' he'

@[simp] theorem setPats_length (t : Table) (ps : List (BitVec 16)) : (setPats t ps).length = t.length := by
  induction t generalizing ps with
  | nil => rfl
  | cons e t ih => cases ps <;> simp [setPats, ih]

theorem setPats_getElem? (t : Table) (ps : List (BitVec 16)) (j : Nat) :
    (setPats t ps)[j]? = t[j]?.map (fun e => match ps[j]? with
      | some p => { e with pat := p }
      | none => e) := by
  induction t generalizing ps j with
  | nil => rfl
  | cons e t ih =>
    cases ps with
    | nil => cases j <;> simp [setPats]
    | cons p ps => cases j <;> simp [setPats, ih]

theorem setPats_wf {t : Table} (ps : List (BitVec 16)) (h : Table.wf t) : Table.wf (setPats t ps) := by
  refine ⟨by simpa using h.1, fun j e he => ?_⟩
  rw [setPats_getElem?] at he
  obtain ⟨e', he', rfl⟩ := Option.map_eq_some_iff.1 he
  split <;> exact h.2 j e' he'

/-! ## HT.RESIZE -/

@[simp] theorem resized_length (t : Table) (n : Nat) : (resized t n).length = n := by
  simp only [resized, List.length_append, List.length_take, List.length_map, List.length_range']
  omega

theorem resized_getElem? (t : Table) (n j : Nat) :
    (resized t n)[j]? = if j < n then (if j < t.length then t[j]? else some (freshEntry j)) else none := by
  unfold resized
  by_cases hn : j < n
  · rw [if_pos hn]
    by_cases ht : j < t.length
    · rw [if_pos ht, List.getElem?_append_left (by simp; omega), List.getElem?_take_of_lt hn]
    · rw [if_neg ht, List.getElem?_append_right (by simp; omega)]
      simp only [List.getElem?_map, List.length_take]
      rw [List.getElem?_range' (by omega)]
      simp only [Option.map_some, Option.some.injEq]
      congr 1; omega
  · rw [if_neg hn]
    apply List.getElem?_eq_none
    rw [← resized, resized_length]; omega

theorem resized_wf {t : Table} {n : Nat} (hn : n ≤ Config.htCap) (h : Table.wf t) : Table.wf (resized t n) := by
  refine ⟨by simpa using hn, fun j e he => ?_⟩
  rw [resized_getElem?] at he
  split at he
  · split at he
    · exact h.2 j e he
    · cases he; rfl
  · cases he

/-! ## The fixed tables -/

theorem fixedLl_wf : Table.wf fixedLl := by
  refine ⟨by simp [fixedLl], fun i e he => ?_⟩
  simp only [fixedLl, List.getElem?_map] at he
  obtain ⟨j, hj, rfl⟩ := Option.map_eq_some_iff.1 he
  obtain ⟨h1, h2⟩ := List.getElem?_eq_some_iff.1 hj
  simp at h2
  rw [← h2]

theorem fixedDist_wf : Table.wf fixedDist := by
  refine ⟨by decide, fun i e he => ?_⟩
  simp only [fixedDist, List.getElem?_map] at he
  obtain ⟨j, hj, rfl⟩ := Option.map_eq_some_iff.1 he
  obtain ⟨h1, h2⟩ := List.getElem?_eq_some_iff.1 hj
  simp at h2
  rw [← h2]

/-! ## The three slots together -/

theorem Htg.wf_table {h : Htg} (hw : h.wf) (t : Slot) : Table.wf (h.table t) := by
  cases t
  · exact hw.1
  · exact hw.2.1
  · exact hw.2.2

theorem Htg.wf_setTable {h : Htg} (hw : h.wf) (t : Slot) {es : Table} (he : Table.wf es) : (h.setTable t es).wf := by
  cases t
  · exact ⟨he, hw.2.1, hw.2.2⟩
  · exact ⟨hw.1, he, hw.2.2⟩
  · exact ⟨hw.1, hw.2.1, he⟩

/-! ## Lookup -/

/-- A symbol Lookup answers is some entry's, with the length and the pattern asked for. -/
theorem lookup_some {t : Table} {n bits : Nat} {sym : BitVec 9} (h : lookup t n bits = some sym) :
    ∃ (i : Nat) (e : Entry), t[i]? = some e ∧ e.len.toNat = n ∧ e.pat.toNat = bits ∧ e.sym = sym := by
  obtain ⟨e, he, rfl⟩ := Option.map_eq_some_iff.1 h
  obtain ⟨i, hi⟩ := List.mem_iff_getElem?.1 (List.mem_of_find?_eq_some he)
  have hp := List.find?_some he
  simp only [Bool.and_eq_true, beq_iff_eq] at hp
  exact ⟨i, e, hi, hp.1, hp.2, rfl⟩

/-- In a well-formed slot the symbol is the entry's index, so it is below the slot's size. -/
theorem lookup_lt {t : Table} {n bits : Nat} {sym : BitVec 9} (hw : Table.wf t) (h : lookup t n bits = some sym) :
    sym.toNat < t.length := by
  obtain ⟨i, e, hi, -, -, rfl⟩ := lookup_some h
  have hlt : i < t.length := (List.getElem?_eq_some_iff.1 hi).1
  have hc : t.length ≤ 288 := hw.1
  rw [hw.2 i e hi]
  show i % 2 ^ 9 < _
  rw [Nat.mod_eq_of_lt (by omega)]
  exact hlt

theorem lookup_eq_none {t : Table} {n bits : Nat} :
    lookup t n bits = none ↔ ∀ e ∈ t, ¬(e.len.toNat = n ∧ e.pat.toNat = bits) := by
  simp [lookup, List.find?_eq_none]

/-! ## Canonical and Lengths -/

/-- Canonical fails with one of two codes. -/
theorem canonical_error {lens : List Nat} {c : Code} (h : canonical lens = .error c) :
    c = .codeExcess ∨ c = .badCodeLength := by
  unfold canonical at h
  split at h
  · cases h; exact .inl rfl
  · split at h
    · cases h; exact .inr rfl
    · cases h

/-- The pattern list has one pattern an entry. -/
theorem assignCodes_length (next lens : List Nat) : (assignCodes next lens).length = lens.length := by
  induction lens generalizing next with
  | nil => rfl
  | cons l ls ih => unfold assignCodes; split <;> simp [ih]

theorem canonical_ok {lens : List Nat} {ps : List (BitVec 16)} (h : canonical lens = .ok ps) :
    overSubscribed lens = false ∧ hasLongLength lens = false ∧ ps = assignCodes (firstCodes lens) lens := by
  unfold canonical at h
  split at h
  · cases h
  · split at h
    · cases h
    · rename_i h1 h2
      cases h
      exact ⟨by simpa using h1, by simpa using h2, rfl⟩

/-- What Lengths can answer, under either policy: all zero, ones for the used symbols, BadParam, or the long case. -/
theorem lengthsUnder_cases (policy : LengthPolicy) (k : Nat) (fs : List Nat) (m : Nat) :
    (usedSymbols fs = 0 ∧ lengthsUnder policy k fs m = .ok (fs.map fun _ => 0))
    ∨ ((usedSymbols fs = 1 ∨ usedSymbols fs = 2) ∧
        lengthsUnder policy k fs m = .ok (fs.map fun f => if f = 0 then 0 else 1))
    ∨ (2 < usedSymbols fs ∧ 2 ^ m < usedSymbols fs ∧ lengthsUnder policy k fs m = .error .badParam)
    ∨ (2 < usedSymbols fs ∧ usedSymbols fs ≤ 2 ^ m ∧ lengthsUnder policy k fs m = .ok (longLengths policy k fs m)) := by
  unfold lengthsUnder
  by_cases h0 : usedSymbols fs = 0
  · exact .inl ⟨h0, if_pos h0⟩
  · by_cases h2 : usedSymbols fs ≤ 2
    · exact .inr (.inl ⟨by omega, by rw [if_neg h0, if_pos h2]⟩)
    · by_cases hm : 2 ^ m < usedSymbols fs
      · exact .inr (.inr (.inl ⟨by omega, hm, by rw [if_neg h0, if_neg h2, if_pos hm]⟩))
      · exact .inr (.inr (.inr ⟨by omega, by omega, by rw [if_neg h0, if_neg h2, if_neg hm]⟩))

@[simp] theorem lengthDraws_reference (fs : List Nat) (m : Nat) : lengthDraws .reference fs m = 0 := rfl

/-! ## The histogram -/

theorem Htg.histAt_eq (h : Htg) {i : Nat} (hi : i < Config.htCap) : h.hist[i]? = some (h.histAt i) := by
  unfold Htg.histAt
  rw [Vector.getElem?_eq_getElem hi]; rfl

theorem hist_set_getElem? (v : Vector Word Config.htCap) {i : Nat} (hi : i < Config.htCap) (x : Word) (j : Nat) :
    (v.setIfInBounds i x)[j]? = if j = i then some x else v[j]? := by
  rw [Vector.getElem?_setIfInBounds]
  by_cases h : i = j
  · subst h; simp [hi]
  · rw [if_neg h, if_neg (fun e => h e.symm)]

end Sys2Proof.Machine
end

