-- ==== Sys2Proof/Laws/Memory.lean ====
section
/-! SUPPORT. The laws of the sparse memories: a read after a write, and the canonical form every operation keeps. -/

namespace Sys2Proof.Machine

variable {α : Type}

@[simp] theorem Memory.read_nil (dflt : α) (k : Nat) : Memory.read dflt [] k = dflt := rfl

theorem Memory.read_cons (dflt : α) (c : Nat × α) (m : List (Nat × α)) (k : Nat) :
    Memory.read dflt (c :: m) k = if k = c.1 then c.2 else Memory.read dflt m k := rfl

/-! ## Reading after writing, for every list -/

theorem Memory.read_insert_same (dflt : α) (m : List (Nat × α)) (k : Nat) (v : α) :
    Memory.read dflt (Memory.insert m k v) k = v := by
  induction m with
  | nil => simp [Memory.insert, Memory.read]
  | cons c m ih =>
    obtain ⟨a, w⟩ := c
    by_cases h1 : k < a
    · simp [Memory.insert, h1, Memory.read]
    · by_cases h2 : k = a <;> simp [Memory.insert, h1, h2, Memory.read, ih]

theorem Memory.read_insert_other (dflt : α) (m : List (Nat × α)) {k j : Nat} (v : α) (h : j ≠ k) :
    Memory.read dflt (Memory.insert m k v) j = Memory.read dflt m j := by
  induction m with
  | nil => simp [Memory.insert, Memory.read, h]
  | cons c m ih =>
    obtain ⟨a, w⟩ := c
    by_cases h1 : k < a
    · simp [Memory.insert, h1, Memory.read, h]
    · by_cases h2 : k = a
      · subst h2; simp [Memory.insert, Memory.read, h]
      · simp [Memory.insert, h1, h2, Memory.read, ih]

theorem Memory.read_erase_same (dflt : α) (m : List (Nat × α)) (k : Nat) :
    Memory.read dflt (Memory.erase m k) k = dflt := by
  induction m with
  | nil => rfl
  | cons c m ih =>
    by_cases h : c.1 = k
    · simpa [Memory.erase, h] using ih
    · have hk : k ≠ c.1 := fun e => h e.symm
      simpa [Memory.erase, h, Memory.read_cons, hk] using ih

theorem Memory.read_erase_other (dflt : α) (m : List (Nat × α)) {k j : Nat} (h : j ≠ k) :
    Memory.read dflt (Memory.erase m k) j = Memory.read dflt m j := by
  induction m with
  | nil => rfl
  | cons c m ih =>
    by_cases hc : c.1 = k
    · have hj : j ≠ c.1 := fun e => h (e.trans hc)
      simpa [Memory.erase, hc, Memory.read_cons, hj, h] using ih
    · simp only [Memory.erase, List.filter_cons, hc, bne_iff_ne, ne_eq, not_false_eq_true, if_true, Memory.read_cons]
      rw [← ih]; rfl

theorem Memory.read_write_same [DecidableEq α] (dflt : α) (m : List (Nat × α)) (k : Nat) (v : α) :
    Memory.read dflt (Memory.write dflt m k v) k = v := by
  unfold Memory.write
  split
  · rename_i h; rw [h]; exact Memory.read_erase_same dflt m k
  · exact Memory.read_insert_same dflt m k v

theorem Memory.read_write_other [DecidableEq α] (dflt : α) (m : List (Nat × α)) {k j : Nat} (v : α) (h : j ≠ k) :
    Memory.read dflt (Memory.write dflt m k v) j = Memory.read dflt m j := by
  unfold Memory.write
  split
  · exact Memory.read_erase_other dflt m h
  · exact Memory.read_insert_other dflt m v h

/-! ## The canonical form -/

/-- Memory with nothing listed has the canonical form: RING and INS at reset. -/
theorem Memory.wf_nil (dflt : α) (cap : Nat) : Memory.wf dflt cap [] :=
  ⟨List.Pairwise.nil, fun _ h => nomatch h⟩

theorem Memory.mem_insert {m : List (Nat × α)} {k : Nat} {v : α} {c : Nat × α} (h : c ∈ Memory.insert m k v) :
    c = (k, v) ∨ c ∈ m := by
  induction m with
  | nil => simpa [Memory.insert] using h
  | cons d m ih =>
    obtain ⟨a, w⟩ := d
    by_cases h1 : k < a
    · simpa [Memory.insert, h1] using h
    · by_cases h2 : k = a
      · subst h2
        rcases (by simpa [Memory.insert] using h : c = (k, v) ∨ c ∈ m) with h | h
        · exact .inl h
        · exact .inr (List.mem_cons_of_mem _ h)
      · rcases (by simpa [Memory.insert, h1, h2] using h : c = (a, w) ∨ c ∈ Memory.insert m k v) with h | h
        · exact .inr (h ▸ List.mem_cons_self)
        · exact (ih h).imp id (List.mem_cons_of_mem _)

theorem Memory.pairwise_insert {m : List (Nat × α)} (k : Nat) (v : α) (h : m.Pairwise (fun x y => x.1 < y.1)) :
    (Memory.insert m k v).Pairwise (fun x y => x.1 < y.1) := by
  induction m with
  | nil => simp [Memory.insert]
  | cons d m ih =>
    obtain ⟨a, w⟩ := d
    obtain ⟨ha, hm⟩ := List.pairwise_cons.1 h
    by_cases h1 : k < a
    · rw [Memory.insert, if_pos h1]
      refine List.pairwise_cons.2 ⟨fun c hc => ?_, h⟩
      rcases List.mem_cons.1 hc with rfl | hc
      · exact h1
      · exact lt_trans h1 (ha c hc)
    · by_cases h2 : k = a
      · subst h2
        rw [Memory.insert, if_neg h1, if_pos rfl]
        exact List.pairwise_cons.2 ⟨ha, hm⟩
      · rw [Memory.insert, if_neg h1, if_neg h2]
        refine List.pairwise_cons.2 ⟨fun c hc => ?_, ih hm⟩
        rcases Memory.mem_insert hc with rfl | hc
        · show a < k; omega
        · exact ha c hc

/-- Every write below the capacity keeps the canonical form. -/
theorem Memory.wf_write [DecidableEq α] {dflt : α} {cap : Nat} {m : List (Nat × α)} {k : Nat} (v : α)
    (h : Memory.wf dflt cap m) (hk : k < cap) : Memory.wf dflt cap (Memory.write dflt m k v) := by
  unfold Memory.write
  split
  · exact ⟨h.1.filter _, fun c hc => h.2 c (List.mem_of_mem_filter hc)⟩
  · rename_i hv
    refine ⟨Memory.pairwise_insert k v h.1, fun c hc => ?_⟩
    rcases Memory.mem_insert hc with rfl | hc
    · exact ⟨hk, hv⟩
    · exact h.2 c hc

/-- In canonical form every address at or above the capacity reads as the default value. -/
theorem Memory.read_eq_default {dflt : α} {cap : Nat} {m : List (Nat × α)} (h : Memory.wf dflt cap m) {k : Nat}
    (hk : cap ≤ k) : Memory.read dflt m k = dflt := by
  induction m with
  | nil => rfl
  | cons c m ih =>
    have hc := (h.2 c List.mem_cons_self).1
    have hne : k ≠ c.1 := by omega
    rw [Memory.read_cons, if_neg hne]
    exact ih ⟨(List.pairwise_cons.1 h.1).2, fun d hd => h.2 d (List.mem_cons_of_mem _ hd)⟩

end Sys2Proof.Machine
end

