-- ==== Sys2Proof/Laws/Ring.lean ====
section
/-! SUPPORT. The laws of the history ring: its window, its slots, what Record leaves at each slot, and the form it keeps. -/

namespace Sys2Proof.Machine

/-! ## The window -/

theorem Lzm.window_cases (l : Lzm) :
    l.window = 256 ∨ l.window = 512 ∨ l.window = 1024 ∨ l.window = 2048 ∨ l.window = 4096 ∨ l.window = 8192
      ∨ l.window = 16384 ∨ l.window = 32768 := by
  have h : l.wb.toNat < 8 := l.wb.isLt
  unfold Lzm.window
  generalize l.wb.toNat = n at h
  interval_cases n <;> simp

theorem Lzm.window_ge (l : Lzm) : 256 ≤ l.window := by rcases l.window_cases with h | h | h | h | h | h | h | h <;> omega

theorem Lzm.window_le (l : Lzm) : l.window ≤ 32768 := by rcases l.window_cases with h | h | h | h | h | h | h | h <;> omega

/-- W divides 65536, so a distance up to 65536 wraps to its slot. -/
theorem Lzm.window_dvd (l : Lzm) : ∃ k, 2 ≤ k ∧ 65536 = l.window * k := by
  rcases l.window_cases with h | h | h | h | h | h | h | h
  · exact ⟨256, by omega, by omega⟩
  · exact ⟨128, by omega, by omega⟩
  · exact ⟨64, by omega, by omega⟩
  · exact ⟨32, by omega, by omega⟩
  · exact ⟨16, by omega, by omega⟩
  · exact ⟨8, by omega, by omega⟩
  · exact ⟨4, by omega, by omega⟩
  · exact ⟨2, by omega, by omega⟩

theorem Lzm.nextPos_lt (l : Lzm) : l.nextPos < l.window := Nat.mod_lt _ (by have := l.window_ge; omega)

theorem Lzm.nextFill_le (l : Lzm) : l.nextFill ≤ l.window := Nat.min_le_right _ _

/-! ## Slots -/

/-- The slot of a distance up to W: the slots below POS, then the top of the window downward. -/
theorem slotBehind_eq {w k p d : Nat} (hk : 2 ≤ k) (hw : 65536 = w * k) (hp : p < w) (hd : d ≤ w) :
    slotBehind w p d = if d ≤ p then p - d else p + w - d := by
  have h2 : w * 2 ≤ w * k := Nat.mul_le_mul_left w hk
  unfold slotBehind
  split
  · have e : p + 65536 - d = (p - d) + w * k := by omega
    rw [e, Nat.add_mul_mod_self_left, Nat.mod_eq_of_lt (by omega)]
  · have e1 : w * k = w * (k - 1) + w := by
      obtain ⟨j, rfl⟩ : ∃ j, k = j + 1 := ⟨k - 1, by omega⟩
      simp [Nat.mul_succ]
    by_cases hdw : d = w ∧ p = 0
    · obtain ⟨rfl, rfl⟩ := hdw
      have e : 0 + 65536 - d = d * (k - 1) := by omega
      rw [e, Nat.mul_mod_right]
      omega
    · have e : p + 65536 - d = (p + w - d) + w * (k - 1) := by omega
      rw [e, Nat.add_mul_mod_self_left, Nat.mod_eq_of_lt (by omega)]

theorem Lzm.slotAt_eq (l : Lzm) (hp : l.pos.toNat < l.window) {d : Nat} (hd : d ≤ l.window) :
    l.slotAt d = if d ≤ l.pos.toNat then l.pos.toNat - d else l.pos.toNat + l.window - d := by
  obtain ⟨k, hk, hw⟩ := l.window_dvd
  exact slotBehind_eq hk hw hp hd

theorem Lzm.slotAt_lt (l : Lzm) (d : Nat) : l.slotAt d < l.window :=
  Nat.mod_lt _ (by have := l.window_ge; omega)

/-- Two distances of the window name two slots. -/
theorem Lzm.slotAt_inj (l : Lzm) (hp : l.pos.toNat < l.window) {d e : Nat} (hd1 : 1 ≤ d) (hd : d ≤ l.window) (he1 : 1 ≤ e)
    (he : e ≤ l.window) (h : l.slotAt d = l.slotAt e) : d = e := by
  rw [l.slotAt_eq hp hd, l.slotAt_eq hp he] at h
  split at h <;> split at h <;> omega

/-- Only distance W names the slot Record writes. -/
theorem Lzm.slotAt_ne_pos (l : Lzm) (hp : l.pos.toNat < l.window) {d : Nat} (hd1 : 1 ≤ d) (hd : d < l.window) :
    l.slotAt d ≠ l.pos.toNat := by
  rw [l.slotAt_eq hp hd.le]
  split <;> omega

/-! ## Record -/

@[simp] theorem Lzm.record_wb (b : Byte) (ins : Bool) (l : Lzm) : (l.record b ins).wb = l.wb := rfl
@[simp] theorem Lzm.record_window (b : Byte) (ins : Bool) (l : Lzm) : (l.record b ins).window = l.window := rfl

@[simp] theorem Lzm.record_pos (b : Byte) (ins : Bool) (l : Lzm) : (l.record b ins).pos.toNat = l.nextPos := by
  have h1 := l.nextPos_lt
  have h2 := l.window_le
  exact Nat.mod_eq_of_lt (by omega)

@[simp] theorem Lzm.record_fill (b : Byte) (ins : Bool) (l : Lzm) : (l.record b ins).fill.toNat = l.nextFill := by
  have h1 := l.nextFill_le
  have h2 := l.window_le
  exact Nat.mod_eq_of_lt (by omega)

theorem Lzm.record_ringAt_same (b : Byte) (ins : Bool) (l : Lzm) : (l.record b ins).ringAt l.pos.toNat = b :=
  Memory.read_write_same 0 l.ring l.pos.toNat b

theorem Lzm.record_ringAt_other (b : Byte) (ins : Bool) (l : Lzm) {k : Nat} (h : k ≠ l.pos.toNat) :
    (l.record b ins).ringAt k = l.ringAt k :=
  Memory.read_write_other 0 l.ring b h

/-- INS after Record: the completed triple's slot, the cleared slot, every other slot. -/
theorem Lzm.record_insAt (b : Byte) (ins : Bool) (l : Lzm) (k : Nat) :
    (l.record b ins).insAt k =
      if ins = true ∧ 3 ≤ l.nextFill ∧ k = slotBehind l.window l.nextPos 3 then true
      else if k = l.pos.toNat then false else l.insAt k := by
  have cleared : Memory.read false (Memory.write false l.ins l.pos.toNat false) k =
      if k = l.pos.toNat then false else l.insAt k := by
    split
    · rename_i h; rw [h]; exact Memory.read_write_same false l.ins _ false
    · rename_i h; exact Memory.read_write_other false l.ins false h
  show Memory.read false (l.nextIns ins) k = _
  unfold Lzm.nextIns
  by_cases h1 : ins = true ∧ 3 ≤ l.nextFill
  · rw [if_pos h1]
    by_cases h2 : k = slotBehind l.window l.nextPos 3
    · rw [if_pos ⟨h1.1, h1.2, h2⟩, h2]; exact Memory.read_write_same false _ _ true
    · rw [if_neg (fun h => h2 h.2.2), Memory.read_write_other false _ true h2]; exact cleared
  · rw [if_neg h1, if_neg (fun h => h1 ⟨h.1, h.2.1⟩)]; exact cleared

/-- Record moves every recorded byte one distance further. -/
theorem Lzm.record_slotAt_succ (b : Byte) (ins : Bool) (l : Lzm) (hp : l.pos.toNat < l.window) {d : Nat}
    (hd : d + 1 ≤ l.window) : (l.record b ins).slotAt (d + 1) = l.slotAt d := by
  have hn : (l.record b ins).pos.toNat < (l.record b ins).window := by simpa using l.nextPos_lt
  rw [Lzm.slotAt_eq _ hn (by simpa using hd), l.slotAt_eq hp (by omega)]
  simp only [Lzm.record_pos, Lzm.record_window, Lzm.nextPos]
  by_cases h : l.pos.toNat + 1 < l.window
  · rw [Nat.mod_eq_of_lt h]; split <;> split <;> omega
  · have e : l.pos.toNat + 1 = l.window := by omega
    rw [e, Nat.mod_self]
    split <;> split <;> omega

/-- The recorded byte stands at distance 1. -/
theorem Lzm.record_slotAt_one (b : Byte) (ins : Bool) (l : Lzm) (hp : l.pos.toNat < l.window) :
    (l.record b ins).slotAt 1 = l.pos.toNat := by
  have h := l.record_slotAt_succ b ins hp (d := 0) (by have := l.window_ge; omega)
  rw [h, l.slotAt_eq hp (by omega)]
  simp

/-! ## The form the LZM keeps -/

theorem Lzm.record_wf (b : Byte) (ins : Bool) {l : Lzm} (h : l.wf) : (l.record b ins).wf := by
  obtain ⟨hp, hf, hr, hi, ho⟩ := h
  have hw := l.window_ge
  have hle := l.window_le
  refine ⟨by simpa using l.nextPos_lt, by simpa using l.nextFill_le, ?_, ?_, ?_⟩
  · exact Memory.wf_write b hr (lt_of_lt_of_le hp hle)
  · show Memory.wf false l.window (l.nextIns ins)
    have hc := Memory.wf_write (v := false) hi hp
    unfold Lzm.nextIns
    split
    · exact Memory.wf_write true hc (Nat.mod_lt _ (by omega))
    · exact hc
  · intro k hk
    rw [Lzm.record_insAt] at hk
    by_cases h3 : ins = true ∧ 3 ≤ l.nextFill ∧ k = slotBehind l.window l.nextPos 3
    · refine ⟨3, le_refl 3, by simpa using h3.2.1, ?_⟩
      rw [h3.2.2]
      show slotBehind (l.record b ins).window (l.record b ins).pos.toNat 3 = _
      simp
    · rw [if_neg h3] at hk
      by_cases hk0 : k = l.pos.toNat
      · simp [hk0] at hk
      · rw [if_neg hk0] at hk
        obtain ⟨d, hd3, hdf, hdk⟩ := ho k hk
        have hdW : d ≠ l.window := by
          rintro rfl
          apply hk0
          rw [← hdk, l.slotAt_eq hp le_rfl]
          split <;> omega
        refine ⟨d + 1, by omega, ?_, ?_⟩
        · simp only [Lzm.record_fill, Lzm.nextFill]; omega
        · rw [l.record_slotAt_succ b ins hp (by omega)]; exact hdk

theorem Lzm.configure_wf (wb : BitVec 3) {l : Lzm} (h : l.wf) : (l.configure wb).wf := by
  refine ⟨?_, ?_, h.2.2.1, Memory.wf_nil _ _, fun k hk => ?_⟩
  · have := (l.configure wb).window_ge
    show (0 : BitVec 15).toNat < _
    simp; omega
  · show (0 : BitVec 16).toNat ≤ _
    simp
  · cases hk

theorem Lzm.reset_wf : Lzm.reset.wf := by
  refine ⟨by decide, by decide, Memory.wf_nil _ _, Memory.wf_nil _ _, fun k hk => ?_⟩
  cases hk

@[simp] theorem Lzm.configure_ringAt (wb : BitVec 3) (l : Lzm) (k : Nat) : (l.configure wb).ringAt k = l.ringAt k := rfl
@[simp] theorem Lzm.configure_insAt (wb : BitVec 3) (l : Lzm) (k : Nat) : (l.configure wb).insAt k = false := rfl
@[simp] theorem Lzm.configure_wb (wb : BitVec 3) (l : Lzm) : (l.configure wb).wb = wb := rfl
@[simp] theorem Lzm.configure_pos (wb : BitVec 3) (l : Lzm) : (l.configure wb).pos = 0 := rfl
@[simp] theorem Lzm.configure_fill (wb : BitVec 3) (l : Lzm) : (l.configure wb).fill = 0 := rfl

/-! ## Lists of records -/

@[simp] theorem recordAll_nil (l : Lzm) : recordAll [] l = l := rfl

@[simp] theorem recordAll_cons (b : Byte) (bs : List Byte) (l : Lzm) :
    recordAll (b :: bs) l = recordAll bs (l.record b true) := rfl

theorem recordAll_append (bs cs : List Byte) (l : Lzm) : recordAll (bs ++ cs) l = recordAll cs (recordAll bs l) := by
  simp [recordAll]

/-! ## The match finder -/

theorem Lzm.mem_candidates (l : Lzm) (h d : Nat) : d ∈ l.candidates h ↔ max (h + 1) 3 ≤ d ∧ d ≤ l.fill.toNat := by
  simp only [Lzm.candidates, List.mem_range'_1]; omega

theorem Lzm.matchesAt_iff (l : Lzm) (t : Triple) (d : Nat) :
    l.matchesAt t d = true ↔
      l.insAt (l.slotAt d) = true ∧ l.get d = t.b0 ∧ l.get (d - 1) = t.b1 ∧ l.get (d - 2) = t.b2 := by
  simp [Lzm.matchesAt, and_assoc]

end Sys2Proof.Machine
end

