-- ==== Sys2Proof/Laws/Engine.lean ====
section
/-! SUPPORT. What one micro-step of the decoder can do and leaves alone, and the induction over Run, each said once. -/

namespace Sys2Proof.Machine

/-! ## The offer to the sink -/

@[simp] theorem put_cmd (s : State) : (put s).2.cmd = s.cmd := rfl
@[simp] theorem put_data (s : State) : (put s).2.data = s.data := rfl
@[simp] theorem put_status (s : State) : (put s).2.status = s.status := rfl
@[simp] theorem put_value (s : State) : (put s).2.value = s.value := rfl
@[simp] theorem put_htg (s : State) : (put s).2.htg = s.htg := rfl
@[simp] theorem put_lzm (s : State) : (put s).2.lzm = s.lzm := rfl
@[simp] theorem put_dbd (s : State) : (put s).2.dbd = s.dbd := rfl

/-- The offer changes the sink's list, the free-value count and the output, and nothing else of the environment; the byte
joins the output exactly when it is accepted. -/
theorem offer_cases (b : Byte) (e : Env) :
    (e.offer b).2.host = e.host ∧ (e.offer b).2.readData = e.readData ∧
      (((e.offer b).1 = .accepted ∧ (e.offer b).2.out = e.out ++ [b])
        ∨ ((e.offer b).1 = .refused ∧ (e.offer b).2.out = e.out)) := by
  unfold Env.offer
  split
  · exact ⟨rfl, rfl, .inl ⟨rfl, rfl⟩⟩
  · exact ⟨rfl, rfl, .inr ⟨rfl, rfl⟩⟩
  · split
    · exact ⟨rfl, rfl, .inl ⟨rfl, rfl⟩⟩
    · exact ⟨rfl, rfl, .inr ⟨rfl, rfl⟩⟩

theorem put_accepted {s : State} {q : List SinkAnswer} (h : s.env.sink = .accepted :: q) :
    put s = (.accepted, { s with env := { s.env with sink := q, out := s.env.out ++ [s.dbd.outb] } }) := by
  simp [put, Env.offer, h]

theorem put_refused {s : State} {q : List SinkAnswer} (h : s.env.sink = .refused :: q) :
    put s = (.refused, { s with env := { s.env with sink := q } }) := by
  simp [put, Env.offer, h]

/-- A pending byte: refused, Run stops with Overflow; accepted, it is recorded and no byte is pending. -/
theorem drainStep_cases (s : State) :
    ((put s).1 = .refused ∧ drainStep s = .stop .overflow (put s).2)
    ∨ ((put s).1 = .accepted ∧ drainStep s =
        .cont (((put s).2.setLzm (s.lzm.record s.dbd.outb true)).setDbd { s.dbd with outv := false })) := by
  unfold drainStep
  generalize hp : put s = p
  obtain ⟨a, s1⟩ := p
  have h1 : s1.lzm = s.lzm := by rw [← put_lzm s, hp]
  have h2 : s1.dbd = s.dbd := by rw [← put_dbd s, hp]
  cases a
  · exact .inr ⟨rfl, by simp [h1, h2]⟩
  · exact .inl ⟨rfl, rfl⟩

/-! ## What a micro-step answers -/

/-- `P` of the state the loop goes on with, or `Q` of the code and state it stops with. -/
def Micro.Satisfies (P : State → Prop) (Q : Code → State → Prop) : Micro → Prop
  | .cont s => P s
  | .stop c s => Q c s

@[simp] theorem Micro.satisfies_cont (P : State → Prop) (Q : Code → State → Prop) (s : State) :
    Micro.Satisfies P Q (.cont s) ↔ P s := Iff.rfl

@[simp] theorem Micro.satisfies_stop (P : State → Prop) (Q : Code → State → Prop) (c : Code) (s : State) :
    Micro.Satisfies P Q (.stop c s) ↔ Q c s := Iff.rfl

@[simp] theorem Micro.satisfies_failStep (P : State → Prop) (Q : Code → State → Prop) (c : Code) (s : State) :
    Micro.Satisfies P Q (failStep c s) ↔ Q c (fail c s) := Iff.rfl

/-! ## Run -/

@[simp] theorem run_zero (s : State) : run 0 s = (.loopedState, fail .loopedState s) := rfl

theorem run_cont {n : Nat} {s t : State} (h : microStep s = .cont t) : run (n + 1) s = run n t := by
  simp [run, h]

theorem run_stop {n : Nat} {s t : State} {c : Code} (h : microStep s = .stop c t) : run (n + 1) s = (c, t) := by
  simp [run, h]

/-- The induction over Run: `P` while the loop goes on, `Q` where it stops. -/
theorem run_induct {P : State → Prop} {Q : Code → State → Prop}
    (step : ∀ s, P s → (microStep s).Satisfies P Q) (out : ∀ s, P s → Q .loopedState (fail .loopedState s))
    (n : Nat) (s : State) (h : P s) : Q (run n s).1 (run n s).2 := by
  induction n generalizing s with
  | zero => exact out s h
  | succ n ih =>
    have hs := step s h
    cases hm : microStep s with
    | cont t => rw [run_cont hm]; rw [hm] at hs; exact ih t hs
    | stop c t => rw [run_stop hm]; rw [hm] at hs; exact hs

/-- With enough fuel to stop before the last micro-step, more fuel changes nothing. -/
theorem run_mono {n : Nat} {s : State} (h : (run n s).1 ≠ .loopedState) (k : Nat) : run (n + k) s = run n s := by
  induction n generalizing s with
  | zero => exact absurd rfl h
  | succ n ih =>
    rw [Nat.succ_add]
    cases hm : microStep s with
    | cont t => rw [run_cont hm] at h; rw [run_cont hm, run_cont hm]; exact ih h
    | stop c t => rw [run_stop hm, run_stop hm]

/-! ## What the engine leaves alone -/

/-- The registers no micro-step writes: CMD, DATA, STATUS, VALUE, HIST, WB, LEVEL, PRESET, DICT_OPEN,
and the host's side of the environment. -/
def EngineKeeps (s t : State) : Prop :=
  (t.cmd = s.cmd ∧ t.data = s.data ∧ t.status = s.status ∧ t.value = s.value) ∧
    (t.htg.hist = s.htg.hist ∧ t.lzm.wb = s.lzm.wb) ∧
    (t.dbd.level = s.dbd.level ∧ t.dbd.preset = s.dbd.preset ∧ t.dbd.dictOpen = s.dbd.dictOpen) ∧
    (t.env.host = s.env.host ∧ t.env.readData = s.env.readData)

theorem EngineKeeps.rfl {s : State} : EngineKeeps s s := by simp [EngineKeeps]

theorem EngineKeeps.trans {s t u : State} (h1 : EngineKeeps s t) (h2 : EngineKeeps t u) : EngineKeeps s u := by
  simp only [EngineKeeps] at *
  simp [h1, h2]

/-- The micro-steps with no byte pending leave the history ring and the environment whole, as well. -/
def DecodeKeeps (s t : State) : Prop := EngineKeeps s t ∧ t.lzm = s.lzm ∧ t.env = s.env

theorem DecodeKeeps.trans {s t u : State} (h1 : DecodeKeeps s t) (h2 : DecodeKeeps t u) : DecodeKeeps s u :=
  ⟨h1.1.trans h2.1, h2.2.1.trans h1.2.1, h2.2.2.trans h1.2.2⟩

theorem DecodeKeeps.rfl {s : State} : DecodeKeeps s s := ⟨EngineKeeps.rfl, Eq.refl _, Eq.refl _⟩

theorem DecodeKeeps.fail {s t : State} (c : Code) (h : DecodeKeeps s t) : DecodeKeeps s (fail c t) := h

theorem DecodeKeeps.setTable {s t : State} (u : Slot) (es : Table) (h : DecodeKeeps s t) :
    DecodeKeeps s (t.setTable u es) := by
  simp only [DecodeKeeps, EngineKeeps] at *
  simpa using h

theorem DecodeKeeps.setDbd {s t : State} {d : Dbd} (h : DecodeKeeps s t)
    (hd : d.level = t.dbd.level ∧ d.preset = t.dbd.preset ∧ d.dictOpen = t.dbd.dictOpen) : DecodeKeeps s (t.setDbd d) := by
  simp only [DecodeKeeps, EngineKeeps] at *
  simpa [hd] using h

theorem endOfBlock_keeps (d : Dbd) :
    (endOfBlock d).level = d.level ∧ (endOfBlock d).preset = d.preset ∧ (endOfBlock d).dictOpen = d.dictOpen := by
  unfold endOfBlock; split <;> exact ⟨rfl, rfl, rfl⟩

theorem fieldState_keeps (n : Nat) (bit : Bool) (s : State) : DecodeKeeps s (fieldState n bit s) := by
  unfold fieldState; split <;> exact DecodeKeeps.rfl.setDbd ⟨rfl, rfl, rfl⟩

theorem codeState_keeps (t : Slot) (m : Nat) (bit : Bool) (s : State) : DecodeKeeps s (codeState t m bit s) := by
  unfold codeState; split <;> exact DecodeKeeps.rfl.setDbd ⟨rfl, rfl, rfl⟩

theorem appendLens_keeps (v n : Nat) (s : State) : DecodeKeeps s (appendLens v n s) := by
  induction n generalizing s with
  | zero => exact DecodeKeeps.rfl
  | succ n ih =>
    refine DecodeKeeps.trans ?_ (ih _)
    refine DecodeKeeps.setDbd ?_ ⟨rfl, rfl, rfl⟩
    unfold setLenAt; split <;> exact DecodeKeeps.rfl.setTable _ _

theorem lensDone_keeps {s t : State} (h : DecodeKeeps s t) : DecodeKeeps s (lensDone t) := by
  unfold lensDone; split
  · exact h.setDbd ⟨rfl, rfl, rfl⟩
  · exact h

theorem assignSlot_keeps {t : Slot} {n : Nat} {s s1 : State} (h : assignSlot t n s = .ok s1) : DecodeKeeps s s1 := by
  unfold assignSlot at h
  split at h
  · cases h
  · cases h; exact DecodeKeeps.rfl.setTable _ _

/-- What a micro-step of `s` with no byte pending may answer, as far as its frame goes. -/
abbrev KeepsAll (s : State) : Micro → Prop := Micro.Satisfies (DecodeKeeps s) (fun _ t => DecodeKeeps s t)

theorem onBlockHeader_keeps (v : Word) {s0 s : State} (h : DecodeKeeps s0 s) : KeepsAll s0 (onBlockHeader v s) := by
  unfold onBlockHeader
  split <;> exact h.setDbd ⟨rfl, rfl, rfl⟩

theorem onRawLength_keeps (v : Word) {s0 s : State} (h : DecodeKeeps s0 s) : KeepsAll s0 (onRawLength v s) := by
  unfold onRawLength
  split
  · exact h
  · split
    · exact h.setDbd (endOfBlock_keeps _)
    · exact h.setDbd ⟨rfl, rfl, rfl⟩

theorem onRawByte_keeps (v : Word) {s0 s : State} (h : DecodeKeeps s0 s) : KeepsAll s0 (onRawByte v s) := by
  refine h.setDbd ?_
  split
  · exact endOfBlock_keeps _
  · exact ⟨rfl, rfl, rfl⟩

theorem stepSetup_keeps {s0 s : State} (h : DecodeKeeps s0 s) : KeepsAll s0 (stepSetup s) := by
  unfold stepSetup
  split
  · exact ((h.setTable _ _).setTable _ _).setDbd ⟨rfl, rfl, rfl⟩
  · unfold setupDynamic
    split
    · exact h
    · rename_i s1 h1
      have k1 := h.trans (assignSlot_keeps h1)
      split
      · exact k1
      · rename_i s2 h2
        have k2 := assignSlot_keeps h1
        have k3 := assignSlot_keeps h2
        refine (k1.trans k3).setDbd ?_
        obtain ⟨⟨-, -, ⟨a, b, c⟩, -⟩, -⟩ := k2.trans k3
        exact ⟨a.symm, b.symm, c.symm⟩

theorem onAlphabetHeader_keeps (v : Word) {s0 s : State} (h : DecodeKeeps s0 s) : KeepsAll s0 (onAlphabetHeader v s) := by
  unfold onAlphabetHeader
  dsimp only
  split
  · exact h
  · exact (h.setTable _ _).setDbd ⟨rfl, rfl, rfl⟩

theorem onAlphabetLength_keeps (v : Word) {s0 s : State} (h : DecodeKeeps s0 s) : KeepsAll s0 (onAlphabetLength v s) := by
  have h1 := (h.setTable .cl (setLen (s.table .cl) (clOrder.getD s.dbd.idx.toNat 19) v.toNat)).setDbd
    (d := { s.dbd with idx := s.dbd.idx + 1 }) ⟨rfl, rfl, rfl⟩
  unfold onAlphabetLength
  dsimp only
  split
  · unfold finishAlphabet
    split
    · exact h1
    · rename_i s2 h2
      have k2 := assignSlot_keeps h2
      refine (((h1.trans k2).setTable _ _).setTable _ _).setDbd ?_
      obtain ⟨⟨-, -, ⟨a, b, c⟩, -⟩, -⟩ := k2
      exact ⟨a.symm, b.symm, c.symm⟩
  · exact h1

theorem onLengthSymbol_keeps (sym : Nat) {s0 s : State} (h : DecodeKeeps s0 s) : KeepsAll s0 (onLengthSymbol sym s) := by
  unfold onLengthSymbol
  split
  · exact lensDone_keeps (h.trans (appendLens_keeps _ _ _))
  · split
    · exact h
    · exact h.setDbd ⟨rfl, rfl, rfl⟩

theorem onRepeat_keeps (v : Word) {s0 s : State} (h : DecodeKeeps s0 s) : KeepsAll s0 (onRepeat v s) := by
  unfold onRepeat
  dsimp only
  split
  · exact h
  · exact lensDone_keeps ((h.trans (appendLens_keeps _ _ _)).setDbd ⟨rfl, rfl, rfl⟩)

theorem onLiteralOrLength_keeps (sym : Nat) {s0 s : State} (h : DecodeKeeps s0 s) :
    KeepsAll s0 (onLiteralOrLength sym s) := by
  unfold onLiteralOrLength
  split
  · exact h.setDbd ⟨rfl, rfl, rfl⟩
  · split
    · exact h.setDbd (endOfBlock_keeps _)
    · split
      · exact h.setDbd ⟨rfl, rfl, rfl⟩
      · exact h

theorem onDistance_keeps (sym : Nat) {s0 s : State} (h : DecodeKeeps s0 s) : KeepsAll s0 (onDistance sym s) := by
  unfold onDistance
  split
  · exact h
  · refine h.setDbd ?_
    split <;> exact ⟨rfl, rfl, rfl⟩

/-- The bit-driven states change the decoder's registers and the table slots only. -/
theorem bitStep_keeps (bit : Bool) {s0 s : State} (h : DecodeKeeps s0 s) : KeepsAll s0 (bitStep bit s) := by
  have hf : ∀ n, DecodeKeeps s0 (fieldState n bit s) := fun n => h.trans (fieldState_keeps n bit s)
  have hc : ∀ t m, DecodeKeeps s0 (codeState t m bit s) := fun t m => h.trans (codeState_keeps t m bit s)
  unfold bitStep
  split
  · unfold stepBlockHeader; split
    · exact hf _
    · exact onBlockHeader_keeps _ (hf _)
  · unfold stepRawLength; split
    · exact hf _
    · exact onRawLength_keeps _ (hf _)
  · unfold stepRawBytes; split
    · exact hf _
    · exact onRawByte_keeps _ (hf _)
  · unfold stepAlphabetHeader; split
    · exact hf _
    · exact onAlphabetHeader_keeps _ (hf _)
  · unfold stepAlphabet; split
    · exact hf _
    · exact onAlphabetLength_keeps _ (hf _)
  · unfold stepCodeLengths; dsimp only; split
    · exact hc _ _
    · exact onLengthSymbol_keeps _ (hc _ _)
    · exact hc _ _
  · unfold stepLengthRepeat; dsimp only; split
    · exact hf _
    · exact onRepeat_keeps _ (hf _)
  · unfold stepLiteralOrLength; dsimp only; split
    · exact hc _ _
    · exact onLiteralOrLength_keeps _ (hc _ _)
    · exact hc _ _
  · unfold stepLengthExtra; dsimp only; split
    · exact hf _
    · exact (hf _).setDbd ⟨rfl, rfl, rfl⟩
  · unfold stepDistance; dsimp only; split
    · exact hc _ _
    · exact onDistance_keeps _ (hc _ _)
    · exact hc _ _
  · unfold stepDistanceExtra; dsimp only; split
    · exact hf _
    · exact (hf _).setDbd ⟨rfl, rfl, rfl⟩
  all_goals exact h

/-- With no byte pending a micro-step changes the decoder's registers and the table slots only. -/
theorem engineStep_keeps (s : State) : KeepsAll s (engineStep s) := by
  have hi : KeepsAll s (inputStep s) := by
    unfold inputStep
    split
    · exact DecodeKeeps.rfl
    · exact bitStep_keeps _ (DecodeKeeps.rfl.setDbd ⟨rfl, rfl, rfl⟩)
  have hc : KeepsAll s (copyStep s) := by
    refine DecodeKeeps.rfl.setDbd ?_
    split <;> exact ⟨rfl, rfl, rfl⟩
  unfold engineStep
  split
  · exact DecodeKeeps.rfl
  · exact hc
  · exact stepSetup_keeps DecodeKeeps.rfl
  all_goals exact hi

theorem drainStep_keeps (s : State) : (drainStep s).Satisfies (EngineKeeps s) (fun _ t => EngineKeeps s t) := by
  have ho := offer_cases s.dbd.outb s.env
  rcases drainStep_cases s with ⟨-, h⟩ | ⟨-, h⟩ <;> rw [h]
  · simpa [EngineKeeps] using ⟨ho.1, ho.2.1⟩
  · simpa [EngineKeeps] using ⟨ho.1, ho.2.1⟩

/-- No micro-step writes a register of EngineKeeps. -/
theorem microStep_keeps (s : State) : (microStep s).Satisfies (EngineKeeps s) (fun _ t => EngineKeeps s t) := by
  unfold microStep
  split
  · exact drainStep_keeps s
  · have h := engineStep_keeps s
    cases hm : engineStep s <;> rw [hm] at h <;> exact h.1

/-- Run writes none of them either. -/
theorem run_keeps (n : Nat) (s : State) : EngineKeeps s (run n s).2 := by
  refine run_induct (P := EngineKeeps s) (Q := fun _ t => EngineKeeps s t) (fun t ht => ?_) (fun t ht => ht) n s EngineKeeps.rfl
  have h := microStep_keeps t
  cases hm : microStep t <;> rw [hm] at h <;> exact ht.trans h

/-! ## The micro-step of a state that takes a bit -/

/-- With no byte pending and a bit held, a bit-consuming state takes the bit. -/
theorem microStep_takesBit {st : DState} {s : State} (h : TakesBit st s) (h1 : st ≠ .done) (h2 : st ≠ .copyFromHistory)
    (h3 : st ≠ .fixedOrDynamicSetup) : microStep s = bitStep (nextBit s) (dropBit s) := by
  obtain ⟨rfl, ho, hb⟩ := h
  have hi : inputStep s = bitStep (nextBit s) (dropBit s) := if_neg hb
  simp only [microStep, ho, Bool.false_eq_true, if_false, engineStep]
  split <;> first | exact hi | contradiction

/-- A whole field leaves the registers with the bit taken. -/
theorem fieldState_whole {n : Nat} {s : State} {v : Word} (h : readField n (nextBit s) (dropBit s) = some v) :
    fieldState n (nextBit s) (dropBit s) = s.setDbd s.dbd.bitTaken := by
  unfold readField at h
  split at h
  · rename_i hn; exact if_pos hn
  · cases h

/-- A whole code leaves the registers with the bit taken. -/
theorem codeState_symbol {t : Slot} {m : Nat} {s : State} {sym : Nat}
    (h : readCode t m (nextBit s) (dropBit s) = .symbol sym) :
    codeState t m (nextBit s) (dropBit s) = s.setDbd s.dbd.bitTaken := by
  simp only [codeState, h]; rfl

/-- How a state that reads a field meets `ReadsField`: `act` is its transition on the whole field. -/
theorem readsField_intro {n : Nat} {s : State} {act : Word → State → Micro} {whole : Word → Prop}
    (hm : microStep s = match readField n (nextBit s) (dropBit s) with
      | none => .cont (fieldState n (nextBit s) (dropBit s))
      | some v => act v (fieldState n (nextBit s) (dropBit s)))
    (hw : ∀ v, readField n (nextBit s) (dropBit s) = some v → microStep s = act v (s.setDbd s.dbd.bitTaken) → whole v) :
    ReadsField n s whole := by
  refine ⟨fun h => by rw [hm, h], fun v h => hw v h ?_⟩
  rw [hm, h]
  exact congrArg _ (fieldState_whole h)

/-- How a state that reads a code meets `ReadsCode`: `act` is its transition on the symbol. -/
theorem readsCode_intro {t : Slot} {m : Nat} {s : State} {act : Nat → State → Micro} {whole : Nat → Prop}
    (hm : microStep s = match readCode t m (nextBit s) (dropBit s) with
      | .pending => .cont (codeState t m (nextBit s) (dropBit s))
      | .symbol n => act n (codeState t m (nextBit s) (dropBit s))
      | .bad => failStep .badCodeLength (codeState t m (nextBit s) (dropBit s)))
    (hw : ∀ sym, microStep s = act sym (s.setDbd s.dbd.bitTaken) → whole sym) : ReadsCode t m s whole := by
  refine ⟨fun h => by rw [hm, h], fun h => by rw [hm, h]; rfl, fun sym h => hw sym ?_⟩
  rw [hm, h]
  exact congrArg _ (codeState_symbol h)

/-! ## A run of pending bits -/

/-- The registers after `m` bits of a field, none of them its last: the bits are taken from BITBUF and stand in ACC above
those it held. -/
def Dbd.bitsPending (m : Nat) (d : Dbd) : Dbd :=
  { d with
    bitbuf := d.bitbuf >>> m
    bitcnt := d.bitcnt - BitVec.ofNat 4 m
    acc := BitVec.ofNat 32 (d.acc.toNat + d.bitbuf.toNat % 2 ^ m * 2 ^ d.accn.toNat)
    accn := d.accn + BitVec.ofNat 6 m }

theorem nextBit_toNat (s : State) : (nextBit s).toNat = s.dbd.bitbuf.toNat % 2 := by
  unfold nextBit
  rw [BitVec.getLsbD, Nat.testBit_eq_decide_div_mod_eq, pow_zero, Nat.div_one]
  rcases Nat.mod_two_eq_zero_or_one s.dbd.bitbuf.toNat with h | h <;> simp [h]

/-- ACC with a bit more, as a number. -/
theorem accWithBit_lt {a b n : Nat} (ha : a < 2 ^ n) : a + b % 2 * 2 ^ n < 2 ^ (n + 1) := by
  rw [pow_succ]
  rcases Nat.mod_two_eq_zero_or_one b with h | h <;> rw [h] <;> omega

theorem fieldAcc_toNat {b : Bool} {d : Dbd} (hn : d.accn.toNat < 32) (ha : d.acc.toNat < 2 ^ d.accn.toNat) :
    (fieldAcc b d).toNat = d.acc.toNat + b.toNat * 2 ^ d.accn.toNat := by
  have hw : (bitWord b).toNat = b.toNat := by cases b <;> rfl
  have hp : 2 ^ d.accn.toNat ≤ 2 ^ 31 := Nat.pow_le_pow_right (by omega) (by omega)
  have hb : b.toNat * 2 ^ d.accn.toNat < 2 ^ 32 := by cases b <;> (simp; try omega)
  unfold fieldAcc
  rw [BitVec.toNat_or, BitVec.toNat_shiftLeft, hw, Nat.shiftLeft_eq, Nat.mod_eq_of_lt hb, Nat.or_comm,
    ← Nat.shiftLeft_eq, ← Nat.shiftLeft_add_eq_or_of_lt ha, Nat.shiftLeft_eq, Nat.add_comm]

/-- One pending bit of a field. -/
theorem microStep_pendingBit {n : Nat} {s : State} {whole : Word → Prop} (h : ReadsField n s whole)
    (hn : s.dbd.accn.toNat + 1 < n) (hn32 : n ≤ 32) (ha : s.dbd.acc.toNat < 2 ^ s.dbd.accn.toNat) :
    microStep s = .cont (s.setDbd (s.dbd.bitsPending 1)) := by
  have hne : ((dropBit s).dbd.accn + 1).toNat ≠ n := by
    show (s.dbd.accn + 1).toNat ≠ n
    simp [BitVec.toNat_add]; omega
  have hf : fieldState n (nextBit s) (dropBit s)
      = (dropBit s).setDbd { (dropBit s).dbd with acc := fieldAcc (nextBit s) s.dbd, accn := s.dbd.accn + 1 } := if_neg hne
  have hacc : fieldAcc (nextBit s) s.dbd
      = BitVec.ofNat 32 (s.dbd.acc.toNat + s.dbd.bitbuf.toNat % 2 ^ 1 * 2 ^ s.dbd.accn.toNat) := by
    apply BitVec.eq_of_toNat_eq
    have hlt := accWithBit_lt (b := s.dbd.bitbuf.toNat) ha
    have hle : 2 ^ (s.dbd.accn.toNat + 1) ≤ 2 ^ 32 := Nat.pow_le_pow_right (by omega) (by omega)
    rw [fieldAcc_toNat (by omega) ha, nextBit_toNat, pow_one, BitVec.toNat_ofNat, Nat.mod_eq_of_lt (hlt.trans_le hle)]
  rw [h.1 (if_neg hne), hf, hacc]
  rfl

/-- A run of `m` pending bits of a field, all of them held in BITBUF. -/
theorem run_pendingBits {n : Nat} {st : DState} {whole : State → Word → Prop}
    (H : ∀ s, TakesBit st s → ReadsField n s (whole s)) (hn32 : n ≤ 32) (m : Nat) {s : State} (hd : s.dbd.dstate = st)
    (ho : s.dbd.outv = false) (hb : m ≤ s.dbd.bitcnt.toNat) (hn : s.dbd.accn.toNat + m < n)
    (ha : s.dbd.acc.toNat < 2 ^ s.dbd.accn.toNat) (f : Nat) :
    run (f + m) s = run f (s.setDbd (s.dbd.bitsPending m)) := by
  induction m generalizing s with
  | zero => simp [Dbd.bitsPending, Nat.mod_one]; rfl
  | succ m ih =>
    have hbne : s.dbd.bitcnt ≠ 0 := fun h => by rw [h] at hb; simp at hb
    rw [show f + (m + 1) = (f + m) + 1 by omega, run_cont (microStep_pendingBit (H s ⟨hd, ho, hbne⟩) (by omega) hn32 ha)]
    have hlt := accWithBit_lt (b := s.dbd.bitbuf.toNat) ha
    have hle : 2 ^ (s.dbd.accn.toNat + 1) ≤ 2 ^ 32 := Nat.pow_le_pow_right (by omega) (by omega)
    have c1 : (s.dbd.bitsPending 1).accn.toNat = s.dbd.accn.toNat + 1 := by
      show (s.dbd.accn + 1).toNat = _
      simp [BitVec.toNat_add]; omega
    have c2 : (s.dbd.bitsPending 1).bitcnt.toNat = s.dbd.bitcnt.toNat - 1 := by
      have := s.dbd.bitcnt.isLt
      show (s.dbd.bitcnt - 1).toNat = _
      simp [BitVec.toNat_sub]; omega
    have c3 : (s.dbd.bitsPending 1).acc.toNat = s.dbd.acc.toNat + s.dbd.bitbuf.toNat % 2 * 2 ^ s.dbd.accn.toNat := by
      show (BitVec.ofNat 32 (s.dbd.acc.toNat + s.dbd.bitbuf.toNat % 2 ^ 1 * 2 ^ s.dbd.accn.toNat)).toNat = _
      rw [pow_one, BitVec.toNat_ofNat, Nat.mod_eq_of_lt (hlt.trans_le hle)]
    rw [ih (s := s.setDbd (s.dbd.bitsPending 1)) hd ho (by show m ≤ (s.dbd.bitsPending 1).bitcnt.toNat; omega)
      (by show (s.dbd.bitsPending 1).accn.toNat + m < n; omega)
      (by show (s.dbd.bitsPending 1).acc.toNat < 2 ^ (s.dbd.bitsPending 1).accn.toNat; rw [c3, c1]; exact hlt)]
    have e : (s.dbd.bitsPending 1).bitsPending m = s.dbd.bitsPending (m + 1) := by
      have e1 : s.dbd.bitbuf >>> 1 >>> m = s.dbd.bitbuf >>> (m + 1) := by rw [← BitVec.shiftRight_add, Nat.add_comm]
      have e2 : s.dbd.bitcnt - BitVec.ofNat 4 1 - BitVec.ofNat 4 m = s.dbd.bitcnt - BitVec.ofNat 4 (m + 1) := by
        rw [BitVec.sub_sub]
        congr 1
        apply BitVec.eq_of_toNat_eq
        simp [BitVec.toNat_add, Nat.add_comm]
      have e3 : s.dbd.accn + BitVec.ofNat 6 1 + BitVec.ofNat 6 m = s.dbd.accn + BitVec.ofNat 6 (m + 1) := by
        rw [BitVec.add_assoc]
        congr 1
        apply BitVec.eq_of_toNat_eq
        simp [BitVec.toNat_add, Nat.add_comm]
      have e4 : (s.dbd.bitsPending 1).acc.toNat
            + (s.dbd.bitbuf >>> 1).toNat % 2 ^ m * 2 ^ (s.dbd.bitsPending 1).accn.toNat
          = s.dbd.acc.toNat + s.dbd.bitbuf.toNat % 2 ^ (m + 1) * 2 ^ s.dbd.accn.toNat := by
        have hs : s.dbd.bitbuf.toNat % 2 ^ (m + 1)
            = s.dbd.bitbuf.toNat % 2 + 2 * ((s.dbd.bitbuf >>> 1).toNat % 2 ^ m) := by
          rw [BitVec.toNat_ushiftRight, Nat.shiftRight_eq_div_pow, pow_one, pow_succ, Nat.mul_comm (2 ^ m) 2, Nat.mod_mul]
        rw [c3, c1, hs, pow_succ]
        ring
      unfold Dbd.bitsPending at e4 ⊢
      simp only [e1, e2, e3, e4]
    exact congrArg (fun d => run f (s.setDbd d)) e

end Sys2Proof.Machine
end

