-- ==== Sys2Proof/Laws/Invariant.lean ====
section
/-! SUPPORT. One lemma for each decoder state: from a state that meets the decoder's invariant, its micro-step goes on in one
that does, or stops with Ok, Overflow, Done or a failure. -/

namespace Sys2Proof.Machine

/-! ## Fields and codes keep their ranges -/

theorem bitWord_toNat (b : Bool) : (bitWord b).toNat = b.toNat := by cases b <;> rfl

theorem fieldAcc_toNat_lt {bit : Bool} {d : Dbd} {n : Nat} (hr : d.reading n) :
    (fieldAcc bit d).toNat < 2 ^ (d.accn.toNat + 1) := by
  obtain ⟨h1, h2⟩ := hr
  simp only [fieldAcc, BitVec.toNat_or, BitVec.toNat_shiftLeft, bitWord_toNat]
  apply Nat.or_lt_two_pow
  · exact h2.trans (Nat.pow_lt_pow_right (by omega) (by omega))
  · refine (Nat.mod_le _ _).trans_lt ?_
    rw [Nat.shiftLeft_eq]
    have : bit.toNat ≤ 1 := Bool.toNat_le bit
    have hp : 0 < 2 ^ d.accn.toNat := Nat.two_pow_pos _
    rw [pow_succ]
    nlinarith

theorem accn_succ {d : Dbd} {n : Nat} (hr : d.reading n) (hn : n ≤ 32) : (d.accn + 1).toNat = d.accn.toNat + 1 := by
  have := hr.1
  simp [BitVec.toNat_add]
  omega

/-- The two outcomes of ReadField (R172): one bit more, or the whole field and an empty accumulator. -/
theorem field_cases {n : Nat} (bit : Bool) {s : State} (hr : s.dbd.reading n) (hn : n ≤ 32) :
    (readField n bit s = none ∧
      ∃ a c, fieldState n bit s = s.setDbd { s.dbd with acc := a, accn := c } ∧
        (Dbd.reading n { s.dbd with acc := a, accn := c }))
    ∨ (∃ v, readField n bit s = some v ∧ v.toNat < 2 ^ n ∧
        fieldState n bit s = s.setDbd { s.dbd with acc := 0, accn := 0 }) := by
  have hs := accn_succ hr hn
  have hl := fieldAcc_toNat_lt (bit := bit) hr
  unfold readField fieldState
  by_cases h : (s.dbd.accn + 1).toNat = n
  · refine .inr ⟨_, if_pos h, ?_, if_pos h⟩
    rwa [← hs, h] at hl
  · refine .inl ⟨if_neg h, _, _, if_neg h, ?_⟩
    have := hr.1
    refine ⟨?_, ?_⟩
    · show (s.dbd.accn + 1).toNat < n
      omega
    · show (fieldAcc bit s.dbd).toNat < 2 ^ (s.dbd.accn + 1).toNat
      rw [hs]; exact hl

/-- The three outcomes of ReadCode (R173): one bit more, a symbol of the slot and an empty accumulator, or no code. -/
theorem code_cases {t : Slot} {m : Nat} (bit : Bool) {s : State} (hr : s.dbd.reading m) (hm : m ≤ 15)
    (hw : Table.wf (s.table t)) :
    (readCode t m bit s = .pending ∧
      ∃ a c, codeState t m bit s = s.setDbd { s.dbd with acc := a, accn := c } ∧
        (Dbd.reading m { s.dbd with acc := a, accn := c }))
    ∨ (∃ n, readCode t m bit s = .symbol n ∧ n < (s.table t).length ∧
        codeState t m bit s = s.setDbd { s.dbd with acc := 0, accn := 0 })
    ∨ readCode t m bit s = .bad := by
  have hs := accn_succ hr (by omega)
  cases hl : lookup (s.table t) (s.dbd.accn + 1).toNat (codeAcc bit s.dbd).toNat with
  | some sym =>
    have hrc : readCode t m bit s = .symbol sym.toNat := by simp only [readCode, hl]
    refine .inr (.inl ⟨sym.toNat, hrc, lookup_lt hw hl, ?_⟩)
    simp only [codeState, hrc]
  | none =>
    by_cases hge : (s.dbd.accn + 1).toNat ≥ m
    · exact .inr (.inr (by simp only [readCode, hl, if_pos hge]))
    · have hrc : readCode t m bit s = .pending := by simp only [readCode, hl, if_neg hge]
      refine .inl ⟨hrc, _, _, by simp only [codeState, hrc]; rfl, ?_, ?_⟩
      · show (s.dbd.accn + 1).toNat < m
        omega
      · show (codeAcc bit s.dbd).toNat < 2 ^ (s.dbd.accn + 1).toNat
        rw [hs]
        have h2 := hr.2
        simp only [codeAcc, BitVec.toNat_or, BitVec.toNat_shiftLeft, bitWord_toNat]
        apply Nat.or_lt_two_pow
        · refine (Nat.mod_le _ _).trans_lt ?_
          rw [Nat.shiftLeft_eq, pow_succ]
          omega
        · exact (Bool.toNat_lt bit).trans_le (by rw [pow_succ]; have := Nat.two_pow_pos s.dbd.accn.toNat; omega)

/-! ## The invariant of a decoder that is running -/

/-- An open session between two micro-steps. -/
structure EngInv (s : State) : Prop where
  tables : s.htg.wf
  isOpen : s.dbd.dstate.isOpen = true
  bits : s.dbd.bitcnt.toNat ≤ 8
  phase : phaseOk s.htg s.dbd
  err : s.dbd.err = 0

/-- A stop by failure: the state Fail leaves, with the slots still well formed. -/
def Failed (c : Code) (t : State) : Prop := c.bits ∈ failCodes ∧ ∃ u, t = fail c u ∧ u.htg.wf

/-- The states a micro-step may answer: the loop goes on within the invariant, or fails. -/
abbrev Good : Micro → Prop := Micro.Satisfies EngInv Failed

theorem good_fail {c : Code} {s : State} (hc : c.bits ∈ failCodes) (hw : s.htg.wf) : Good (failStep c s) := ⟨hc, s, rfl, hw⟩

theorem canonical_code {lens : List Nat} {c : Code} (h : canonical lens = .error c) : c.bits ∈ failCodes := by
  rcases canonical_error h with rfl | rfl <;> decide

theorem reading_zero {d : Dbd} {n : Nat} (hn : 1 ≤ n) (h1 : d.acc = 0) (h2 : d.accn = 0) : d.reading n := by
  simp [Dbd.reading, h1, h2]; omega

/-- `EndOfBlock()` leads to ReadBlockHeader or Done. -/
theorem endOfBlock_good {s : State} {d : Dbd} (hw : s.htg.wf) (hb : d.bitcnt.toNat ≤ 8) (he : d.err = 0) (h1 : d.acc = 0)
    (h2 : d.accn = 0) : EngInv (s.setDbd (endOfBlock d)) := by
  unfold endOfBlock
  split
  · exact ⟨hw, rfl, by simp, by simp [phaseOk], he⟩
  · refine ⟨hw, rfl, hb, ?_, he⟩
    show Dbd.reading 3 _
    exact reading_zero (by omega) h1 h2

/-! ## One lemma for each state -/

section
variable {s : State} (bit : Bool) (hw : s.htg.wf) (hb : s.dbd.bitcnt.toNat ≤ 8) (he : s.dbd.err = 0)
include hw hb he

theorem stepBlockHeader_good (hd : s.dbd.dstate = .readBlockHeader) (hr : s.dbd.reading 3) :
    Good (stepBlockHeader bit s) := by
  unfold stepBlockHeader
  rcases field_cases bit hr (by omega) with ⟨h1, a, c, h2, h3⟩ | ⟨v, h1, hv, h2⟩ <;> rw [h1, h2] <;> dsimp only
  · exact ⟨hw, by simp [hd, DState.isOpen], hb, by simpa [phaseOk, hd] using h3, he⟩
  · unfold onBlockHeader
    split
    · exact ⟨hw, rfl, by simp, reading_zero (by omega) rfl rfl, he⟩
    · exact ⟨hw, rfl, hb, ⟨reading_zero (by omega) rfl rfl, .inl rfl⟩, he⟩
    · exact ⟨hw, rfl, hb, reading_zero (by omega) rfl rfl, he⟩
    · exact good_fail (by decide) hw

theorem stepRawLength_good (hd : s.dbd.dstate = .rawLength) (hr : s.dbd.reading 32) : Good (stepRawLength bit s) := by
  unfold stepRawLength
  rcases field_cases bit hr (by omega) with ⟨h1, a, c, h2, h3⟩ | ⟨v, h1, hv, h2⟩ <;> rw [h1, h2] <;> dsimp only
  · exact ⟨hw, by simp [hd, DState.isOpen], hb, by simpa [phaseOk, hd] using h3, he⟩
  · unfold onRawLength
    split
    · exact good_fail (by decide) hw
    · split
      · exact endOfBlock_good hw hb he rfl rfl
      · rename_i h0
        refine ⟨hw, rfl, hb, ⟨reading_zero (by omega) rfl rfl, ?_⟩, he⟩
        have : (v.extractLsb' 0 16).toNat ≠ 0 := fun h => h0 (BitVec.eq_of_toNat_eq (by simpa using h))
        show 1 ≤ (v.extractLsb' 0 16).toNat
        omega

theorem stepRawBytes_good (hd : s.dbd.dstate = .rawBytes) (hr : s.dbd.reading 8) (hm : 1 ≤ s.dbd.rem.toNat) :
    Good (stepRawBytes bit s) := by
  unfold stepRawBytes
  rcases field_cases bit hr (by omega) with ⟨h1, a, c, h2, h3⟩ | ⟨v, h1, hv, h2⟩ <;> rw [h1, h2] <;> dsimp only
  · exact ⟨hw, by simp [hd, DState.isOpen], hb, by simpa [phaseOk, hd] using ⟨h3, hm⟩, he⟩
  · unfold onRawByte
    dsimp only
    show EngInv _
    split
    · exact endOfBlock_good hw hb he rfl rfl
    · rename_i h0
      refine ⟨hw, by simp [emit, hd, DState.isOpen], hb, ?_, he⟩
      have h0' : (s.dbd.rem - 1).toNat ≠ 0 := fun h => h0 (BitVec.eq_of_toNat_eq (by simpa using h))
      simp only [State.setDbd_dbd, phaseOk, emit, hd]
      exact ⟨reading_zero (by omega) rfl rfl, by show 1 ≤ (s.dbd.rem - 1).toNat; omega⟩

omit bit in
theorem stepSetup_good (hr : s.dbd.reading 1) : Good (stepSetup s) := by
  have h0 : s.dbd.accn = 0 := BitVec.eq_of_toNat_eq (by have := hr.1; simp; omega)
  have h1 : s.dbd.acc = 0 := BitVec.eq_of_toNat_eq (by have := hr.2; simp [h0] at this; simp [this])
  unfold stepSetup
  split
  · refine ⟨?_, rfl, hb, reading_zero (by omega) h1 h0, he⟩
    exact Htg.wf_setTable (Htg.wf_setTable hw .ll fixedLl_wf) .dist fixedDist_wf
  · unfold setupDynamic
    split
    · rename_i c hc
      unfold assignSlot at hc
      split at hc
      · rename_i c' hc'; cases hc; exact good_fail (canonical_code hc') hw
      · cases hc
    · rename_i s1 hs1
      have hw1 : s1.htg.wf := by
        unfold assignSlot at hs1
        split at hs1
        · cases hs1
        · cases hs1; exact Htg.wf_setTable hw _ (setPats_wf _ (Htg.wf_table hw _))
      split
      · rename_i c hc
        unfold assignSlot at hc
        split at hc
        · rename_i c' hc'; cases hc; exact good_fail (canonical_code hc') hw1
        · cases hc
      · rename_i s2 hs2
        have hw2 : s2.htg.wf := by
          unfold assignSlot at hs2
          split at hs2
          · cases hs2
          · cases hs2; exact Htg.wf_setTable hw1 _ (setPats_wf _ (Htg.wf_table hw1 _))
        exact ⟨hw2, rfl, hb, reading_zero (by omega) h1 h0, he⟩

theorem stepAlphabetHeader_good (hd : s.dbd.dstate = .readCodeLengthAlphabetHeader) (hr : s.dbd.reading 14) :
    Good (stepAlphabetHeader bit s) := by
  unfold stepAlphabetHeader
  rcases field_cases bit hr (by omega) with ⟨h1, a, c, h2, h3⟩ | ⟨v, h1, hv, h2⟩ <;> rw [h1, h2] <;> dsimp only
  · exact ⟨hw, by simp [hd, DState.isOpen], hb, by simpa [phaseOk, hd] using h3, he⟩
  · unfold onAlphabetHeader
    dsimp only
    split
    · exact good_fail (by decide) hw
    · rename_i hl
      have a1 : (v.extractLsb' 0 5).toNat < 32 := (v.extractLsb' 0 5).isLt
      have a2 : (v.extractLsb' 5 5).toNat < 32 := (v.extractLsb' 5 5).isLt
      have a3 : (v.extractLsb' 10 4).toNat < 16 := (v.extractLsb' 10 4).isLt
      generalize (v.extractLsb' 0 5).toNat = p at *
      generalize (v.extractLsb' 5 5).toNat = q at *
      generalize (v.extractLsb' 10 4).toNat = r at *
      have b1 : (BitVec.ofNat 9 (p + 257)).toNat = p + 257 := by simp; omega
      have b2 : (BitVec.ofNat 6 (q + 1)).toNat = q + 1 := by simp; omega
      have b3 : (BitVec.ofNat 5 (r + 4)).toNat = r + 4 := by simp; omega
      refine ⟨Htg.wf_setTable hw .cl (freshTable_wf (by decide)), rfl, hb, ?_, he⟩
      refine ⟨reading_zero (by omega) rfl rfl, ⟨?_, ?_, ?_⟩, ?_, ?_, ?_⟩
      · show 257 ≤ (BitVec.ofNat 9 (p + 257)).toNat ∧ (BitVec.ofNat 9 (p + 257)).toNat ≤ 286
        omega
      · show 1 ≤ (BitVec.ofNat 6 (q + 1)).toNat ∧ (BitVec.ofNat 6 (q + 1)).toNat ≤ 30
        omega
      · show 4 ≤ (BitVec.ofNat 5 (r + 4)).toNat ∧ (BitVec.ofNat 5 (r + 4)).toNat ≤ 19
        omega
      · show 0 < (BitVec.ofNat 5 (r + 4)).toNat
        omega
      · exact freshTable_length 19
      · exact freshTable_lens 19 7

theorem stepAlphabet_good (hd : s.dbd.dstate = .readCodeLengthAlphabet) (hr : s.dbd.reading 3) (hc : s.dbd.countsOk)
    (hi : s.dbd.idx.toNat < s.dbd.hclen.toNat) (hl : s.htg.cl.length = 19) (hm : lensAtMost 7 s.htg.cl) :
    Good (stepAlphabet bit s) := by
  unfold stepAlphabet
  rcases field_cases bit hr (by omega) with ⟨h1, a, c, h2, h3⟩ | ⟨v, h1, hv, h2⟩ <;> rw [h1, h2] <;> dsimp only
  · exact ⟨hw, by simp [hd, DState.isOpen], hb, by simpa [phaseOk, hd] using ⟨h3, hc, hi, hl, hm⟩, he⟩
  · unfold onAlphabetLength
    dsimp only
    have hcl : Table.wf (s.htg.cl) := hw.2.2
    have hidx : (s.dbd.idx + 1).toNat = s.dbd.idx.toNat + 1 := by
      have := hc.2.2.2; simp [BitVec.toNat_add]; omega
    split
    · unfold finishAlphabet
      split
      · rename_i c hce
        unfold assignSlot at hce
        split at hce
        · rename_i c' hc'; cases hce
          exact good_fail (canonical_code hc') (Htg.wf_setTable hw .cl (setLen_wf _ _ hcl))
        · cases hce
      · rename_i s1 hs1
        unfold assignSlot at hs1
        split at hs1
        · cases hs1
        · cases hs1
          obtain ⟨c1, c2, c3⟩ := hc
          refine ⟨?_, rfl, hb, ?_, he⟩
          · refine Htg.wf_setTable (Htg.wf_setTable (Htg.wf_setTable (Htg.wf_setTable hw .cl (setLen_wf _ _ hcl)) .cl ?_) .ll
              (freshTable_wf ?_)) .dist (freshTable_wf ?_)
            · exact setPats_wf _ (setLen_wf _ _ hcl)
            · show s.dbd.hlit.toNat ≤ 288; omega
            · show s.dbd.hdist.toNat ≤ 288; omega
          · refine ⟨reading_zero (by omega) rfl rfl, ⟨⟨c1, c2, c3⟩, ?_, ?_, ?_, ?_, ?_⟩, ?_⟩
            · show (setPats (setLen s.htg.cl _ _) _).length = 19
              rw [setPats_length, setLen_length, hl]
            · exact freshTable_length _
            · exact freshTable_length _
            · exact freshTable_lens _ _
            · exact freshTable_lens _ _
            · show 0 < s.dbd.hlit.toNat + s.dbd.hdist.toNat; omega
    · rename_i hne
      refine ⟨Htg.wf_setTable hw .cl (setLen_wf _ _ hcl), by simp [hd, DState.isOpen], hb, ?_, he⟩
      simp only [phaseOk, State.setDbd_dbd, State.setDbd_htg, State.setTable_htg, hd]
      refine ⟨reading_zero (by omega) rfl rfl, hc, ?_, ?_, ?_⟩
      · have hne' : (s.dbd.idx + 1).toNat ≠ s.dbd.hclen.toNat := hne
        show (s.dbd.idx + 1).toNat < s.dbd.hclen.toNat
        omega
      · show (setLen s.htg.cl _ _).length = 19
        rw [setLen_length, hl]
      · exact setLen_lens _ hm (by omega)

end

/-! ## The runs of code lengths -/

/-- `SetLen(j, v)` writes the length GetLen reads at `j` and no other, within the lengths being read. -/
theorem getLenAt_setLenAt {s : State} (hl : lensReading s.htg s.dbd) {i v : Nat} (hi : i < totalLens s.dbd) (hv : v ≤ 15)
    (j : Nat) : getLenAt j (setLenAt i v s) = if j = i then v else getLenAt j s := by
  obtain ⟨-, -, h1, h2, -, -⟩ := hl
  have ht : i < s.dbd.hlit.toNat + s.dbd.hdist.toNat := hi
  unfold getLenAt setLenAt
  by_cases hs : i < s.dbd.hlit.toNat
  · rw [if_pos hs]
    by_cases hj : j < s.dbd.hlit.toNat
    · have hlt : j < (s.table .ll).length := by rw [show s.table .ll = s.htg.ll from rfl, h1]; exact hj
      show (if j < s.dbd.hlit.toNat then (lengthsOf (setLen (s.table .ll) i v)).getD j 0 else _) = _
      rw [if_pos hj, if_pos hj, lengthsOf_setLen _ (by omega)]
      simp only [hlt, and_true]
    · have hne : j ≠ i := by omega
      show (if j < s.dbd.hlit.toNat then _ else (lengthsOf (s.table .dist)).getD (j - s.dbd.hlit.toNat) 0) = _
      rw [if_neg hj, if_neg hj, if_neg hne]
  · rw [if_neg hs]
    by_cases hj : j < s.dbd.hlit.toNat
    · have hne : j ≠ i := by omega
      show (if j < s.dbd.hlit.toNat then (lengthsOf (s.table .ll)).getD j 0 else _) = _
      rw [if_pos hj, if_pos hj, if_neg hne]
    · show (if j < s.dbd.hlit.toNat then _ else
        (lengthsOf (setLen (s.table .dist) (i - s.dbd.hlit.toNat) v)).getD (j - s.dbd.hlit.toNat) 0) = _
      rw [if_neg hj, if_neg hj, lengthsOf_setLen _ (by omega)]
      have hd : (s.table .dist).length = s.dbd.hdist.toNat := h2
      by_cases hji : j = i
      · subst hji
        rw [if_pos ⟨rfl, by rw [hd]; omega⟩, if_pos rfl]
      · rw [if_neg (fun h => hji (by omega)), if_neg hji]

/-- Writing one length changes no pattern, no symbol, no entry of CL and no frequency. -/
theorem setLenAt_onlyLengths (i v : Nat) (s : State) : OnlyLengths s (setLenAt i v s) := by
  have h : ∀ (t : Table) (k : Nat), (setLen t k v).map (fun e => (e.pat, e.sym)) = t.map (fun e => (e.pat, e.sym)) := by
    intro t k
    refine List.ext_getElem? fun j => ?_
    rw [List.getElem?_map, List.getElem?_map, setLen_getElem?]
    split
    · rw [Option.map_map]; rfl
    · rfl
  unfold setLenAt
  split
  · refine ⟨fun u => ?_, rfl, rfl⟩
    cases u
    · exact h _ _
    · rfl
    · rfl
  · refine ⟨fun u => ?_, rfl, rfl⟩
    cases u
    · rfl
    · exact h _ _
    · rfl

theorem OnlyLengths.trans {s t u : State} (h1 : OnlyLengths s t) (h2 : OnlyLengths t u) : OnlyLengths s u :=
  ⟨fun k => (h2.1 k).trans (h1.1 k), h2.2.1.trans h1.2.1, h2.2.2.trans h1.2.2⟩

/-- Writing a length up to 15 keeps the slots' sizes and their range. -/
theorem setLenAt_lensReading {s : State} {v : Nat} (hv : v ≤ 15) (i : Nat) (hl : lensReading s.htg s.dbd) :
    lensReading (setLenAt i v s).htg s.dbd := by
  obtain ⟨hc, l1, l2, l3, l4, l5⟩ := hl
  unfold setLenAt
  split
  · exact ⟨hc, l1, (setLen_length s.htg.ll _ _).trans l2, l3, setLen_lens _ l4 hv, l5⟩
  · exact ⟨hc, l1, l2, (setLen_length s.htg.dist _ _).trans l3, l4, setLen_lens _ l5 hv⟩

theorem setLenAt_dbd (i v : Nat) (s : State) : (setLenAt i v s).dbd = s.dbd := by unfold setLenAt; split <;> rfl

theorem appendLens_succ (v n : Nat) (s : State) : appendLens v (n + 1) s =
    appendLens v n ((setLenAt s.dbd.idx.toNat v s).setDbd { s.dbd with idx := s.dbd.idx + 1 }) := by
  simp only [appendLens, setLenAt_dbd]

/-- A run of `n` lengths from IDX: the value at its positions and every other length as it was; nothing but lengths and
IDX changes. -/
theorem appendLens_lengths {v : Nat} (hv : v ≤ 15) (n : Nat) {s : State} (hl : lensReading s.htg s.dbd)
    (hi : s.dbd.idx.toNat + n ≤ totalLens s.dbd) :
    (∀ j, getLenAt j (appendLens v n s)
      = if s.dbd.idx.toNat ≤ j ∧ j < s.dbd.idx.toNat + n then v else getLenAt j s)
    ∧ OnlyLengths s (appendLens v n s)
    ∧ (appendLens v n s).dbd = { s.dbd with idx := BitVec.ofNat 9 (s.dbd.idx.toNat + n) } := by
  induction n generalizing s with
  | zero => exact ⟨fun j => by rw [if_neg (by omega)]; rfl, ⟨fun _ => rfl, rfl, rfl⟩, by simp [appendLens]⟩
  | succ n ih =>
    have htot : totalLens s.dbd ≤ 316 := by have := hl.1.1.2; have := hl.1.2.1.2; unfold totalLens; omega
    have hidx : (s.dbd.idx + 1).toNat = s.dbd.idx.toNat + 1 := by simp [BitVec.toNat_add]; omega
    have hr := setLenAt_lensReading hv s.dbd.idx.toNat hl
    obtain ⟨r1, r2, r3⟩ := ih (s := (setLenAt s.dbd.idx.toNat v s).setDbd { s.dbd with idx := s.dbd.idx + 1 }) hr
      (by show (s.dbd.idx + 1).toNat + n ≤ totalLens s.dbd; omega)
    rw [appendLens_succ]
    refine ⟨fun j => ?_, (setLenAt_onlyLengths s.dbd.idx.toNat v s).trans r2, ?_⟩
    · have hg : getLenAt j ((setLenAt s.dbd.idx.toNat v s).setDbd { s.dbd with idx := s.dbd.idx + 1 })
          = if j = s.dbd.idx.toNat then v else getLenAt j s := by
        rw [← getLenAt_setLenAt hl (by omega) hv j]
        unfold getLenAt
        rw [setLenAt_dbd]; rfl
      rw [r1, hg]
      simp only [State.setDbd_dbd, hidx]
      split_ifs <;> omega
    · rw [r3]
      simp only [State.setDbd_dbd, hidx, Nat.add_assoc, Nat.add_comm 1 n]

/-- A run of lengths keeps the slots well formed and the lengths' range, and steps IDX. -/
theorem appendLens_good {v : Nat} (hv : v ≤ 15) (n : Nat) {s : State} (hw : s.htg.wf) (hl : lensReading s.htg s.dbd)
    (hi : s.dbd.idx.toNat + n ≤ totalLens s.dbd) :
    (appendLens v n s).htg.wf ∧ (appendLens v n s).dbd = { s.dbd with idx := BitVec.ofNat 9 (s.dbd.idx.toNat + n) } ∧
      lensReading (appendLens v n s).htg s.dbd := by
  suffices h : (appendLens v n s).htg.wf ∧ lensReading (appendLens v n s).htg s.dbd from
    ⟨h.1, (appendLens_lengths hv n hl hi).2.2, h.2⟩
  clear hi
  induction n generalizing s with
  | zero => exact ⟨hw, hl⟩
  | succ n ih =>
    have h1 : (setLenAt s.dbd.idx.toNat v s).htg.wf := by
      unfold setLenAt
      split
      · exact Htg.wf_setTable hw .ll (setLen_wf _ _ hw.1)
      · exact Htg.wf_setTable hw .dist (setLen_wf _ _ hw.2.1)
    rw [appendLens_succ]
    exact ih (s := (setLenAt s.dbd.idx.toNat v s).setDbd { s.dbd with idx := s.dbd.idx + 1 }) h1
      (setLenAt_lensReading hv s.dbd.idx.toNat hl)

/-- After a run of lengths: on to the setup when all are read, else back to ReadCodeLengths. -/
theorem lensDone_good {s : State} (hw : s.htg.wf) (hb : s.dbd.bitcnt.toNat ≤ 8) (he : s.dbd.err = 0) (h1 : s.dbd.acc = 0)
    (h2 : s.dbd.accn = 0) (hd : s.dbd.dstate = .readCodeLengths) (hl : lensReading s.htg s.dbd)
    (hi : s.dbd.idx.toNat ≤ totalLens s.dbd) : EngInv (lensDone s) := by
  unfold lensDone
  split
  · exact ⟨hw, rfl, hb, ⟨reading_zero (by omega) h1 h2, .inr ⟨rfl, hl⟩⟩, he⟩
  · refine ⟨hw, by simp [hd, DState.isOpen], hb, ?_, he⟩
    simp only [phaseOk, hd]
    exact ⟨reading_zero (by omega) h1 h2, hl, by omega⟩

theorem lensAtMost_getD {t : Table} {n : Nat} (h : lensAtMost n t) (j : Nat) : (lengthsOf t).getD j 0 ≤ n := by
  simp only [lengthsOf, List.getD_eq_getElem?_getD, List.getElem?_map]
  cases hj : t[j]? with
  | none => simp
  | some e => simpa using h e (List.mem_iff_getElem?.2 ⟨j, hj⟩)

theorem getLenAt_le {s : State} (hl : lensReading s.htg s.dbd) (j : Nat) : getLenAt j s ≤ 15 := by
  unfold getLenAt
  split
  · exact lensAtMost_getD hl.2.2.2.2.1 _
  · exact lensAtMost_getD hl.2.2.2.2.2 _

section
variable {s : State} (bit : Bool) (hw : s.htg.wf) (hb : s.dbd.bitcnt.toNat ≤ 8) (he : s.dbd.err = 0)
include hw hb he

theorem stepCodeLengths_good (hd : s.dbd.dstate = .readCodeLengths) (hr : s.dbd.reading 7) (hl : lensReading s.htg s.dbd)
    (hi : s.dbd.idx.toNat < totalLens s.dbd) : Good (stepCodeLengths bit s) := by
  unfold stepCodeLengths
  dsimp only
  rcases code_cases (t := .cl) bit hr (by omega) hw.2.2 with ⟨h1, a, c, h2, h3⟩ | ⟨n, h1, hn, h2⟩ | h1
  · rw [h1, h2]
    exact ⟨hw, by simp [hd, DState.isOpen], hb, by simpa [phaseOk, hd] using ⟨h3, hl, hi⟩, he⟩
  · rw [h1, h2]
    have hn' : n < 19 := by rw [← hl.2.1]; exact hn
    dsimp only
    unfold onLengthSymbol
    split
    · rename_i h15
      obtain ⟨r1, r2, r3⟩ := appendLens_good h15 1 (s := s.setDbd { s.dbd with acc := 0, accn := 0 }) hw hl hi
      have hc := hl.1
      have htot : totalLens s.dbd ≤ 316 := by have := hc.1.2; have := hc.2.1.2; unfold totalLens; omega
      show EngInv _
      apply lensDone_good r1
      · rw [r2]; exact hb
      · rw [r2]; exact he
      · rw [r2]; rfl
      · rw [r2]; rfl
      · rw [r2]; exact hd
      · rw [r2]; exact r3
      · rw [r2]
        show (BitVec.ofNat 9 (s.dbd.idx.toNat + 1)).toNat ≤ totalLens s.dbd
        simp only [BitVec.toNat_ofNat]; omega
    · split
      · exact good_fail (by decide) hw
      · rename_i h15 h16
        refine ⟨hw, rfl, hb, ?_, he⟩
        have e : (BitVec.ofNat 5 n).toNat = n := by simp; omega
        refine ⟨?_, hl, hi, ?_, ?_⟩
        · show Dbd.reading (repExtra (BitVec.ofNat 5 n).toNat) _
          rw [e]
          exact reading_zero (by unfold repExtra; split <;> [omega; (split <;> omega)]) rfl rfl
        · show 16 ≤ (BitVec.ofNat 5 n).toNat ∧ (BitVec.ofNat 5 n).toNat ≤ 18
          omega
        · intro hn16
          have hn16' : n = 16 := by rw [← e]; exact hn16
          have : s.dbd.idx ≠ 0 := fun h => h16 ⟨hn16', h⟩
          have h' : s.dbd.idx.toNat ≠ 0 := fun h => this (BitVec.eq_of_toNat_eq (by simpa using h))
          show 1 ≤ s.dbd.idx.toNat
          omega
  · rw [h1]
    refine good_fail (by decide) ?_
    have := (codeState_keeps .cl Config.clMaxBits bit s)
    unfold codeState
    split <;> exact hw

theorem stepLengthRepeat_good (hd : s.dbd.dstate = .readCodeLengthExtra) (hr : s.dbd.reading (repExtra s.dbd.rep.toNat))
    (hl : lensReading s.htg s.dbd) (hi : s.dbd.idx.toNat < totalLens s.dbd)
    (hp : 16 ≤ s.dbd.rep.toNat ∧ s.dbd.rep.toNat ≤ 18) (h16 : s.dbd.rep.toNat = 16 → 1 ≤ s.dbd.idx.toNat) :
    Good (stepLengthRepeat bit s) := by
  have hx : repExtra s.dbd.rep.toNat ≤ 32 := by unfold repExtra; split <;> [omega; (split <;> omega)]
  unfold stepLengthRepeat
  dsimp only
  rcases field_cases bit hr hx with ⟨h1, a, c, h2, h3⟩ | ⟨v, h1, hv, h2⟩ <;> rw [h1, h2] <;> dsimp only
  · exact ⟨hw, by simp [hd, DState.isOpen], hb, by simpa [phaseOk, hd] using ⟨h3, hl, hi, hp, h16⟩, he⟩
  · unfold onRepeat
    dsimp only
    split
    · exact good_fail (by decide) hw
    · rename_i hle
      have hval : (if s.dbd.rep.toNat = 16 then getLenAt (s.dbd.idx.toNat - 1) s else 0) ≤ 15 := by
        split
        · exact getLenAt_le hl _
        · omega
      have hle' : s.dbd.idx.toNat + (repBase s.dbd.rep.toNat + v.toNat) ≤ totalLens s.dbd := not_lt.1 hle
      obtain ⟨r1, r2, r3⟩ := appendLens_good hval (repBase s.dbd.rep.toNat + v.toNat)
        (s := s.setDbd { s.dbd with acc := 0, accn := 0 }) hw hl hle'
      have hc := hl.1
      have htot : totalLens s.dbd ≤ 316 := by have := hc.1.2; have := hc.2.1.2; unfold totalLens; omega
      show EngInv _
      apply lensDone_good
      · exact r1
      · show (appendLens _ _ (s.setDbd { s.dbd with acc := 0, accn := 0 })).dbd.bitcnt.toNat ≤ 8
        erw [r2]; exact hb
      · show (appendLens _ _ (s.setDbd { s.dbd with acc := 0, accn := 0 })).dbd.err = 0
        erw [r2]; exact he
      · show (appendLens _ _ (s.setDbd { s.dbd with acc := 0, accn := 0 })).dbd.acc = 0
        erw [r2]; rfl
      · show (appendLens _ _ (s.setDbd { s.dbd with acc := 0, accn := 0 })).dbd.accn = 0
        erw [r2]; rfl
      · rfl
      · show lensReading (appendLens _ _ (s.setDbd { s.dbd with acc := 0, accn := 0 })).htg
          { (appendLens _ _ (s.setDbd { s.dbd with acc := 0, accn := 0 })).dbd with rep := 0, dstate := .readCodeLengths }
        erw [r2]; exact r3
      · show (appendLens _ _ (s.setDbd { s.dbd with acc := 0, accn := 0 })).dbd.idx.toNat ≤ totalLens
          { (appendLens _ _ (s.setDbd { s.dbd with acc := 0, accn := 0 })).dbd with rep := 0, dstate := .readCodeLengths }
        erw [r2]
        show (BitVec.ofNat 9 (s.dbd.idx.toNat + (repBase s.dbd.rep.toNat + v.toNat))).toNat ≤ totalLens s.dbd
        simp only [BitVec.toNat_ofNat]; omega

end

/-! ## Compressed data -/

/-- Every copy length the tables give is 3 to 258 (R188, R189). -/
theorem lenBase_range : ∀ k ≤ 28, 3 ≤ lenBase.getD k 0 ∧ lenBase.getD k 0 + 2 ^ lenExtra.getD k 0 - 1 ≤ 258
    ∧ lenExtra.getD k 0 ≤ 5 := by
  decide

/-- Every distance the tables give is 1 to 32768 (R191, R192). -/
theorem distBase_range : ∀ k ≤ 29, 1 ≤ distBase.getD k 0 ∧ distBase.getD k 0 + 2 ^ distExtra.getD k 0 - 1 ≤ 32768
    ∧ distExtra.getD k 0 ≤ 13 := by
  decide

/-- The start of a copy: REM is the copy length. -/
theorem startCopy_good {s : State} {d : Dbd} (hw : s.htg.wf) (hb : d.bitcnt.toNat ≤ 8) (he : d.err = 0) (h1 : d.acc = 0)
    (h2 : d.accn = 0) (hl : d.lengthOk) (hd : 1 ≤ d.dist.toNat ∧ d.dist.toNat ≤ 32768) :
    EngInv (s.setDbd (startCopy d)) := by
  refine ⟨hw, rfl, hb, ⟨reading_zero (by omega) h1 h2, ?_, hd⟩, he⟩
  have e : (d.length.zeroExtend 16).toNat = d.length.toNat := by
    have := d.length.isLt
    simp; omega
  have := hl.1; have := hl.2
  show 1 ≤ (d.length.zeroExtend 16).toNat ∧ (d.length.zeroExtend 16).toNat ≤ 258
  omega

section
variable {s : State} (bit : Bool) (hw : s.htg.wf) (hb : s.dbd.bitcnt.toNat ≤ 8) (he : s.dbd.err = 0)
include hw hb he

theorem stepLiteralOrLength_good (hd : s.dbd.dstate = .readLiteralOrLength) (hr : s.dbd.reading 15) :
    Good (stepLiteralOrLength bit s) := by
  unfold stepLiteralOrLength
  dsimp only
  rcases code_cases (t := .ll) bit hr (by omega) hw.1 with ⟨h1, a, c, h2, h3⟩ | ⟨n, h1, hn, h2⟩ | h1
  · rw [h1, h2]
    exact ⟨hw, by simp [hd, DState.isOpen], hb, by simpa [phaseOk, hd] using h3, he⟩
  · rw [h1, h2]
    dsimp only
    unfold onLiteralOrLength
    split
    · refine ⟨hw, by simp [hd, emit, DState.isOpen], hb, ?_, he⟩
      simp only [phaseOk, emit, State.setDbd_dbd, hd]
      exact reading_zero (by omega) rfl rfl
    · split
      · exact endOfBlock_good hw hb he rfl rfl
      · split
        · rename_i h256 h257 h285
          have hk : n - 257 ≤ 28 := by omega
          have hrg := lenBase_range (n - 257) hk
          have hp : 1 ≤ 2 ^ lenExtra.getD (n - 257) 0 := Nat.one_le_two_pow
          have e1 : (BitVec.ofNat 5 (n - 257)).toNat = n - 257 := by simp; omega
          have e2 : (BitVec.ofNat 9 (lenBase.getD (n - 257) 0)).toNat = lenBase.getD (n - 257) 0 :=
            Nat.mod_eq_of_lt (by omega)
          by_cases hx : lenExtra.getD (n - 257) 0 > 0
          · simp only [if_pos hx]
            refine ⟨hw, rfl, hb, ?_, he⟩
            refine ⟨?_, ?_, ?_⟩
            · show Dbd.reading (lenExtra.getD (BitVec.ofNat 5 (n - 257)).toNat 0) _
              rw [e1]; exact reading_zero hx rfl rfl
            · show (BitVec.ofNat 5 (n - 257)).toNat ≤ 28
              omega
            · show (BitVec.ofNat 9 (lenBase.getD (n - 257) 0)).toNat = lenBase.getD (BitVec.ofNat 5 (n - 257)).toNat 0
              rw [e1, e2]
          · simp only [if_neg hx]
            refine ⟨hw, rfl, hb, ⟨reading_zero (by omega) rfl rfl, ?_⟩, he⟩
            show 3 ≤ (BitVec.ofNat 9 (lenBase.getD (n - 257) 0)).toNat ∧
              (BitVec.ofNat 9 (lenBase.getD (n - 257) 0)).toNat ≤ 258
            omega
        · exact good_fail (by decide) hw
  · rw [h1]
    refine good_fail (by decide) ?_
    unfold codeState
    split <;> exact hw

theorem stepLengthExtra_good (hd : s.dbd.dstate = .readLengthExtra)
    (hr : s.dbd.reading (lenExtra.getD s.dbd.lsym.toNat 0)) (hs : s.dbd.lsym.toNat ≤ 28)
    (hl : s.dbd.length.toNat = lenBase.getD s.dbd.lsym.toNat 0) : Good (stepLengthExtra bit s) := by
  have hrg := lenBase_range _ hs
  unfold stepLengthExtra
  dsimp only
  rcases field_cases bit hr (by omega) with ⟨h1, a, c, h2, h3⟩ | ⟨v, h1, hv, h2⟩ <;> rw [h1, h2] <;> dsimp only
  · exact ⟨hw, by simp [hd, DState.isOpen], hb, by simpa [phaseOk, hd] using ⟨h3, hs, hl⟩, he⟩
  · have hp : 2 ^ lenExtra.getD s.dbd.lsym.toNat 0 ≤ 2 ^ 5 := Nat.pow_le_pow_right (by omega) hrg.2.2
    have e : (s.dbd.length + v.setWidth 9).toNat = s.dbd.length.toNat + v.toNat := by
      simp only [BitVec.toNat_add, BitVec.toNat_setWidth]; omega
    refine ⟨hw, rfl, hb, ⟨reading_zero (by omega) rfl rfl, ?_⟩, he⟩
    show 3 ≤ (s.dbd.length + v.setWidth 9).toNat ∧ (s.dbd.length + v.setWidth 9).toNat ≤ 258
    omega

theorem stepDistance_good (hd : s.dbd.dstate = .readDistance) (hr : s.dbd.reading 15) (hl : s.dbd.lengthOk) :
    Good (stepDistance bit s) := by
  unfold stepDistance
  dsimp only
  rcases code_cases (t := .dist) bit hr (by omega) hw.2.1 with ⟨h1, a, c, h2, h3⟩ | ⟨n, h1, hn, h2⟩ | h1
  · rw [h1, h2]
    exact ⟨hw, by simp [hd, DState.isOpen], hb, by simpa [phaseOk, hd] using ⟨h3, hl⟩, he⟩
  · rw [h1, h2]
    dsimp only
    unfold onDistance
    split
    · exact good_fail (by decide) hw
    · rename_i h29
      have hrg := distBase_range n (by omega)
      have hp : 1 ≤ 2 ^ distExtra.getD n 0 := Nat.one_le_two_pow
      have e1 : (BitVec.ofNat 5 n).toNat = n := by simp; omega
      have e2 : (BitVec.ofNat 16 (distBase.getD n 0)).toNat = distBase.getD n 0 := Nat.mod_eq_of_lt (by omega)
      show EngInv _
      split
      · rename_i hx
        refine ⟨hw, rfl, hb, ⟨?_, ?_, ?_, hl⟩, he⟩
        · show Dbd.reading (distExtra.getD (BitVec.ofNat 5 n).toNat 0) _
          rw [e1]; exact reading_zero hx rfl rfl
        · show (BitVec.ofNat 5 n).toNat ≤ 29
          omega
        · show (BitVec.ofNat 16 (distBase.getD n 0)).toNat = distBase.getD (BitVec.ofNat 5 n).toNat 0
          rw [e1, e2]
      · refine startCopy_good hw hb he rfl rfl hl ?_
        show 1 ≤ (BitVec.ofNat 16 (distBase.getD n 0)).toNat ∧ (BitVec.ofNat 16 (distBase.getD n 0)).toNat ≤ 32768
        omega
  · rw [h1]
    refine good_fail (by decide) ?_
    unfold codeState
    split <;> exact hw

theorem stepDistanceExtra_good (hd : s.dbd.dstate = .readDistanceExtra)
    (hr : s.dbd.reading (distExtra.getD s.dbd.dsym.toNat 0)) (hs : s.dbd.dsym.toNat ≤ 29)
    (hq : s.dbd.dist.toNat = distBase.getD s.dbd.dsym.toNat 0) (hl : s.dbd.lengthOk) : Good (stepDistanceExtra bit s) := by
  have hrg := distBase_range _ hs
  unfold stepDistanceExtra
  dsimp only
  rcases field_cases bit hr (by omega) with ⟨h1, a, c, h2, h3⟩ | ⟨v, h1, hv, h2⟩ <;> rw [h1, h2] <;> dsimp only
  · exact ⟨hw, by simp [hd, DState.isOpen], hb, by simpa [phaseOk, hd] using ⟨h3, hs, hq, hl⟩, he⟩
  · have hp : 2 ^ distExtra.getD s.dbd.dsym.toNat 0 ≤ 2 ^ 13 := Nat.pow_le_pow_right (by omega) hrg.2.2
    have e : (s.dbd.dist + v.setWidth 16).toNat = s.dbd.dist.toNat + v.toNat := by
      simp only [BitVec.toNat_add, BitVec.toNat_setWidth]; omega
    show EngInv _
    refine startCopy_good hw hb he rfl rfl hl ?_
    show 1 ≤ (s.dbd.dist + v.setWidth 16).toNat ∧ (s.dbd.dist + v.setWidth 16).toNat ≤ 32768
    omega

omit bit in
theorem copyStep_good (hd : s.dbd.dstate = .copyFromHistory) (hr : s.dbd.reading 1)
    (hm : 1 ≤ s.dbd.rem.toNat ∧ s.dbd.rem.toNat ≤ 258) (hq : 1 ≤ s.dbd.dist.toNat ∧ s.dbd.dist.toNat ≤ 32768) :
    Good (copyStep s) := by
  have h0 : s.dbd.accn = 0 := BitVec.eq_of_toNat_eq (by have := hr.1; simp; omega)
  have h1 : s.dbd.acc = 0 := BitVec.eq_of_toNat_eq (by have := hr.2; simp [h0] at this; simp [this])
  have e : (s.dbd.rem - 1).toNat = s.dbd.rem.toNat - 1 := by bv_omega
  unfold copyStep
  dsimp only
  show EngInv _
  split
  · exact ⟨hw, rfl, hb, reading_zero (by omega) h1 h0, he⟩
  · rename_i hne
    have hne' : (s.dbd.rem - 1).toNat ≠ 0 := fun h => hne (BitVec.eq_of_toNat_eq (by simpa using h))
    refine ⟨hw, by simp [emit, hd, DState.isOpen], hb, ?_, he⟩
    simp only [phaseOk, emit, State.setDbd_dbd, hd]
    refine ⟨reading_zero (by omega) h1 h0, ?_, hq⟩
    show 1 ≤ (s.dbd.rem - 1).toNat ∧ (s.dbd.rem - 1).toNat ≤ 258
    omega

end

/-! ## A whole micro-step -/

/-- What Run may stop with from within the invariant: a refused byte, Done, no input left, or a failure. -/
def Stopped (c : Code) (t : State) : Prop :=
  (c = .overflow ∧ EngInv t ∧ t.dbd.outv = true)
  ∨ (c = .done ∧ EngInv t ∧ t.dbd.outv = false ∧ t.dbd.dstate = .done)
  ∨ (c = .ok ∧ EngInv t ∧ t.dbd.outv = false ∧ t.dbd.bitcnt = 0)
  ∨ Failed c t

theorem good_stopped {m : Micro} (h : Good m) : m.Satisfies EngInv Stopped := by
  cases m
  · exact h
  · exact .inr (.inr (.inr h))

/-- A state that reads a bit, one case a state. -/
theorem bitStep_good (bit : Bool) {s : State} (h : EngInv s) : Good (bitStep bit s) := by
  obtain ⟨hw, hopen, hb, hp, he⟩ := h
  unfold bitStep
  split <;> rename_i hd <;> simp only [phaseOk, hd] at hp
  · exact stepBlockHeader_good bit hw hb he hd hp
  · exact stepRawLength_good bit hw hb he hd hp
  · exact stepRawBytes_good bit hw hb he hd hp.1 hp.2
  · exact stepAlphabetHeader_good bit hw hb he hd hp
  · exact stepAlphabet_good bit hw hb he hd hp.1 hp.2.1 hp.2.2.1 hp.2.2.2.1 hp.2.2.2.2
  · exact stepCodeLengths_good bit hw hb he hd hp.1 hp.2.1 hp.2.2
  · exact stepLengthRepeat_good bit hw hb he hd hp.1 hp.2.1 hp.2.2.1 hp.2.2.2.1 hp.2.2.2.2
  · exact stepLiteralOrLength_good bit hw hb he hd hp
  · exact stepLengthExtra_good bit hw hb he hd hp.1 hp.2.1 hp.2.2
  · exact stepDistance_good bit hw hb he hd hp.1 hp.2
  · exact stepDistanceExtra_good bit hw hb he hd hp.1 hp.2.1 hp.2.2.1 hp.2.2.2
  all_goals first
    | exact ⟨hw, hopen, hb, by simp only [phaseOk, hd]; exact hp, he⟩
    | simp [hd, DState.isOpen] at hopen

/-- Taking a bit off keeps the invariant wherever a bit is held and the state is not Done. -/
theorem dropBit_good {s : State} (h : EngInv s) (hn : s.dbd.bitcnt ≠ 0) (hd : s.dbd.dstate ≠ .done) : EngInv (dropBit s) := by
  obtain ⟨hw, hopen, hb, hp, he⟩ := h
  have h0 : s.dbd.bitcnt.toNat ≠ 0 := fun e => hn (BitVec.eq_of_toNat_eq (by simpa using e))
  have e : (s.dbd.bitcnt - 1).toNat = s.dbd.bitcnt.toNat - 1 := by bv_omega
  refine ⟨hw, hopen, ?_, ?_, he⟩
  · show (s.dbd.bitcnt - 1).toNat ≤ 8
    omega
  · show phaseOk s.htg { s.dbd with bitbuf := s.dbd.bitbuf >>> 1, bitcnt := s.dbd.bitcnt - 1 }
    unfold phaseOk at hp ⊢
    dsimp only
    split <;> rename_i hs <;> simp only [hs] at hp <;> first | exact hp | exact absurd hs hd

/-- No byte pending: within the invariant the loop goes on, or stops. -/
theorem engineStep_stopped {s : State} (h : EngInv s) (ho : s.dbd.outv = false) : (engineStep s).Satisfies EngInv Stopped := by
  have hi : s.dbd.dstate ≠ .done → (inputStep s).Satisfies EngInv Stopped := by
    intro hd
    unfold inputStep
    split
    · rename_i h0
      exact .inr (.inr (.inl ⟨rfl, h, ho, h0⟩))
    · rename_i h0
      exact good_stopped (bitStep_good _ (dropBit_good h h0 hd))
  obtain ⟨hw, hopen, hb, hp, he⟩ := h
  unfold engineStep
  split <;> rename_i hd
  · exact .inr (.inl ⟨rfl, ⟨hw, hopen, hb, hp, he⟩, ho, hd⟩)
  · simp only [phaseOk, hd] at hp
    exact good_stopped (copyStep_good hw hb he hd hp.1 hp.2.1 hp.2.2)
  · simp only [phaseOk, hd] at hp
    exact good_stopped (stepSetup_good hw hb he hp.1)
  all_goals exact hi (by simp [hd])

/-- A pending byte: accepted, it is recorded; refused, Run stops with it still pending. -/
theorem drainStep_stopped {s : State} (h : EngInv s) (ho : s.dbd.outv = true) : (drainStep s).Satisfies EngInv Stopped := by
  obtain ⟨hw, hopen, hb, hp, he⟩ := h
  rcases drainStep_cases s with ⟨-, e⟩ | ⟨-, e⟩ <;> rw [e]
  · exact .inl ⟨rfl, ⟨hw, hopen, hb, hp, he⟩, ho⟩
  · exact ⟨hw, hopen, hb, hp, he⟩

/-- Every micro-step keeps the decoder's invariant or stops. -/
theorem microStep_stopped {s : State} (h : EngInv s) : (microStep s).Satisfies EngInv Stopped := by
  unfold microStep
  split
  · rename_i ho; exact drainStep_stopped h ho
  · rename_i ho; exact engineStep_stopped h (by simpa using ho)

/-- Run from within the invariant stops as `Stopped` says. -/
theorem run_stopped (n : Nat) {s : State} (h : EngInv s) : Stopped (run n s).1 (run n s).2 :=
  run_induct (P := EngInv) (Q := Stopped) (fun _ hs => microStep_stopped hs)
    (fun _ hs => .inr (.inr (.inr ⟨by decide, _, rfl, hs.tables⟩))) n s h

/-- Run keeps the form of the history ring: it records, and does nothing else to it. -/
theorem run_lzm_wf (n : Nat) {s : State} (h : s.lzm.wf) : (run n s).2.lzm.wf := by
  refine run_induct (P := fun t => t.lzm.wf) (Q := fun _ t => t.lzm.wf) (fun t ht => ?_) (fun _ ht => ht) n s h
  unfold microStep
  split
  · rcases drainStep_cases t with ⟨-, e⟩ | ⟨-, e⟩ <;> rw [e]
    · exact ht
    · exact Lzm.record_wf _ _ ht
  · have hk := engineStep_keeps t
    cases hm : engineStep t <;> rw [hm] at hk
    · show Lzm.wf _
      rw [hk.2.1]; exact ht
    · show Lzm.wf _
      rw [hk.2.1]; exact ht

end Sys2Proof.Machine
end

