-- ==== Sys2Proof/Laws/Commands.lean ====
section
/-! SUPPORT. The readings of DATA, the decoder commands case by case, and the host's accesses: what later proofs cite instead
of unfolding a meaning. -/

namespace Sys2Proof.Machine

/-! ## Readings of DATA (30_encoding.md R86) -/

theorem toNat_extract_low (v : Word) : (v.extractLsb' 0 8).toNat = v.toNat % 256 := by simp [BitVec.extractLsb'_toNat]

theorem toNat_extract_high (v : Word) : (v.extractLsb' 8 24).toNat = v.toNat / 256 := by
  have := v.isLt
  simp [BitVec.extractLsb'_toNat, Nat.shiftRight_eq_div_pow]
  omega

/-- BYTE is legal exactly up to 255. -/
theorem readByte_some {v : Word} (h : v.toNat ≤ 255) : readByte v = some (BitVec.ofNat 8 v.toNat) := by
  have h1 : v.extractLsb' 8 24 = 0 := BitVec.eq_of_toNat_eq (by rw [toNat_extract_high]; simp; omega)
  have h2 : v.extractLsb' 0 8 = BitVec.ofNat 8 v.toNat := BitVec.eq_of_toNat_eq (by rw [toNat_extract_low]; simp)
  rw [readByte, if_pos h1, h2]

theorem readByte_none {v : Word} (h : 255 < v.toNat) : readByte v = none := by
  have h1 : v.extractLsb' 8 24 ≠ 0 := by
    intro e
    have := toNat_extract_high v
    rw [e] at this
    simp at this
    omega
  rw [readByte, if_neg h1]

/-- BM1 is -1 exactly for the word of all ones. -/
theorem readBm1_minusOne : readBm1 0xFFFFFFFF = some .minusOne := by decide

theorem readBm1_byte {v : Word} (h : v.toNat ≤ 255) : readBm1 v = some (.byte (BitVec.ofNat 8 v.toNat)) := by
  have e : readS32 v = (v.toNat : Int) := by
    unfold readS32
    rw [BitVec.toInt_eq_toNat_of_lt (by omega)]
  have h2 : v.extractLsb' 0 8 = BitVec.ofNat 8 v.toNat := BitVec.eq_of_toNat_eq (by rw [toNat_extract_low]; simp)
  unfold readBm1
  rw [e, if_neg (by omega), if_neg (by omega), h2]

theorem readBm1_none {v : Word} (h : ¬IsBm1 v) : readBm1 v = none := by
  have h1 : v ≠ 0xFFFFFFFF := fun e => h (.inl e)
  have h2 : 255 < v.toNat := not_le.1 fun e => h (.inr e)
  have h3 : v.toNat ≠ 0xFFFFFFFF := fun e => h1 (BitVec.eq_of_toNat_eq e)
  have := v.isLt
  have e := BitVec.toInt_eq_toNat_cond v
  unfold readBm1 readS32
  split at e
  · rw [if_neg (by omega), if_pos (by omega)]
  · rw [if_neg (by omega), if_pos (by omega)]

/-- The legal BM1 words are exactly those `readBm1` answers for. -/
theorem readBm1_isSome (v : Word) : (∃ x, readBm1 v = some x) ↔ IsBm1 v := by
  constructor
  · rintro ⟨x, hx⟩
    by_contra h
    rw [readBm1_none h] at hx
    cases hx
  · rintro (rfl | h)
    · exact ⟨_, readBm1_minusOne⟩
    · exact ⟨_, readBm1_byte h⟩

/-! ## Sessions -/

theorem sessionOpen_iff (s : State) :
    sessionOpen s = true ↔ s.dbd.dstate ≠ .idle ∧ s.dbd.dstate ≠ .error ∧ s.dbd.dstate ≠ .closed := by
  unfold sessionOpen
  cases s.dbd.dstate <;> simp [DState.isOpen]

/-! ## DEC.ONE and DEC.FINISH, case by case (42_decoder.md R163, R164) -/

theorem execDecOne_open {v : Word} {s : State} {x : Bm1} (ho : sessionOpen s = true) (hx : readBm1 v = some x) :
    execDecOne v s = .next (oneEnd (runEngine (loadByte x s))) := by
  unfold sessionOpen at ho
  unfold execDecOne
  split <;> rename_i hd <;> first | (rw [hd] at ho; contradiction) | simp only [hx]

theorem execDecOne_badParam {v : Word} {s : State} (ho : sessionOpen s = true) (hx : readBm1 v = none) :
    execDecOne v s = .next (raise .badParam s) := by
  unfold sessionOpen at ho
  unfold execDecOne
  split <;> rename_i hd <;> first | (rw [hd] at ho; contradiction) | simp only [hx]

theorem execDecOne_idle (v : Word) {s : State} (h : s.dbd.dstate = .idle) : execDecOne v s = .next (raise .badState s) := by
  simp only [execDecOne, h]

theorem execDecOne_closed (v : Word) {s : State} (h : s.dbd.dstate = .closed) :
    execDecOne v s = .next (raise .badState s) := by
  simp only [execDecOne, h]

theorem execDecOne_error (v : Word) {s : State} (h : s.dbd.dstate = .error) :
    execDecOne v s = .next (finishBits s.dbd.err 0 s) := by
  simp only [execDecOne, h]

theorem execDecFinish_open {s : State} (ho : sessionOpen s = true) : execDecFinish s = .next (finishEnd (runEngine s)) := by
  unfold sessionOpen at ho
  unfold execDecFinish
  split <;> rename_i hd <;> first | (rw [hd] at ho; contradiction) | rfl

theorem execDecFinish_idle {s : State} (h : s.dbd.dstate = .idle) : execDecFinish s = .next (raise .badState s) := by
  simp only [execDecFinish, h]

theorem execDecFinish_closed {s : State} (h : s.dbd.dstate = .closed) : execDecFinish s = .next (finish .done 0 s) := by
  simp only [execDecFinish, h]

theorem execDecFinish_error {s : State} (h : s.dbd.dstate = .error) :
    execDecFinish s = .next (finishBits s.dbd.err 0 s) := by
  simp only [execDecFinish, h]

/-- A byte is loaded, or the machine stays (R163). -/
theorem loadByte_cases (x : Bm1) (s : State) :
    loadByte x s = s ∨ ∃ b, x = .byte b ∧ s.dbd.hold = false ∧ s.dbd.dstate ≠ .done ∧
      loadByte x s = s.setDbd { s.dbd with bitbuf := b, bitcnt := 8, dictOpen := false } := by
  cases x with
  | minusOne => exact .inl rfl
  | byte b =>
    by_cases h : (!s.dbd.hold) = true ∧ s.dbd.dstate ≠ .done
    · exact .inr ⟨b, rfl, by simpa using h.1, h.2, by simp only [loadByte, if_pos h]⟩
    · exact .inl (by simp only [loadByte, if_neg h])

/-- The end of DEC.FINISH, one case for each kind of stop. -/
theorem finishEnd_overflow (s : State) : finishEnd (.overflow, s) = finish .overflow 0 (setHold true s) := rfl

theorem finishEnd_done (s : State) :
    finishEnd (.done, s) = finish .done 0 ((setHold false s).setDbd { (setHold false s).dbd with dstate := .closed }) := rfl

theorem finishEnd_ok (s : State) : finishEnd (.ok, s) = finish .eof 0 (fail .eof (setHold false s)) := rfl

theorem finishEnd_other {c : Code} (s : State) (h1 : c ≠ .overflow) (h2 : c ≠ .done) (h3 : c ≠ .ok) :
    finishEnd (c, s) = finish c 0 (setHold false s) := by
  cases c <;> first | rfl | contradiction

/-- A failure's registers already hold HOLD = 0. -/
theorem setHold_fail (c : Code) (s : State) : setHold false (fail c s) = fail c s := rfl

/-! ## The host's accesses (20_memory.md R61 to R63) -/

theorem hostReg_none {offset width : Nat} (h : width ≠ 4 ∨ offset % 4 ≠ 0 ∨ 0x10 ≤ offset) :
    hostReg offset width = none := by
  unfold hostReg
  split
  · split <;> first | rfl | (exfalso; omega)
  · rfl

theorem step_write {s : State} {offset width : Nat} {w : Word} {rest : List HostAccess}
    (h : s.env.host = .write offset width w :: rest) : step s = access (.write offset width w) (s.setHost rest) := by
  simp only [step, hostStep, h]

theorem step_read {s : State} {offset width : Nat} {rest : List HostAccess} (h : s.env.host = .read offset width :: rest) :
    step s = access (.read offset width) (s.setHost rest) := by
  simp only [step, hostStep, h]

theorem step_reset {s : State} {rest : List HostAccess} (h : s.env.host = .reset :: rest) :
    step s = .next (resetBlock (s.setHost rest)) := by
  simp only [step, hostStep, h, access]

theorem step_idle {s : State} (h : s.env.host = []) : step s = .next s := by simp only [step, hostStep, h]

theorem access_cmd (w : Word) (s : State) : access (.write 0x00 4 w) s = issue w s := rfl
theorem access_data (w : Word) (s : State) : access (.write 0x04 4 w) s = .next { s with data := w } := rfl

theorem issue_ok {w : Word} {s : State} {i : Instr} (h : decode w s.data = .ok i) : issue w s = exec i { s with cmd := w } := by
  simp only [issue, h]

theorem issue_error {w : Word} {s : State} {e : DecodeError} (h : decode w s.data = .error e) :
    issue w s = .next (raise .badParam { s with cmd := w }) := by
  simp only [issue, h]

end Sys2Proof.Machine
end

