-- ==== Sys2Proof/Laws/PerInstr.lean ====
section
/-! SUPPORT. One lemma for each command: the row of the opcode map it stands in, the fields its format does not use being 0,
and the row building it back from its fields. -/

namespace Sys2Proof.Laws.OpcodeRow

/-- The command stands in a row of the opcode map (30_encoding.md R87), encodes 0 in every field its format does not use
(R89), and, where its index fits IDX, is what its row builds from its fields. -/
def Statement (i : Instr) : Prop :=
  ∃ r ∈ opcodeRows, r.opc = i.opc
    ∧ (r.format.usesTsel = false → i.tselField = 0) ∧ (r.format.usesIdx = false → i.idxField = 0)
    ∧ (r.format.usesData = false → i.dataField = 0)
    ∧ (i.wellFormed = true → ∃ t : Slot, (r.format.usesTsel = true → t.tsel = i.tselField)
        ∧ r.build t i.idxField i.dataField = i)

/-- The row at position `n` of the map, and what it must satisfy. -/
theorem of_row {i : Instr} (n : Nat) {r : Row} (hr : opcodeRows[n]? = some r) (ho : r.opc = i.opc)
    (ht : r.format.usesTsel = false → i.tselField = 0) (hi : r.format.usesIdx = false → i.idxField = 0)
    (hd : r.format.usesData = false → i.dataField = 0)
    (hb : i.wellFormed = true → ∃ t : Slot, (r.format.usesTsel = true → t.tsel = i.tselField)
        ∧ r.build t i.idxField i.dataField = i) : Statement i :=
  ⟨r, List.mem_iff_getElem?.2 ⟨n, hr⟩, ho, ht, hi, hd, hb⟩

theorem nop : Statement .nop :=
  of_row 0 rfl rfl (fun _ => rfl) (fun _ => rfl) (fun _ => rfl) fun _ => ⟨.ll, nofun, rfl⟩

theorem htResize (t : Slot) (n : Word) : Statement (.htResize t n) :=
  of_row 1 rfl rfl nofun (fun _ => rfl) nofun fun _ => ⟨t, fun _ => rfl, rfl⟩

theorem htSetlen (t : Slot) (i : Nat) (len : Word) : Statement (.htSetlen t i len) :=
  of_row 2 rfl rfl nofun nofun nofun fun h => ⟨t, fun _ => rfl, congrArg (Instr.htSetlen t · len) (idx_roundtrip h)⟩

theorem htGetent (t : Slot) (i : Nat) : Statement (.htGetent t i) :=
  of_row 3 rfl rfl nofun nofun (fun _ => rfl) fun h => ⟨t, fun _ => rfl, congrArg (Instr.htGetent t) (idx_roundtrip h)⟩

theorem htSize (t : Slot) : Statement (.htSize t) :=
  of_row 4 rfl rfl nofun (fun _ => rfl) (fun _ => rfl) fun _ => ⟨t, fun _ => rfl, rfl⟩

theorem htAssign (t : Slot) : Statement (.htAssign t) :=
  of_row 5 rfl rfl nofun (fun _ => rfl) (fun _ => rfl) fun _ => ⟨t, fun _ => rfl, rfl⟩

theorem htHist (t : Slot) (maxLen : Word) : Statement (.htHist t maxLen) :=
  of_row 6 rfl rfl nofun (fun _ => rfl) nofun fun _ => ⟨t, fun _ => rfl, rfl⟩

theorem htLookup (t : Slot) (length : Word) (bits : BitVec 16) : Statement (.htLookup t length bits) :=
  of_row 7 rfl rfl nofun nofun nofun fun _ => ⟨t, fun _ => rfl, rfl⟩

theorem htLoadfixed (t : Slot) : Statement (.htLoadfixed t) :=
  of_row 8 rfl rfl nofun (fun _ => rfl) (fun _ => rfl) fun _ => ⟨t, fun _ => rfl, rfl⟩

theorem histClear : Statement .histClear :=
  of_row 9 rfl rfl (fun _ => rfl) (fun _ => rfl) (fun _ => rfl) fun _ => ⟨.ll, nofun, rfl⟩

theorem histSet (i : Nat) (f : Word) : Statement (.histSet i f) :=
  of_row 10 rfl rfl (fun _ => rfl) nofun nofun fun h => ⟨.ll, nofun, congrArg (Instr.histSet · f) (idx_roundtrip h)⟩

theorem histInc (i : Nat) : Statement (.histInc i) :=
  of_row 11 rfl rfl (fun _ => rfl) nofun (fun _ => rfl) fun h => ⟨.ll, nofun, congrArg Instr.histInc (idx_roundtrip h)⟩

theorem histGet (i : Nat) : Statement (.histGet i) :=
  of_row 12 rfl rfl (fun _ => rfl) nofun (fun _ => rfl) fun h => ⟨.ll, nofun, congrArg Instr.histGet (idx_roundtrip h)⟩

theorem hrConfig (wb : Word) : Statement (.hrConfig wb) :=
  of_row 13 rfl rfl (fun _ => rfl) (fun _ => rfl) nofun fun _ => ⟨.ll, nofun, rfl⟩

theorem hrRecord (b : Word) : Statement (.hrRecord b) :=
  of_row 14 rfl rfl (fun _ => rfl) (fun _ => rfl) nofun fun _ => ⟨.ll, nofun, rfl⟩

theorem hrRecskip (b : Word) : Statement (.hrRecskip b) :=
  of_row 15 rfl rfl (fun _ => rfl) (fun _ => rfl) nofun fun _ => ⟨.ll, nofun, rfl⟩

theorem hrGet (d : Nat) : Statement (.hrGet d) :=
  of_row 16 rfl rfl (fun _ => rfl) nofun (fun _ => rfl) fun h => ⟨.ll, nofun, congrArg Instr.hrGet (idx_roundtrip h)⟩

theorem mhFind (triple : Word) (hint : Nat) : Statement (.mhFind triple hint) :=
  of_row 17 rfl rfl (fun _ => rfl) nofun nofun fun h => ⟨.ll, nofun, congrArg (Instr.mhFind triple) (idx_roundtrip h)⟩

theorem decStart (params : Word) : Statement (.decStart params) :=
  of_row 18 rfl rfl (fun _ => rfl) (fun _ => rfl) nofun fun _ => ⟨.ll, nofun, rfl⟩

theorem decDict (v : Word) : Statement (.decDict v) :=
  of_row 19 rfl rfl (fun _ => rfl) (fun _ => rfl) nofun fun _ => ⟨.ll, nofun, rfl⟩

theorem decOne (v : Word) : Statement (.decOne v) :=
  of_row 20 rfl rfl (fun _ => rfl) (fun _ => rfl) nofun fun _ => ⟨.ll, nofun, rfl⟩

theorem decFinish : Statement .decFinish :=
  of_row 21 rfl rfl (fun _ => rfl) (fun _ => rfl) (fun _ => rfl) fun _ => ⟨.ll, nofun, rfl⟩

theorem decStatus : Statement .decStatus :=
  of_row 22 rfl rfl (fun _ => rfl) (fun _ => rfl) (fun _ => rfl) fun _ => ⟨.ll, nofun, rfl⟩

end Sys2Proof.Laws.OpcodeRow
end

