-- ==== Sys2Proof/Tests/Slice0.lean ====
section
/-! SUPPORT. The model's own tests: ill-formed terms refused, each command's word decoded, one step of each command on a small
state with the result the spec's vectors give, and a witness for each statement with premises. -/

namespace Sys2Proof.Tests
open Sys2Proof.Machine

/-! ## Helpers -/

/-- The next state, if there is one. -/
def got (o : Host.Outcome State Fault Refusal) : Option State :=
  match o with
  | .next s => some s
  | .fault _ => none
  | .refused _ => none

/-- STATUS and VALUE after a command. -/
def report (i : Instr) (s : State) : Option (Word × Word) := (got (exec i s)).map fun t => (t.status, t.value)

/-- One observation of the state after a command. -/
def after {α : Type} (i : Instr) (s : State) (f : State → α) : Option α := (got (exec i s)).map f

/-- No session, nothing set. -/
def z : State := State.reset

/-- An open session; with the preset flag for the second. -/
def opened : State := z.setDbd (Dbd.started ⟨8, 0, 0, false⟩)
def primed : State := z.setDbd (Dbd.started ⟨8, 0, 0, true⟩)

/-- A session stopped by BadBlockType, and one that is Closed. -/
def errored : State := fail .badBlockType opened
def closed : State := z.setDbd { Dbd.reset with dstate := .closed }

/-- An open session in a given decoder state. -/
def inState (d : DState) : State := opened.setDbd { opened.dbd with dstate := d }

/-- The LL slot holding these lengths. -/
def lens (ls : List Nat) : State := z.setTable .ll (setLens (freshTable ls.length) ls)

/-- The fixed LL table loaded. -/
def fixed : State := z.setTable .ll fixedLl

/-- HIST holding these words, 0 above them, with an LL slot as long. -/
def freqs (fs : List Word) : State := (lens (fs.map fun _ => 0)).setHist (Vector.ofFn fun i => fs.getD i.val 0)

/-- The ring after these bytes are recorded with insertion. -/
def ring (bs : List Byte) : State := z.setLzm (recordAll bs Lzm.reset)

/-- The bytes of "abcabcabd" (95_test_vectors.md V-LZM-1). -/
def abc : State := ring [0x61, 0x62, 0x63, 0x61, 0x62, 0x63, 0x61, 0x62, 0x64]

/-! ## WellFormed refuses an index IDX cannot carry, and admits the largest it can (30_encoding.md R81) -/

theorem test_wellFormed_htSetlen : (Instr.htSetlen .ll 65536 0).wellFormed = false := by decide
theorem test_wellFormed_htGetent : (Instr.htGetent .cl 65536).wellFormed = false := by decide
theorem test_wellFormed_histSet : (Instr.histSet 65536 0).wellFormed = false := by decide
theorem test_wellFormed_histInc : (Instr.histInc 65536).wellFormed = false := by decide
theorem test_wellFormed_histGet : (Instr.histGet 65536).wellFormed = false := by decide
theorem test_wellFormed_hrGet : (Instr.hrGet 65536).wellFormed = false := by decide
theorem test_wellFormed_mhFind : (Instr.mhFind 0 65536).wellFormed = false := by decide
theorem test_wellFormed_largest : (Instr.hrGet 65535).wellFormed = true := by decide

/-! ## Words written out from R81 and R87: IDX in [25:10], TSEL in [9:8], OPC in [7:0] -/

theorem test_decode_nop : decode 0b000000_0000000000000000_00_00000000 0 = .ok .nop := by decide
theorem test_decode_htResize : decode 0b000000_0000000000000000_01_00000001 30 = .ok (.htResize .dist 30) := by decide
theorem test_decode_htSetlen : decode 0b000000_0000000000000101_00_00000010 2 = .ok (.htSetlen .ll 5 2) := by decide
theorem test_decode_htGetent : decode 0b000000_0000000000000111_10_00000011 0 = .ok (.htGetent .cl 7) := by decide
theorem test_decode_htSize : decode 0b000000_0000000000000000_01_00000100 0 = .ok (.htSize .dist) := by decide
theorem test_decode_htAssign : decode 0b000000_0000000000000000_10_00000101 0 = .ok (.htAssign .cl) := by decide
theorem test_decode_htHist : decode 0b000000_0000000000000000_00_00000110 7 = .ok (.htHist .ll 7) := by decide
theorem test_decode_htLookup : decode 0b000000_0000000000001110_00_00000111 4 = .ok (.htLookup .ll 4 0xE) := by decide
theorem test_decode_htLoadfixed : decode 0b000000_0000000000000000_01_00001000 0 = .ok (.htLoadfixed .dist) := by decide
theorem test_decode_histClear : decode 0b000000_0000000000000000_00_00001001 0 = .ok .histClear := by decide
theorem test_decode_histSet : decode 0b000000_0000000000000011_00_00001010 9 = .ok (.histSet 3 9) := by decide
theorem test_decode_histInc : decode 0b000000_0000000100011111_00_00001011 0 = .ok (.histInc 287) := by decide
theorem test_decode_histGet : decode 0b000000_1111111111111111_00_00001100 0 = .ok (.histGet 65535) := by decide
theorem test_decode_hrConfig : decode 0b000000_0000000000000000_00_00010000 7 = .ok (.hrConfig 7) := by decide
theorem test_decode_hrRecord : decode 0b000000_0000000000000000_00_00010001 0x61 = .ok (.hrRecord 0x61) := by decide
theorem test_decode_hrRecskip : decode 0b000000_0000000000000000_00_00010010 3 = .ok (.hrRecskip 3) := by decide
theorem test_decode_hrGet : decode 0b000000_0000000000001001_00_00010011 0 = .ok (.hrGet 9) := by decide
theorem test_decode_mhFind :
    decode 0b000000_0000000000000110_00_00010100 0x636261 = .ok (.mhFind 0x636261 6) := by decide
theorem test_decode_decStart : decode 0b000000_0000000000000000_00_00100000 0x408 = .ok (.decStart 0x408) := by decide
theorem test_decode_decDict : decode 0b000000_0000000000000000_00_00100001 0x41 = .ok (.decDict 0x41) := by decide
theorem test_decode_decOne :
    decode 0b000000_0000000000000000_00_00100010 0xFFFFFFFF = .ok (.decOne 0xFFFFFFFF) := by decide
theorem test_decode_decFinish : decode 0b000000_0000000000000000_00_00100011 0 = .ok .decFinish := by decide
theorem test_decode_decStatus : decode 0b000000_0000000000000000_00_00100100 0 = .ok .decStatus := by decide

/-- The opcode table's numbering: DATA from bit 32 up. -/
theorem test_decodeTableWord : decodeTableWord 64 0x0000000200001402 = some (.htSetlen .ll 5 2) := by decide

/-- The 64-bit word of R80. -/
theorem test_decodeWord : decodeWord 0x00000061_00000011 = .ok (.hrRecord 0x61) := by decide

/-- Each check of R96, at the edges of its range. -/
theorem test_decode_rejects :
    decode 0x04000000 0 = .error .reservedBits ∧ decode 0x80000024 0 = .error .reservedBits
    ∧ decode 0x0D 0 = .error .reservedOpcode ∧ decode 0x0F 0 = .error .reservedOpcode
    ∧ decode 0x15 0 = .error .reservedOpcode ∧ decode 0x1F 0 = .error .reservedOpcode
    ∧ decode 0x25 0 = .error .reservedOpcode ∧ decode 0xFF 0 = .error .reservedOpcode
    ∧ decode 0x00000400 0 = .error .unusedField ∧ decode 0x00000100 0 = .error .unusedField
    ∧ decode 0x00000000 1 = .error .unusedField ∧ decode 0x00000704 0 = .error .unusedField
    ∧ decode 0x00000304 0 = .error .badTableSelect := by decide

/-! ## The host port -/

/-- The very next step after `withFetchWord` runs the command: HIST.SET 3, 9. -/
theorem test_withFetchWord :
    (got (step (z.withFetchWord 64 0x0000000900000C0A))).map (fun t => (t.status, t.htg.hist[3]?)) = some (0, some 9) := by
  decide +kernel

/-- A CMD word that fails a check reports BadParam, and CMD holds it. -/
theorem test_badCommand :
    (got (step (z.setHost [.write 0x00 4 0x304]))).map (fun t => (t.status, t.value, t.cmd)) = some (0x13, 0, 0x304) := by
  decide +kernel

/-! ## The Huffman table generator (95_test_vectors.md) -/

theorem test_nop : report .nop opened = some (0x00, 0) := by decide

/-- V-HTG-L13 and V-HTG-L14. -/
theorem test_htResize_outOfMemory :
    report (.htResize .ll 0xFFFFFFFF) fixed = some (0x11, 0) ∧ report (.htResize .ll 289) fixed = some (0x11, 0) := by
  decide +kernel

/-- V-HTG-L15 and V-HTG-L16: entries kept, and a fresh entry. -/
theorem test_htResize :
    after (.htResize .ll 10) fixed (fun t => (t.table .ll)[9]?) = some (some ⟨8, 0x39, 9⟩)
    ∧ after (.htResize .ll 12) (lens [1, 1]) (fun t => (t.table .ll)[11]?) = some (some ⟨0, 0, 11⟩) := by
  decide +kernel

/-- V-HTG-L17 and V-HTG-L18, and a length written. -/
theorem test_htSetlen :
    report (.htSetlen .ll 2 3) (lens [1, 1]) = some (0x13, 0) ∧ report (.htSetlen .ll 0 32) (lens [1, 1]) = some (0x13, 0)
    ∧ after (.htSetlen .ll 1 31) (lens [1, 1]) (fun t => lengthsOf (t.table .ll)) = some [1, 31] := by
  decide +kernel

/-- V-HTG-L11 and V-HTG-L12. -/
theorem test_htGetent :
    report (.htGetent .ll 65) fixed = some (0x00, 0x08280071) ∧ report (.htGetent .ll 288) fixed = some (0x13, 0) := by
  decide +kernel

/-- V-HTG-F9. -/
theorem test_htSize : report (.htSize .ll) fixed = some (0x00, 288) := by decide +kernel

/-- V-HTG-C1. -/
theorem test_htAssign :
    after (.htAssign .ll) (lens [3, 3, 3, 3, 3, 2, 4, 4]) (fun t => (t.table .ll).map fun e => e.pat)
      = some [0b010, 0b011, 0b100, 0b101, 0b110, 0b00, 0b1110, 0b1111] := by
  decide +kernel

/-- V-HTG-C10 and V-HTG-C9: the Kraft test before the range test. -/
theorem test_htAssign_fails :
    report (.htAssign .ll) (lens [1, 1, 1, 16]) = some (0x15, 0) ∧ report (.htAssign .ll) (lens [1, 0, 16]) = some (0x14, 0) := by
  decide +kernel

/-- V-HTG-H5 and V-HTG-H12. -/
theorem test_htHist :
    after (.htHist .ll 15) (freqs [5, 0, 5, 5]) (fun t => lengthsOf (t.table .ll)) = some [2, 0, 2, 1]
    ∧ after (.htHist .ll 3) (freqs [10, 6, 2, 1, 1]) (fun t => lengthsOf (t.table .ll)) = some [1, 3, 3, 3, 3] := by
  decide +kernel

/-- V-HTG-H13 and V-HTG-H15. -/
theorem test_htHist_badParam :
    report (.htHist .ll 1) (freqs [1, 1, 1]) = some (0x13, 0) ∧ report (.htHist .ll 16) (freqs [1, 1]) = some (0x13, 0) := by
  decide +kernel

/-- V-HTG-L1, V-HTG-L6 and V-HTG-L7. -/
theorem test_htLookup :
    report (.htLookup .ll 8 0x71) fixed = some (0x00, 65) ∧ report (.htLookup .ll 8 0x30) fixed = some (0x00, 0)
    ∧ report (.htLookup .ll 7 0x18) fixed = some (0x03, 0) := by
  decide +kernel

/-- V-HTG-L9 and V-HTG-L10. -/
theorem test_htLookup_badBitLength :
    report (.htLookup .ll 0 0) fixed = some (0x1A, 0) ∧ report (.htLookup .ll 16 0) fixed = some (0x1A, 0) := by
  decide +kernel

/-- V-HTG-F3 and V-HTG-F11. -/
theorem test_htLoadfixed :
    after (.htLoadfixed .ll) z (fun t => (t.table .ll)[144]?) = some (some ⟨9, 0x190, 144⟩)
    ∧ report (.htLoadfixed .cl) z = some (0x13, 0) := by
  decide +kernel

/-- V-HTG-S1. -/
theorem test_histClear : after .histClear (freqs [7, 7]) (fun t => (t.htg.hist[1]?, t.htg.hist[287]?)) = some (some 0, some 0) := by
  decide +kernel

/-- V-HTG-S2 and V-HTG-S4. -/
theorem test_histSet :
    after (.histSet 3 9) (freqs []) (fun t => t.htg.hist[3]?) = some (some 9)
    ∧ report (.histSet 288 1) z = some (0x13, 0) := by
  decide +kernel

/-- V-HTG-S3: the addition wraps. -/
theorem test_histInc : after (.histInc 1) (freqs [5, 0xFFFFFFFF]) (fun t => (t.htg.hist[0]?, t.htg.hist[1]?)) = some (some 5, some 0) := by
  decide +kernel

/-- V-HTG-S2 and V-HTG-S5. -/
theorem test_histGet : report (.histGet 1) (freqs [5, 9]) = some (0x00, 9) ∧ report (.histGet 288) z = some (0x13, 0) := by
  decide +kernel

/-! ## The history ring and match finder -/

/-- V-LZM-E1 and V-LZM-E6. -/
theorem test_hrConfig :
    report (.hrConfig 8) abc = some (0x10, 0)
    ∧ after (.hrConfig 7) abc (fun t => (t.lzm.window, t.lzm.fill, t.lzm.get 1)) = some (32768, 0, 0) := by
  decide +kernel

/-- V-LZM-E2, and a recorded byte. -/
theorem test_hrRecord :
    report (.hrRecord 0x100) abc = some (0x13, 0)
    ∧ after (.hrRecord 0x65) abc (fun t => (t.lzm.get 1, t.lzm.get 2, t.lzm.find ⟨0x62, 0x64, 0x65⟩ 0)) = some (0x65, 0x64, 3) := by
  decide +kernel

/-- V-LZM-13: the triple a skip record completes is not inserted. -/
theorem test_hrRecskip :
    after (.hrRecskip 3) (ring [1, 2]) (fun t => (t.lzm.get 1, t.lzm.find ⟨1, 2, 3⟩ 0)) = some (3, 0) := by
  decide +kernel

/-- V-LZM-7. -/
theorem test_hrGet :
    report (.hrGet 1) abc = some (0, 0x64) ∧ report (.hrGet 9) abc = some (0, 0x61) ∧ report (.hrGet 10) abc = some (0, 0)
    ∧ report (.hrGet 0) abc = some (0, 0) := by
  decide +kernel

/-- V-LZM-1, V-LZM-2, V-LZM-3. -/
theorem test_mhFind :
    report (.mhFind 0x636261 0) abc = some (0, 6) ∧ report (.mhFind 0x636261 6) abc = some (0, 9)
    ∧ report (.mhFind 0x636261 9) abc = some (0, 0) := by
  decide +kernel

/-- V-LZM-8: triples overlap. -/
theorem test_mhFind_overlap :
    report (.mhFind 0x616161 0) (ring [0x61, 0x61, 0x61, 0x61]) = some (0, 3)
    ∧ report (.mhFind 0x616161 3) (ring [0x61, 0x61, 0x61, 0x61]) = some (0, 4) := by
  decide +kernel

/-! ## The decoder -/

/-- V-DBD-S3, V-DBD-S4 and V-DBD-S5. -/
theorem test_decStart_rejects :
    report (.decStart 0x07) z = some (0x10, 0) ∧ report (.decStart 0x88) z = some (0x10, 0)
    ∧ report (.decStart 0x808) z = some (0x13, 0) := by
  decide +kernel

/-- DEC.START 8, 3, 2, 1 from Error (60_exceptions.md R237). -/
theorem test_decStart :
    after (.decStart 0x638) errored (fun t => (t.status, t.dbd.dstate, t.dbd.err, t.lzm.wb, t.dbd.level, t.dbd.preset))
      = some (0, .readBlockHeader, 0, 3, 2, true) := by
  decide +kernel

/-- V-DBD-S8, and the byte recorded under the preset flag. -/
theorem test_decDict :
    report (.decDict 0x41) opened = some (0x10, 0) ∧ after (.decDict 0x41) primed (fun t => t.lzm.get 1) = some 0x41 := by
  decide +kernel

/-- V-DBD-E1: BTYPE 3. -/
theorem test_decOne_badBlockType :
    after (.decOne 0x07) opened (fun t => (t.status, t.value, engineValue t.dbd)) = some (0x16, 0, 0x0000164F) := by
  decide +kernel

/-- V-DBD-2's second byte, after its first: the literal 'A' is put. -/
theorem test_decOne_literal :
    after (.decOne 0x04)
        (((opened.setTable .ll fixedLl).setTable .dist fixedDist).setSink [.accepted]
          |>.setDbd { opened.dbd with dstate := .readLiteralOrLength, bfinal := true, acc := 0b01110, accn := 5 })
        (fun t => (t.status, t.env.out, t.lzm.get 1, t.dbd.dstate, t.dbd.accn))
      = some (0x00, [0x41], 0x41, .readLiteralOrLength, 5) := by
  decide +kernel

/-- V-DBD-E4: Eof, and what DEC.STATUS then reads. -/
theorem test_decFinish_eof :
    after .decFinish opened (fun t => (t.status, t.value, engineValue t.dbd)) = some (0x19, 0, 0x0000190F) := by
  decide +kernel

/-- V-DBD-S1 and V-DBD-S11. -/
theorem test_decFinish_noSession : report .decFinish z = some (0x12, 0) ∧ report .decFinish closed = some (0x02, 0) := by
  decide +kernel

/-- V-DBD-F1: DSTATE 9, HOLD 1, FINAL 1, OUTV 1, BITCNT 5. -/
theorem test_decStatus :
    report .decStatus
        (opened.setDbd { opened.dbd with dstate := .readLiteralOrLength, hold := true, bfinal := true, outv := true, bitcnt := 5 })
      = some (0, 0x000500E9) := by
  decide +kernel

/-! ## Witnesses: for each statement with premises, a state and operands that meet them, clause by clause -/

/-- The three literal bits of V-DBD-2 still to come: fixed tables, 5 bits of the code of 'A' read. -/
def midCode : State :=
  ((opened.setTable .ll fixedLl).setTable .dist fixedDist).setDbd
    { opened.dbd with dstate := .readLiteralOrLength, bfinal := true, acc := 0b01110, accn := 5 }

/-- A dynamic block's LL and DIST lengths being read, HLIT 257 and HDIST 1, with a repeat code pending. -/
def repeating (rep idx : Nat) : State :=
  (((opened.setTable .ll (freshTable 257)).setTable .dist (freshTable 1)).setTable .cl (freshTable 19)).setDbd
    { opened.dbd with
      dstate := .readCodeLengthExtra, hlit := 257, hdist := 1, hclen := 4, rep := BitVec.ofNat 5 rep, idx := BitVec.ofNat 9 idx }

/-- A copy of three bytes at distance 3 from the ring of "abcabcabd". -/
def copying : State :=
  (abc.setDbd { opened.dbd with dstate := .copyFromHistory, rem := 3, dist := 3 }).setSink
    (List.replicate 3 .accepted ++ [.refused])

theorem opened_inv : opened.Inv :=
  ⟨⟨⟨Nat.zero_le _, fun _ _ h => nomatch h⟩, ⟨Nat.zero_le _, fun _ _ h => nomatch h⟩, ⟨Nat.zero_le _, fun _ _ h => nomatch h⟩⟩,
    Lzm.reset_wf, ⟨⟨by decide, ⟨by decide, by decide⟩, by decide, by decide, by decide⟩, rfl, by decide⟩, by decide⟩

theorem midCode_inv : midCode.Inv :=
  ⟨⟨fixedLl_wf, fixedDist_wf, ⟨Nat.zero_le _, fun _ _ h => nomatch h⟩⟩, Lzm.reset_wf,
    ⟨⟨by decide, ⟨by decide, by decide⟩, by decide, by decide, by decide⟩, rfl, by decide⟩, by decide⟩

theorem witness_EncodedCommandDecodes : (Instr.htSetlen .cl 65535 0xFFFFFFFF).wellFormed = true := by decide

theorem witness_DecodedCommandEncodes : decode 0x03FFFE02 0xFFFFFFFF = .ok (.htSetlen .cl 65535 0xFFFFFFFF) := by decide

/-- Both sides of the equivalence hold of HT.SETLEN CL, 65535, and neither of a word with a bit outside the mask. -/
theorem witness_RowMatchesByMask :
    ∃ r ∈ opcodeRows, r.format = .ftid ∧ (0x03FFFE02 &&& r.format.mask) = r.opc.zeroExtend 32 ∧ tselOf 0x03FFFE02 ≠ 3
      ∧ ¬((0x07FFFE02 &&& r.format.mask) = r.opc.zeroExtend 32) :=
  ⟨_, .tail _ (.tail _ (.head _)), rfl, by decide, by decide, by decide⟩

theorem witness_MalformedCommandEndsBadParam :
    (0x04000000 : Word).toNat / 2 ^ 26 ≠ 0
    ∧ (∀ o ∈ [0x0D, 0x0F, 0x15, 0x1F, 0x25, 0xFF], (BitVec.ofNat 32 o).toNat / 2 ^ 26 = 0 ∧
        (0x0D ≤ o % 256 ∧ o % 256 ≤ 0x0F ∨ 0x15 ≤ o % 256 ∧ o % 256 ≤ 0x1F ∨ 0x25 ≤ o % 256))
    ∧ (∃ r ∈ opcodeRows, opcOf 0x100 = r.opc ∧ r.format.usesTsel = false ∧ tselOf 0x100 ≠ 0)
    ∧ (∃ r ∈ opcodeRows, opcOf 0x704 = r.opc ∧ r.format.usesTsel = true ∧ r.format.usesIdx = false ∧ idxOf 0x704 ≠ 0)
    ∧ (∃ r ∈ opcodeRows, opcOf 0x304 = r.opc ∧ r.format.usesTsel = true ∧ tselOf 0x304 = 3 ∧ idxOf 0x304 = 0)
    ∧ (z.setHost [.write 0x00 4 0x304]).env.host = [.write 0x00 4 0x304] ∧ decode 0x304 z.data = .error .badTableSelect :=
  ⟨by decide, by decide, ⟨_, .head _, by decide, rfl, by decide⟩,
    ⟨_, .tail _ (.tail _ (.tail _ (.tail _ (.head _)))), by decide, rfl, rfl, by decide⟩,
    ⟨_, .tail _ (.tail _ (.tail _ (.tail _ (.head _)))), by decide, rfl, by decide, by decide⟩, rfl, by decide⟩

theorem witness_StepRunsDecodedCommand :
    (z.setHost [.write 0x00 4 0x24]).env.host = [.write 0x00 4 0x24] ∧ decode 0x24 z.data = .ok .decStatus :=
  ⟨rfl, by decide⟩

theorem witness_WritingDataThenCmdIssuesTheCommand :
    (Instr.histSet 287 9).wellFormed = true ∧
      (z.setHost (hostWrites (.histSet 287 9))).env.host = hostWrites (.histSet 287 9) ++ [] :=
  ⟨by decide, by simp⟩

theorem witness_HostRegisterAccesses :
    (∀ o ∈ [0x00, 0x04, 0x08, 0x0C], (z.setHost [.read o 4]).env.host = [.read o 4])
    ∧ (∀ o ∈ [0x04, 0x08, 0x0C], (z.setHost [.write o 4 7]).env.host = [.write o 4 7]) ∧ z.env.host = [] :=
  ⟨fun _ _ => rfl, fun _ _ => rfl, rfl⟩

theorem witness_UndefinedHostAccessIsRefused :
    (2 ≠ 4) ∧ (0x0F % 4 ≠ 0) ∧ (0x10 ≤ 0x10) ∧ step (z.setHost [.write 0x10 4 0]) = .refused .undefinedHostAccess
    ∧ step (z.setHost [.read 0x00 2]) = .refused .undefinedHostAccess := by
  refine ⟨by decide, by decide, by decide, ?_, ?_⟩
  · rw [step_write (rest := []) rfl]; rfl
  · rw [step_read (rest := []) rfl]; rfl

theorem witness_ResetPulseGivesResetState : (opened.setHost [.reset]).env.host = .reset :: [] := rfl

/-- DEC.ONE 0x73 (V-DBD-2) from a state of the invariant: the header of a fixed block, and five bits of a code. -/
def feeding : State := { opened.setHost [.write 0x00 4 0x22] with data := 0x73 }

theorem witness_StepKeepsInvariant : feeding.Inv ∧
    (got (step feeding)).map (fun t => (t.status, t.dbd.dstate, t.dbd.accn, t.dbd.hold, t.dbd.outv))
      = some (0x00, .readLiteralOrLength, 5, false, false) :=
  ⟨opened_inv, by decide +kernel⟩

theorem witness_OpenSessionOwnsTablesAndHistory : isDirect (.mhFind 0x01000000 0) = true ∧ sessionOpen opened = true := by decide

theorem witness_OtherCommandsLeavePatterns : exec (.htSetlen .ll 0 3) (lens [1]) = .next (finish .ok 0
    ((lens [1]).setTable .ll (setLen ((lens [1]).table .ll) 0 3))) := rfl

theorem witness_WindowIsFixedForASession :
    (∃ t, exec (.hrConfig 7) opened = .next t) ∧ sessionOpen opened = true ∧ (∃ t, exec .nop z = .next t) ∧
      (∀ wb, Instr.nop ≠ .hrConfig wb) :=
  ⟨⟨_, rfl⟩, by decide, ⟨_, rfl⟩, nofun⟩

theorem witness_ErrorIsSticky : errored.dbd.dstate = .error ∧ errored.dbd.err = 0x16 ∧ ∃ t, exec .nop errored = .next t :=
  ⟨rfl, rfl, _, rfl⟩

theorem witness_LevelHasNoEffect : ∀ p, Instr.decOne 0 ≠ .decStart p := nofun

/-- The HTG commands' premises: an open session, no session, and the edges of each operand. -/
theorem witness_HtResizeSetsTableLength :
    sessionOpen opened = true ∧ sessionOpen z = false ∧ (0xFFFFFFFF : Word).toInt < 0 ∧ 288 < (289 : Word).toInt ∧
      0 ≤ (288 : Word).toInt ∧ (288 : Word).toInt ≤ 288 := by decide

theorem witness_HtSetlenWritesOneLength :
    sessionOpen opened = true ∧ sessionOpen (lens [1]) = false ∧ ((lens [1]).table .ll).length ≤ 1 ∧ 31 < (32 : Word).toNat ∧
      ((lens [1]).table .ll)[0]? = some ⟨1, 0, 0⟩ ∧ (31 : Word).toNat ≤ 31 := by decide

theorem witness_HtGetentReadsOneEntry :
    sessionOpen opened = true ∧ sessionOpen (lens [1]) = false ∧ ((lens [1]).table .ll).length ≤ 1 ∧
      ((lens [1]).table .ll)[0]? = some ⟨1, 0, 0⟩ := by decide

theorem witness_HtSizeReadsTableLength : sessionOpen opened = true ∧ sessionOpen z = false := by decide

theorem witness_HtAssignWritesCanonicalPatterns :
    sessionOpen opened = true ∧ sessionOpen (lens [1, 1]) = false
    ∧ canonical (lengthsOf ((lens [1, 1, 1]).table .ll)) = .error .codeExcess
    ∧ canonical (lengthsOf ((lens [1, 0, 16]).table .ll)) = .error .badCodeLength
    ∧ canonical (lengthsOf ((lens [1, 2, 3, 3]).table .ll)) = .ok [0b0, 0b10, 0b110, 0b111] := by decide +kernel

/-- The Kraft sum at 1, just above 1, and at 1 with a length above 15. -/
theorem witness_CanonicalFailuresAndTheirOrder :
    kraftSum15 [1, 1] = 2 ^ 15 ∧ canonical [1, 1] = .ok [0, 1] ∧ 2 ^ 15 < kraftSum15 [1, 1, 15]
    ∧ canonical [1, 1, 15] = .error .codeExcess ∧ canonical [1, 1, 16] = .error .badCodeLength := by decide +kernel

theorem witness_CanonicalPatternsAreConsecutive :
    canonical [3, 0, 3] = .ok [0b000, 0, 0b001] ∧ [3, 0, 3][1]? = some 0 ∧ [3, 0, 3][2]? = some 3 := by decide +kernel

theorem witness_CanonicalCodesArePrefixFree :
    canonical [1, 2] = .ok [0b0, 0b10] ∧ (0 : Nat) ≠ 1 ∧ [1, 2][0]? = some 1 ∧ [1, 2][1]? = some 2 := by decide +kernel

/-- max_len 0, 16, and 2 symbols; 3 symbols under a limit of 1; 4 symbols under a limit of 2. -/
theorem witness_HtHistDerivesLengths :
    sessionOpen opened = true ∧ sessionOpen (freqs [1, 1, 1, 1]) = false ∧ 15 < (16 : Word).toNat
    ∧ 2 ^ 1 < usedSymbols ((((freqs [1, 1, 1]).htg.hist.toList).take 3).map BitVec.toNat)
    ∧ usedSymbols ((((freqs [1, 1]).htg.hist.toList).take 2).map BitVec.toNat) ≤ 2
    ∧ usedSymbols ((((freqs [1, 1, 1, 1]).htg.hist.toList).take 4).map BitVec.toNat) = 2 ^ 2 := by decide +kernel

theorem witness_DerivedLengthsConform :
    2 < usedSymbols [5, 0, 5, 5] ∧ lengthsUnder .reference 0 [5, 0, 5, 5] 2 = .ok [2, 0, 2, 1]
    ∧ lengthsUnder .anyConforming 0 [5, 0, 5, 5] 2 = .ok (conformingLengths 0 [5, 0, 5, 5] 2) :=
  ⟨by decide, by decide +kernel, rfl⟩

theorem witness_ReferenceLengthsAreOptimal :
    2 < usedSymbols [5, 0, 5, 5] ∧ usedSymbols [5, 0, 5, 5] ≤ 2 ^ 2 ∧ Conforming [5, 0, 5, 5] 2 [2, 0, 2, 2] := by decide

theorem witness_HtLookupFindsLowestMatch :
    sessionOpen opened = true ∧ sessionOpen (lens [1, 1]) = false ∧ (0 : Word).toNat < 1 ∧ 15 < (16 : Word).toNat
    ∧ (∀ e ∈ (lens [1, 1]).table .ll, ¬(e.len.toNat = (15 : Word).toNat ∧ e.pat = 0))
    ∧ ((lens [1, 1]).table .ll)[0]? = some ⟨1, 0, 0⟩ ∧ ((lens [1, 1]).table .ll)[1]? = some ⟨1, 0, 1⟩ := by decide

theorem witness_HtLoadfixedReplacesTheSlot : sessionOpen opened = true ∧ sessionOpen z = false ∧ Slot.ll ≠ .cl := by decide

theorem witness_HistogramWrites :
    sessionOpen opened = true ∧ sessionOpen (freqs [1, 2]) = false ∧ (freqs [1, 2]).htg.hist[1]? = some 2 ∧ 287 < 288 := by
  decide +kernel

theorem witness_HistGetReadsOneFrequency :
    sessionOpen opened = true ∧ sessionOpen (freqs [1, 2]) = false ∧ (freqs [1, 2]).htg.hist[1]? = some 2 := by
  decide +kernel

theorem witness_HrConfigEmptiesTheWindow :
    sessionOpen opened = true ∧ sessionOpen abc = false ∧ 7 < (8 : Word).toNat ∧ (7 : Word).toNat ≤ 7 := by decide +kernel

theorem witness_RecordWritesOneByte :
    sessionOpen opened = true ∧ sessionOpen abc = false ∧ 255 < (256 : Word).toNat ∧ (255 : Word).toNat ≤ 255 ∧
      256 = 2 ^ (8 + abc.lzm.wb.toNat) := by decide +kernel

theorem witness_RecordShiftsEveryDistance :
    abc.lzm.pos.toNat < abc.lzm.window ∧ abc.lzm.fill.toNat ≤ abc.lzm.window ∧
      9 + 1 ≤ (abc.lzm.record 0x65 true).fill.toNat := by decide +kernel

theorem witness_HrGetReadsByDistance :
    sessionOpen opened = true ∧ sessionOpen abc = false ∧ 9 ≤ abc.lzm.fill.toNat ∧ abc.lzm.fill.toNat < 10 := by
  decide +kernel

theorem witness_MhFindAnswersNearestMatch :
    sessionOpen opened = true ∧ sessionOpen abc = false ∧ (0x01000000 : Word).extractLsb' 24 8 ≠ 0 ∧
      (0x636261 : Word).extractLsb' 24 8 = 0 ∧ InD abc.lzm ⟨0x61, 0x62, 0x63⟩ 0 6 ∧
      (∀ d' < 6, ¬InD abc.lzm ⟨0x61, 0x62, 0x63⟩ 0 d') := by
  unfold InD; decide +kernel

theorem witness_RecordedTripleIsFound : 2 ≤ (recordAll [1, 2] Lzm.reset).fill.toNat ∧ (recordAll [1, 2] Lzm.reset).wf :=
  ⟨by decide +kernel, Lzm.record_wf 2 true (Lzm.record_wf 1 true Lzm.reset_wf)⟩

theorem witness_DecStartOpensASession :
    (0x808 : Word).extractLsb' 11 21 ≠ 0 ∧ (0x88 : Word).extractLsb' 11 21 = 0 ∧ 7 < ((0x88 : Word).extractLsb' 4 4).toNat
    ∧ (0x07 : Word).extractLsb' 0 4 ≠ 8 ∧ (0x778 : Word).extractLsb' 11 21 = 0 ∧ (0x778 : Word).extractLsb' 0 4 = 8
    ∧ ((0x778 : Word).extractLsb' 4 4).toNat ≤ 7 := by decide

theorem witness_DecDictPreloadsTheRing :
    sessionOpen z = false ∧ sessionOpen opened = true ∧ ¬IsBm1 256 ∧ ¬IsBm1 0xFFFFFFFE ∧ (255 : Word).toNat ≤ 255
    ∧ opened.dbd.preset = false ∧ sessionOpen primed = true ∧ primed.dbd.preset = true ∧ primed.dbd.dictOpen = true
    ∧ ({ primed.dbd with dictOpen := false } : Dbd).dictOpen = false := by
  unfold IsBm1; decide

theorem witness_DecOneRunsTheEngine :
    z.dbd.dstate = .idle ∧ closed.dbd.dstate = .closed ∧ errored.dbd.dstate = .error
    ∧ sessionOpen opened = true ∧ ¬IsBm1 256 ∧ IsBm1 255
    ∧ IsBm1 0xFFFFFFFF ∧ opened.dbd.hold = false ∧ opened.dbd.dstate ≠ .done := by
  unfold IsBm1; decide

theorem witness_DecFinishClosesTheSession :
    z.dbd.dstate = .idle ∧ closed.dbd.dstate = .closed ∧ errored.dbd.dstate = .error
    ∧ sessionOpen opened = true ∧ (run 131072 opened).1 = .ok
    ∧ (inState .done).dbd.dstate = .done ∧ (run 131072 (inState .done)).1 = .done
    ∧ (run 131072 (copying.setSink [.refused])).1 = .overflow
    ∧ (run 131072 (opened.setDbd { opened.dbd with bitbuf := 7, bitcnt := 8 })).1 = .badBlockType := by
  decide +kernel

/-- The last bit of a field of `n` bits, 0, whose other bits are `acc`, in state `d`. -/
def lastFieldBit (d : DState) (n : Nat) (acc : Word) : State :=
  (repeating 0 0).setDbd
    { (repeating 0 0).dbd with dstate := d, bitcnt := 1, acc := acc, accn := BitVec.ofNat 6 (n - 1), length := 3 }

/-- The same with the last bit 1. -/
def lastFieldOne (d : DState) (n : Nat) (acc : Word) : State :=
  (lastFieldBit d n acc).setDbd { (lastFieldBit d n acc).dbd with bitbuf := 1 }

/-- The last byte of a stored block. -/
def lastStored : State := (inState .rawBytes).setDbd { (inState .rawBytes).dbd with rem := 1 }

/-- The byte 'A' pending after a refusal (V-DBD-F1). -/
def refusedByte : State :=
  (inState .readLiteralOrLength).setDbd { (inState .readLiteralOrLength).dbd with outb := 0x41, outv := true, hold := true }

/-- A pending byte, offered by either command; the last bit of a stored byte; the last byte of a stored block. -/
theorem witness_StoredByteIsOutput :
    refusedByte.dbd.outv = true ∧ sessionOpen refusedByte = true ∧ refusedByte.dbd.hold = true ∧ IsBm1 0xFFFFFFFF
    ∧ (refusedByte.setSink [.refused]).env.sink = .refused :: [] ∧ (refusedByte.setSink [.accepted]).env.sink = .accepted :: []
    ∧ TakesBit .rawBytes (lastFieldOne .rawBytes 8 0x41)
    ∧ readField 8 (nextBit (lastFieldOne .rawBytes 8 0x41)) (dropBit (lastFieldOne .rawBytes 8 0x41)) = some 0xC1
    ∧ readField 8 (nextBit (lastFieldBit .rawBytes 7 1)) (dropBit (lastFieldBit .rawBytes 7 1)) = none
    ∧ (255 : Word).toNat ≤ 255 ∧ lastStored.dbd.dstate = .rawBytes ∧ lastStored.dbd.hold = false ∧ lastStored.dbd.outv = false
    ∧ lastStored.dbd.acc = 0 ∧ lastStored.dbd.accn = 0 ∧ 1 ≤ lastStored.dbd.rem.toNat := by
  unfold TakesBit IsBm1; decide

/-- The header's last bit for each block type, and a pending one; the fixed setup; one first byte for each block type. -/
theorem witness_HeaderByteSelectsTheBlock :
    (TakesBit .readBlockHeader (lastFieldBit .readBlockHeader 3 0) ∧ TakesBit .readBlockHeader (lastFieldOne .readBlockHeader 3 0))
    ∧ readField 3 (nextBit (lastFieldBit .readBlockHeader 3 0)) (dropBit (lastFieldBit .readBlockHeader 3 0)) = some 0
    ∧ readField 3 (nextBit (lastFieldBit .readBlockHeader 3 2)) (dropBit (lastFieldBit .readBlockHeader 3 2)) = some 2
    ∧ readField 3 (nextBit (lastFieldOne .readBlockHeader 3 0)) (dropBit (lastFieldOne .readBlockHeader 3 0)) = some 4
    ∧ readField 3 (nextBit (lastFieldOne .readBlockHeader 3 2)) (dropBit (lastFieldOne .readBlockHeader 3 2)) = some 6
    ∧ readField 3 (nextBit (lastFieldBit .readBlockHeader 2 1)) (dropBit (lastFieldBit .readBlockHeader 2 1)) = none
    ∧ ({ opened.dbd with dstate := .fixedOrDynamicSetup, setupKind := 1 } : Dbd).outv = false
    ∧ opened.dbd.dstate = .readBlockHeader ∧ opened.dbd.hold = false ∧ opened.dbd.outv = false ∧ opened.dbd.acc = 0
    ∧ opened.dbd.accn = 0 ∧ (0x01 : Byte).extractLsb' 1 2 = 0 ∧ (0x73 : Byte).extractLsb' 1 2 = 1
    ∧ (0x0D : Byte).extractLsb' 1 2 = 2 ∧ (0x07 : Byte).extractLsb' 1 2 = 3 := by
  unfold TakesBit; decide

/-- `n` bits of LEN and NLEN read. -/
def lengthRead (n : Nat) (acc : Word) : State :=
  (inState .rawLength).setDbd { (inState .rawLength).dbd with acc := acc, accn := BitVec.ofNat 6 n }

/-- Three bytes of LEN and NLEN read. -/
def lastLength (acc : Word) : State := lengthRead 24 acc

/-- The last of the 32 bits, 1, completes the field whose other bits are `acc`. -/
theorem lengthField (acc : Word) :
    TakesBit .rawLength (lastFieldOne .rawLength 32 acc) ∧
      readField 32 (nextBit (lastFieldOne .rawLength 32 acc)) (dropBit (lastFieldOne .rawLength 32 acc))
        = some (acc ||| 0x80000000) := by
  have hb : (1 : BitVec 4) ≠ 0 := by decide
  refine ⟨⟨rfl, rfl, hb⟩, ?_⟩
  have hn : ((dropBit (lastFieldOne .rawLength 32 acc)).dbd.accn + 1).toNat = 32 := by
    show ((31 : BitVec 6) + 1).toNat = 32
    decide
  have h1 : nextBit (lastFieldOne .rawLength 32 acc) = true := by
    show (1 : Byte).getLsbD 0 = true
    decide
  have h2 : (dropBit (lastFieldOne .rawLength 32 acc)).dbd.acc = acc := rfl
  have h3 : (dropBit (lastFieldOne .rawLength 32 acc)).dbd.accn = 31 := rfl
  have h4 : bitWord true <<< (31 : BitVec 6).toNat = 0x80000000 := by decide
  rw [readField, if_pos hn, h1, fieldAcc, h2, h3, h4]

/-- The whole field with NLEN LEN's complement, LEN 4 (V-DBD-1) and LEN 0, and with NLEN 0xFEFB (V-DBD-E2); each of the first
three bytes, and the fourth. -/
theorem witness_RawLengthIsChecked :
    (∀ acc : Word, ∃ s, TakesBit .rawLength s ∧ readField 32 (nextBit s) (dropBit s) = some (acc ||| 0x80000000))
    ∧ ((0x7FFB0004 : Word) ||| 0x80000000 = 0xFFFB0004 ∧ 0xFFFB0004 / 2 ^ 16 + 0xFFFB0004 % 2 ^ 16 = 0xFFFF)
    ∧ ((0x7FFF0000 : Word) ||| 0x80000000 = 0xFFFF0000 ∧ 0xFFFF0000 / 2 ^ 16 + 0xFFFF0000 % 2 ^ 16 = 0xFFFF)
    ∧ ((0x7EFB0004 : Word) ||| 0x80000000 = 0xFEFB0004 ∧ 0xFEFB0004 / 2 ^ 16 + 0xFEFB0004 % 2 ^ 16 ≠ 0xFFFF)
    ∧ (∀ p ∈ [(0, (0 : Word)), (1, 0xFF), (2, 0xFFFF)],
        (lengthRead (8 * p.1) p.2).dbd.accn.toNat = 8 * p.1 ∧ (lengthRead (8 * p.1) p.2).dbd.acc.toNat < 2 ^ (8 * p.1))
    ∧ (lastLength 0x00FB0004).dbd.dstate = .rawLength ∧ (lastLength 0x00FB0004).dbd.hold = false
    ∧ (lastLength 0x00FB0004).dbd.outv = false ∧ (lastLength 0x00FB0004).dbd.accn = 24
    ∧ (lastLength 0x00FB0004).dbd.acc.toNat < 2 ^ 24
    ∧ (0xFF : Byte) ++ (0x00FB0004 : Word).extractLsb' 16 8 = ~~~((0x00FB0004 : Word).extractLsb' 0 16)
    ∧ (0xFE : Byte) ++ (0x00FB0004 : Word).extractLsb' 16 8 ≠ ~~~((0x00FB0004 : Word).extractLsb' 0 16)
    ∧ (0xFF : Byte) ++ (0x00FF0000 : Word).extractLsb' 16 8 = ~~~((0x00FF0000 : Word).extractLsb' 0 16) :=
  ⟨fun acc => ⟨_, lengthField acc⟩, by decide, by decide, by decide, by decide, by decide, by decide, by decide, by decide,
    by decide, by decide, by decide, by decide⟩

theorem witness_FieldsArriveLowBitFirst : opened.dbd.acc = 0 ∧ opened.dbd.accn = 0 ∧ 1 ≤ 32 := by decide

theorem repeating_countsOk : (repeating 0 0).dbd.countsOk := by unfold Dbd.countsOk; decide

/-- The last bit of a one-bit code 0 of symbol `sym` of slot `t`, in state `d`, with `n` entries in the slot. -/
def lastBit (d : DState) (t : Slot) (n sym : Nat) : State :=
  let u := (((repeating 0 0).setTable .ll (freshTable 257)).setTable t (setLen (freshTable n) sym 1))
  u.setDbd { u.dbd with dstate := d, bitcnt := 1 }

/-- Reading the lengths, symbol `sym` next, `idx` of them read. -/
def lengthNext (sym idx : Nat) : State :=
  (lastBit .readCodeLengths .cl 19 sym).setDbd { (lastBit .readCodeLengths .cl 19 sym).dbd with idx := BitVec.ofNat 9 idx }

theorem lengthNext_phaseOk (sym : Nat) {idx : Nat} (h : idx < 258) :
    phaseOk (lengthNext sym idx).htg (lengthNext sym idx).dbd :=
  ⟨reading_zero (by omega) rfl rfl,
    ⟨repeating_countsOk, (setLen_length _ _ _).trans (freshTable_length 19), freshTable_length 257,
      freshTable_length 1, freshTable_lens 257 15, freshTable_lens 1 15⟩,
    by
      show (BitVec.ofNat 9 idx).toNat < 257 + 1
      simp; omega⟩

/-- The nine-bit fixed code of symbol 255 (V-HTG-F4), and no code at all; then, for each state that reads a symbol, the
symbols at the edges of its cases, a pending bit and a bit string that fits no code. -/
theorem witness_CodesArriveHighBitFirst :
    (lookup (fixed.table .ll) 9 0x1FF = some 255 ∧ (∀ k < 9, 1 ≤ k → lookup (fixed.table .ll) k (0x1FF / 2 ^ (9 - k)) = none)
      ∧ (0x1FF : BitVec 16).toNat < 2 ^ 9 ∧ fixed.dbd.acc = 0 ∧ fixed.dbd.accn = 0)
    ∧ (∀ k ≤ 15, lookup (z.table .dist) k (0x7FFF / 2 ^ (15 - k)) = none) ∧ (0x7FFF : BitVec 16).toNat < 2 ^ 15
    ∧ (∀ sym ∈ [0, 15, 16, 17, 18], ∀ idx ∈ [0, 257], TakesBit .readCodeLengths (lengthNext sym idx) ∧
        phaseOk (lengthNext sym idx).htg (lengthNext sym idx).dbd ∧
        readCode .cl 7 (nextBit (lengthNext sym idx)) (dropBit (lengthNext sym idx)) = .symbol sym)
    ∧ (∀ sym ∈ [0, 255, 256, 257, 264, 265, 284, 285, 286, 287],
        TakesBit .readLiteralOrLength (lastBit .readLiteralOrLength .ll 288 sym) ∧
        readCode .ll 15 (nextBit (lastBit .readLiteralOrLength .ll 288 sym))
          (dropBit (lastBit .readLiteralOrLength .ll 288 sym)) = .symbol sym)
    ∧ (∀ sym ∈ [0, 3, 4, 29, 30, 31], TakesBit .readDistance (lastBit .readDistance .dist 32 sym) ∧
        readCode .dist 15 (nextBit (lastBit .readDistance .dist 32 sym))
          (dropBit (lastBit .readDistance .dist 32 sym)) = .symbol sym)
    ∧ readCode .dist 15 false (inState .readDistance) = .pending
    ∧ readCode .dist 15 false ((inState .readDistance).setDbd { (inState .readDistance).dbd with accn := 14 }) = .bad := by
  refine ⟨by decide +kernel, by decide +kernel, by decide, fun sym hs idx hi => ⟨?_, ?_, ?_⟩, ?_, ?_, by decide, by decide⟩
  · exact ⟨rfl, rfl, by show (1 : BitVec 4) ≠ 0; decide⟩
  · exact lengthNext_phaseOk sym (by revert idx; decide)
  · revert sym idx; decide +kernel
  · unfold TakesBit; decide +kernel
  · unfold TakesBit; decide +kernel

/-- The last extra bit of length symbol 257 + `l` and of distance symbol `d`, the bits before it `acc`. -/
def lengthExtraNext (l : Nat) (acc : Word) : State :=
  let u := lastFieldBit .readLengthExtra (lenExtra.getD l 0) acc
  u.setDbd { u.dbd with lsym := BitVec.ofNat 5 l, length := BitVec.ofNat 9 (lenBase.getD l 0) }
def distanceExtraNext (d : Nat) (acc : Word) : State :=
  let u := lastFieldBit .readDistanceExtra (distExtra.getD d 0) acc
  u.setDbd { u.dbd with dsym := BitVec.ofNat 5 d, dist := BitVec.ofNat 16 (distBase.getD d 0) }

theorem fieldAcc_false (d : Dbd) : fieldAcc false d = d.acc := by simp [fieldAcc, bitWord]

/-- The CL lengths, three bits at a time: `idx` of HCLEN read, the entries before them as in `cl`. -/
def clNext (cl : Table) (idx : Nat) : State :=
  ((lastFieldBit .readCodeLengthAlphabet 3 1).setTable .cl cl).setDbd
    { (lastFieldBit .readCodeLengthAlphabet 3 1).dbd with idx := BitVec.ofNat 9 idx, hclen := 19 }

/-- The dynamic setup over LL and DIST slots that begin with these lengths. -/
def settingUp (ll dist : List Nat) : State :=
  (((repeating 0 0).setTable .ll (setLens (freshTable 257) ll)).setTable .dist (setLens (freshTable dist.length) dist)).setDbd
    { (repeating 0 0).dbd with
      dstate := .fixedOrDynamicSetup, setupKind := 2, hdist := BitVec.ofNat 6 dist.length }

/-- HLIT at 286 and HDIST at 30, and one past each. -/
theorem headerNext_field (acc : Word) :
    TakesBit .readCodeLengthAlphabetHeader (lastFieldBit .readCodeLengthAlphabetHeader 14 acc) ∧
      readField 14 (nextBit (lastFieldBit .readCodeLengthAlphabetHeader 14 acc))
        (dropBit (lastFieldBit .readCodeLengthAlphabetHeader 14 acc)) = some acc := by
  refine ⟨⟨rfl, rfl, by show (1 : BitVec 4) ≠ 0; decide⟩, ?_⟩
  have hn : ((dropBit (lastFieldBit .readCodeLengthAlphabetHeader 14 acc)).dbd.accn + 1).toNat = 14 := by
    show ((13 : BitVec 6) + 1).toNat = 14
    decide
  have hb : nextBit (lastFieldBit .readCodeLengthAlphabetHeader 14 acc) = false := by show (0 : Byte).getLsbD 0 = false; decide
  have hd : (dropBit (lastFieldBit .readCodeLengthAlphabetHeader 14 acc)).dbd.acc = acc := rfl
  rw [readField, if_pos hn, hb, fieldAcc_false, hd]

/-- Two codes of length 1 in LL and none in DIST; three in LL; three in DIST. -/
theorem settingUp_premises : ∀ p ∈ [([1, 1], [0]), ([1, 1, 1], [0]), ([1, 1], [1, 1, 1])],
    (settingUp p.1 p.2).dbd.dstate = .fixedOrDynamicSetup ∧ (settingUp p.1 p.2).dbd.outv = false ∧
      (settingUp p.1 p.2).dbd.setupKind = 2 ∧ lensReading (settingUp p.1 p.2).htg (settingUp p.1 p.2).dbd := by
  unfold lensReading Dbd.countsOk lensAtMost; decide +kernel

theorem settingUp_outcomes :
    (∃ ps, canonical (lengthsOf (setLens (freshTable 257) [1, 1])) = .ok ps)
    ∧ canonical (lengthsOf (setLens (freshTable 257) [1, 1, 1])) = .error .codeExcess
    ∧ canonical (lengthsOf (setLens (freshTable 3) [1, 1, 1])) = .error .codeExcess
    ∧ canonical (lengthsOf (setLens (freshTable 1) [0])) = .ok [0] := by
  have h1 : overSubscribed (lengthsOf (setLens (freshTable 257) [1, 1])) = false := by decide +kernel
  have h2 : hasLongLength (lengthsOf (setLens (freshTable 257) [1, 1])) = false := by decide +kernel
  exact ⟨⟨_, by rw [canonical, h1, h2]; rfl⟩, by decide +kernel, by decide +kernel, by decide +kernel⟩

/-- The CL lengths before and at the HCLEN-th, with a code and with an over-subscribed one. -/
theorem clNext_premises :
    (∀ idx ∈ [0, 17, 18], TakesBit .readCodeLengthAlphabet (clNext (freshTable 19) idx) ∧
        phaseOk (clNext (freshTable 19) idx).htg (clNext (freshTable 19) idx).dbd ∧
        readField 3 (nextBit (clNext (freshTable 19) idx)) (dropBit (clNext (freshTable 19) idx)) = some 1)
    ∧ canonical (lengthsOf (setLen (freshTable 19) 15 1)) = .ok (List.replicate 19 0)
    ∧ canonical (lengthsOf (setLen (setLens (freshTable 19) [1, 1]) 15 1)) = .error .codeExcess := by
  refine ⟨fun idx hi => ⟨⟨rfl, rfl, by show (1 : BitVec 4) ≠ 0; decide⟩, ?_, ?_⟩, by decide +kernel, by decide +kernel⟩
  · show Dbd.reading 3 _ ∧ Dbd.countsOk _ ∧ _ ∧ _ ∧ lensAtMost 7 _
    unfold Dbd.reading Dbd.countsOk lensAtMost; revert idx; decide +kernel
  · revert idx; decide

/-- The header's field and the states above; each repeat code's field; the longest run that fits, and the shortest that
does not. -/
theorem witness_RepeatRunWritesLengths :
    (∀ v ∈ [(0x3BD : Word), 0x3BE, 0x3DD], ∃ s, TakesBit .readCodeLengthAlphabetHeader s ∧
      readField 14 (nextBit s) (dropBit s) = some v)
    ∧ (0x3BD % 32 + 257 = 286 ∧ 0x3BD / 32 % 32 + 1 = 30 ∧ 0x3BE % 32 + 257 = 287 ∧ 0x3DD / 32 % 32 + 1 = 31)
    ∧ (∀ r ∈ [(16, 2), (17, 3), (18, 7)],
        readField r.2 false ((repeating r.1 1).setDbd { (repeating r.1 1).dbd with accn := BitVec.ofNat 6 (r.2 - 1) }) = some 0)
    ∧ TakesBit .readCodeLengthExtra (lastFieldBit .readCodeLengthExtra 7 1)
    ∧ lensReading (repeating 16 1).htg (repeating 16 1).dbd ∧ totalLens (repeating 16 1).dbd = 258
    ∧ (repeating 16 252).dbd.idx.toNat + (3 + 3) = 258 ∧ (repeating 16 253).dbd.idx.toNat + (3 + 3) = 259
    ∧ (repeating 17 248).dbd.idx.toNat + (3 + 7) = 258 ∧ (repeating 18 120).dbd.idx.toNat + (11 + 127) = 258
    ∧ (repeating 18 121).dbd.idx.toNat < 258 :=
  ⟨fun v _ => ⟨_, headerNext_field v⟩, by decide, by decide, ⟨rfl, rfl, by decide⟩,
    ⟨repeating_countsOk, freshTable_length 19, freshTable_length 257, freshTable_length 1, freshTable_lens 257 15,
      freshTable_lens 1 15⟩, by decide, by decide, by decide, by decide, by decide, by decide⟩

/-- The field's last bit at each number of extra bits of a length and of a distance, all bits 0 before it, and the largest
of each: 227 + 31 and 24577 + 8191; a copy of three bytes; a decoder that waits for input, and Done. -/
theorem witness_CopyOutputsFromHistory :
    (∀ l ∈ [8, 12, 16, 20, 24, 27], TakesBit .readLengthExtra (lengthExtraNext l 0) ∧
        phaseOk (lengthExtraNext l 0).htg (lengthExtraNext l 0).dbd ∧
        readField (lenExtra.getD l 0) (nextBit (lengthExtraNext l 0)) (dropBit (lengthExtraNext l 0)) = some 0)
    ∧ readField 5 true (lengthExtraNext 27 15) = some 31
    ∧ (∀ d ∈ [4, 7, 16, 29], TakesBit .readDistanceExtra (distanceExtraNext d 0) ∧
        phaseOk (distanceExtraNext d 0).htg (distanceExtraNext d 0).dbd ∧
        readField (distExtra.getD d 0) (nextBit (distanceExtraNext d 0)) (dropBit (distanceExtraNext d 0)) = some 0)
    ∧ readField 13 true (distanceExtraNext 29 4095) = some 8191
    ∧ (consumesBits opened.dbd.dstate = true ∧ opened.dbd.outv = false ∧ opened.dbd.bitcnt = 0 ∧ opened.dbd.hold = false)
    ∧ ((inState .done).dbd.dstate = .done ∧ (inState .done).dbd.outv = false ∧ IsBm1 255)
    ∧ copying.dbd.dstate = .copyFromHistory ∧ copying.dbd.outv = false ∧ copying.dbd.rem.toNat = 3
    ∧ copying.env.sink = List.replicate 3 .accepted ++ [.refused] := by
  have hb : (1 : BitVec 4) ≠ 0 := by decide
  refine ⟨fun l hl => ⟨⟨rfl, rfl, hb⟩, ?_, ?_⟩, by decide, fun d hd => ⟨⟨rfl, rfl, hb⟩, ?_, ?_⟩, by decide, by decide,
    ⟨rfl, rfl, .inr (by decide)⟩, rfl, rfl, by decide, rfl⟩
  · show Dbd.reading _ _ ∧ _ ∧ _
    unfold Dbd.reading; revert l; decide
  · revert l; decide
  · show Dbd.reading _ _ ∧ _ ∧ _ ∧ Dbd.lengthOk _
    unfold Dbd.reading Dbd.lengthOk; revert d; decide +kernel
  · revert d; decide

theorem witness_OverlappingCopyRepeats :
    abc.lzm.pos.toNat < abc.lzm.window ∧ abc.lzm.fill.toNat ≤ abc.lzm.window ∧ 3 ≤ abc.lzm.fill.toNat
    ∧ min (abc.lzm.fill.toNat + 0) abc.lzm.window < 10 ∧ copyOutput 3 5 abc.lzm = [0x61, 0x62, 0x64, 0x61, 0x62] := by
  decide +kernel

theorem witness_RecordedBytesAreTheOutput : ∃ t, exec .decFinish z = .next t := ⟨_, rfl⟩

theorem witness_FailureEntersError :
    sessionOpen opened = true ∧ (after (.decOne 0x07) opened fun t => decide (0x14 ≤ t.status.toNat ∧ t.status.toNat ≤ 0x19))
      = some true := by decide +kernel

theorem witness_RefusalDoesNotChangeTheOutput :
    midCode.Inv ∧ IsBm1 0x04 ∧ (∀ a ∈ ([] : List SinkAnswer), a = .accepted) ∧
      (after (.decOne 0x04) (midCode.setSink ([] ++ .refused :: [.accepted])) fun t => t.status) = some 0x01 :=
  ⟨midCode_inv, .inr (by decide), nofun, by decide +kernel⟩

theorem witness_LoopedStateIsUnreachable : opened.Inv ∧ sessionOpen opened = true := ⟨opened_inv, by decide⟩

end Sys2Proof.Tests
end

/-! SUPPORT. The commands that do not run the engine, by what they do to the machine: one lemma a command says which effect
it has, and that the effect is the same whatever LEVEL, STATUS and VALUE hold. -/

namespace Sys2Proof.Machine

/-! ## The registers no command reads (10_state.md R26, R39) -/

/-- The decoder registers with LEVEL replaced. -/
def Dbd.withLevel (lv : BitVec 2) (d : Dbd) : Dbd := { d with level := lv }

/-- The machine with LEVEL replaced. -/
def State.setLevel (lv : BitVec 2) (s : State) : State := s.setDbd (s.dbd.withLevel lv)

/-- The machine with LEVEL, STATUS and VALUE replaced. -/
def State.relabel (lv : BitVec 2) (a b : Word) (s : State) : State := { s.setLevel lv with status := a, value := b }

section
variable (lv : BitVec 2) (a b : Word) (s : State)

@[simp] theorem State.relabel_htg : (s.relabel lv a b).htg = s.htg := rfl
@[simp] theorem State.relabel_lzm : (s.relabel lv a b).lzm = s.lzm := rfl
@[simp] theorem State.relabel_env : (s.relabel lv a b).env = s.env := rfl
@[simp] theorem State.relabel_table (t : Slot) : (s.relabel lv a b).table t = s.table t := rfl
@[simp] theorem State.relabel_dstate : (s.relabel lv a b).dbd.dstate = s.dbd.dstate := rfl
@[simp] theorem sessionOpen_relabel : sessionOpen (s.relabel lv a b) = sessionOpen s := rfl

end

/-! ## Effects -/

/-- What a command that does not run the engine does to the machine. -/
inductive Effect where
  /-- It reports a code and a value. -/
  | report (c : Code) (v : Word)
  /-- It reports the sticky ERR (60_exceptions.md R235). -/
  | sticky
  /-- It replaces a slot's entries. -/
  | table (t : Slot) (es : Table)
  /-- It replaces HIST. -/
  | hist (h : Vector Word Config.htCap)
  /-- It replaces the history ring and match finder. -/
  | ring (l : Lzm)
  /-- It starts a session (42_decoder.md R161). -/
  | start (p : StartParams)

/-- The machine after the effect. -/
def Effect.apply (s : State) : Effect → State
  | .report c v => finish c v s
  | .sticky => finishBits s.dbd.err 0 s
  | .table t es => finish .ok 0 (s.setTable t es)
  | .hist h => finish .ok 0 (s.setHist h)
  | .ring l => finish .ok 0 (s.setLzm l)
  | .start p => finish .ok 0 (startSession p s)

/-- The effects `i` may have in `s`: a value comes with Ok alone; the slots and HIST are written in no open session, and in
the form they keep; WB is written by HR.CONFIG alone, in no open session, and by DEC.START. -/
def Effect.Allowed (i : Instr) (s : State) : Effect → Prop
  | .report c v => c ≠ .ok → v = 0
  | .sticky => s.dbd.dstate = .error
  | .table _ es => sessionOpen s = false ∧ (s.htg.wf → Table.wf es)
  | .hist _ => sessionOpen s = false
  | .ring l => (s.lzm.wf → l.wf) ∧ (l.wb = s.lzm.wb ∨ (∃ wb, i = .hrConfig wb) ∧ sessionOpen s = false)
  | .start _ => ∃ p, i = .decStart p

/-- `f` has one allowed effect on `s`, whatever LEVEL, STATUS and VALUE hold. -/
def ActsAs (i : Instr) (s : State) (f : State → State) : Prop :=
  ∃ e : Effect, e.Allowed i s ∧ ∀ lv a b, f (s.relabel lv a b) = e.apply (s.relabel lv a b)

/-- The command `i` has one allowed effect on `s`, whatever LEVEL, STATUS and VALUE hold. -/
def HasEffect (i : Instr) (s : State) : Prop :=
  ∃ e : Effect, e.Allowed i s ∧ ∀ lv a b, exec i (s.relabel lv a b) = .next (e.apply (s.relabel lv a b))

theorem ActsAs.hasEffect {i : Instr} {s : State} {f : State → State} (hf : ∀ u, exec i u = .next (f u))
    (h : ActsAs i s f) : HasEffect i s := by
  obtain ⟨e, he, hx⟩ := h
  exact ⟨e, he, fun lv a b => (hf _).trans (congrArg _ (hx lv a b))⟩

/-- The shape of every HTG and LZM command: BadState in an open session, before anything else (40_huffman.md R125,
41_history_match.md R150). -/
theorem ActsAs.unlessOpen {i : Instr} {s : State} {f : State → State} (h : sessionOpen s = false → ActsAs i s f) :
    ActsAs i s fun u => if sessionOpen u then raise .badState u else f u := by
  cases ho : sessionOpen s with
  | true => exact ⟨.report .badState 0, fun _ => rfl, fun _ _ _ => if_pos ho⟩
  | false =>
    obtain ⟨e, he, hx⟩ := h ho
    exact ⟨e, he, fun lv a b => (if_neg (by simp [ho])).trans (hx lv a b)⟩

/-- A command that reports `c` without a value. -/
theorem ActsAs.raises {i : Instr} {s : State} {f : State → State} (c : Code)
    (h : ∀ lv a b, f (s.relabel lv a b) = raise c (s.relabel lv a b)) : ActsAs i s f :=
  ⟨.report c 0, fun _ => rfl, h⟩

/-- A command that reports Ok with a value. -/
theorem ActsAs.answers {i : Instr} {s : State} {f : State → State} (v : Word)
    (h : ∀ lv a b, f (s.relabel lv a b) = finish .ok v (s.relabel lv a b)) : ActsAs i s f :=
  ⟨.report .ok v, fun hc => absurd rfl hc, h⟩

/-! ## The table commands (40_huffman.md R101 to R108) -/

theorem htResize_hasEffect (t : Slot) (n : Word) (s : State) : HasEffect (.htResize t n) s := by
  refine ActsAs.hasEffect (fun _ => rfl) (.unlessOpen fun ho => ?_)
  by_cases h : readS32 n < 0 ∨ readS32 n > Config.htCap
  · exact .raises .outOfMemory fun _ _ _ => if_pos h
  · refine ⟨.table t (resized (s.table t) (readS32 n).toNat), ⟨ho, fun hw => ?_⟩, fun _ _ _ => if_neg h⟩
    exact resized_wf (by omega) (Htg.wf_table hw t)

theorem htSetlen_hasEffect (t : Slot) (k : Nat) (len : Word) (s : State) : HasEffect (.htSetlen t k len) s := by
  refine ActsAs.hasEffect (fun _ => rfl) (.unlessOpen fun ho => ?_)
  by_cases hk : k ≥ (s.table t).length
  · exact .raises .badParam fun _ _ _ => if_pos hk
  · by_cases hl : readU32 len > 31
    · exact .raises .badParam fun _ _ _ => (if_neg hk).trans (if_pos hl)
    · exact ⟨.table t (setLen (s.table t) k (readU32 len)), ⟨ho, fun hw => setLen_wf _ _ (Htg.wf_table hw t)⟩,
        fun _ _ _ => (if_neg hk).trans (if_neg hl)⟩

theorem htGetent_hasEffect (t : Slot) (k : Nat) (s : State) : HasEffect (.htGetent t k) s := by
  refine ActsAs.hasEffect (fun _ => rfl) (.unlessOpen fun _ => ?_)
  cases h : (s.table t)[k]? with
  | none => exact .raises .badParam fun _ _ _ => by simp only [State.relabel_table, h]
  | some e => exact .answers (entryValue e) fun _ _ _ => by simp only [State.relabel_table, h]

theorem htSize_hasEffect (t : Slot) (s : State) : HasEffect (.htSize t) s :=
  ActsAs.hasEffect (fun _ => rfl) (.unlessOpen fun _ => .answers (BitVec.ofNat 32 (s.table t).length) fun _ _ _ => rfl)

theorem htAssign_hasEffect (t : Slot) (s : State) : HasEffect (.htAssign t) s := by
  refine ActsAs.hasEffect (fun _ => rfl) (.unlessOpen fun ho => ?_)
  cases h : canonical (lengthsOf (s.table t)) with
  | error c => exact .raises c fun _ _ _ => by simp only [State.relabel_table, h]
  | ok ps =>
    exact ⟨.table t (setPats (s.table t) ps), ⟨ho, fun hw => setPats_wf ps (Htg.wf_table hw t)⟩,
      fun _ _ _ => by simp only [State.relabel_table, h, Effect.apply]⟩

theorem htHist_hasEffect (t : Slot) (maxLen : Word) (s : State) : HasEffect (.htHist t maxLen) s := by
  refine ActsAs.hasEffect (fun _ => rfl) (.unlessOpen fun ho => ?_)
  by_cases hm : histLimit maxLen > Config.maxBits
  · exact .raises .badParam fun _ _ _ => if_pos hm
  · have hin : ∀ lv a b, histInput t (s.relabel lv a b) = histInput t s := fun _ _ _ => rfl
    cases h : lengthsUnder Config.lengthPolicy s.env.draws (histInput t s) (histLimit maxLen) with
    | error c => exact .raises c fun _ _ _ => by simp only [if_neg hm, State.relabel_env, hin, h]
    | ok ls =>
      exact ⟨.table t (setLens (s.table t) ls), ⟨ho, fun hw => setLens_wf ls (Htg.wf_table hw t)⟩, fun _ _ _ => by
        simp only [if_neg hm, State.relabel_env, hin, h, lengthDraws_reference, withDraws_zero, State.relabel_table,
          Effect.apply]⟩

theorem htLookup_hasEffect (t : Slot) (length : Word) (bits : BitVec 16) (s : State) :
    HasEffect (.htLookup t length bits) s := by
  refine ActsAs.hasEffect (fun _ => rfl) (.unlessOpen fun _ => ?_)
  by_cases hl : readU32 length < 1 ∨ readU32 length > 15
  · exact .raises .badBitLength fun _ _ _ => if_pos hl
  · cases h : lookup (s.table t) (readU32 length) bits.toNat with
    | none => exact .raises .notFound fun _ _ _ => by simp only [if_neg hl, State.relabel_table, h, raise]
    | some sym => exact .answers (sym.zeroExtend 32) fun _ _ _ => by simp only [if_neg hl, State.relabel_table, h]

theorem htLoadfixed_hasEffect (t : Slot) (s : State) : HasEffect (.htLoadfixed t) s := by
  refine ActsAs.hasEffect (fun _ => rfl) (.unlessOpen fun ho => ?_)
  cases t with
  | cl => exact .raises .badParam fun _ _ _ => rfl
  | ll => exact ⟨.table .ll fixedLl, ⟨ho, fun _ => fixedLl_wf⟩, fun _ _ _ => rfl⟩
  | dist => exact ⟨.table .dist fixedDist, ⟨ho, fun _ => fixedDist_wf⟩, fun _ _ _ => rfl⟩

/-! ## The histogram commands (40_huffman.md R109 to R112) -/

theorem histClear_hasEffect (s : State) : HasEffect .histClear s :=
  ActsAs.hasEffect (fun _ => rfl) (.unlessOpen fun ho => ⟨.hist (Vector.replicate Config.htCap 0), ho, fun _ _ _ => rfl⟩)

theorem histSet_hasEffect (k : Nat) (f : Word) (s : State) : HasEffect (.histSet k f) s := by
  refine ActsAs.hasEffect (fun _ => rfl) (.unlessOpen fun ho => ?_)
  by_cases h : k ≥ Config.htCap
  · exact .raises .badParam fun _ _ _ => if_pos h
  · exact ⟨.hist (s.htg.hist.setIfInBounds k f), ho, fun _ _ _ => if_neg h⟩

theorem histInc_hasEffect (k : Nat) (s : State) : HasEffect (.histInc k) s := by
  refine ActsAs.hasEffect (fun _ => rfl) (.unlessOpen fun ho => ?_)
  by_cases h : k ≥ Config.htCap
  · exact .raises .badParam fun _ _ _ => if_pos h
  · exact ⟨.hist (s.htg.hist.setIfInBounds k (s.htg.histAt k + 1)), ho, fun _ _ _ => if_neg h⟩

theorem histGet_hasEffect (k : Nat) (s : State) : HasEffect (.histGet k) s := by
  refine ActsAs.hasEffect (fun _ => rfl) (.unlessOpen fun _ => ?_)
  by_cases h : k ≥ Config.htCap
  · exact .raises .badParam fun _ _ _ => if_pos h
  · exact .answers (s.htg.histAt k) fun _ _ _ => if_neg h

/-! ## The history ring and match finder (41_history_match.md R143 to R147) -/

theorem hrConfig_hasEffect (wb : Word) (s : State) : HasEffect (.hrConfig wb) s := by
  refine ActsAs.hasEffect (fun _ => rfl) (.unlessOpen fun ho => ?_)
  by_cases h : readU32 wb > 7
  · exact .raises .unsupported fun _ _ _ => if_pos h
  · exact ⟨.ring (s.lzm.configure (wb.extractLsb' 0 3)), ⟨Lzm.configure_wf _, .inr ⟨⟨wb, rfl⟩, ho⟩⟩,
      fun _ _ _ => if_neg h⟩

/-- A byte operand that is recorded, or is no byte: HR.RECORD and HR.RECSKIP. -/
theorem ActsAs.recordsByte {i : Instr} (b : Word) (ins : Bool) (s : State) :
    ActsAs i s fun u => match readByte b with
      | none => raise .badParam u
      | some x => finish .ok 0 (u.setLzm (u.lzm.record x ins)) := by
  cases h : readByte b with
  | none => exact .raises .badParam fun _ _ _ => rfl
  | some x => exact ⟨.ring (s.lzm.record x ins), ⟨Lzm.record_wf x ins, .inl rfl⟩, fun _ _ _ => rfl⟩

theorem hrRecord_hasEffect (b : Word) (s : State) : HasEffect (.hrRecord b) s :=
  (ActsAs.unlessOpen fun _ => .recordsByte b true s).hasEffect fun _ => rfl

theorem hrRecskip_hasEffect (b : Word) (s : State) : HasEffect (.hrRecskip b) s :=
  (ActsAs.unlessOpen fun _ => .recordsByte b false s).hasEffect fun _ => rfl

theorem hrGet_hasEffect (d : Nat) (s : State) : HasEffect (.hrGet d) s :=
  ActsAs.hasEffect (fun _ => rfl) (.unlessOpen fun _ => .answers ((s.lzm.get d).zeroExtend 32) fun _ _ _ => rfl)

theorem mhFind_hasEffect (triple : Word) (hint : Nat) (s : State) : HasEffect (.mhFind triple hint) s := by
  refine ActsAs.hasEffect (fun _ => rfl) (.unlessOpen fun _ => ?_)
  cases h : readTriple triple with
  | none => exact .raises .badParam fun _ _ _ => rfl
  | some t => exact .answers (BitVec.ofNat 32 (s.lzm.find t hint)) fun _ _ _ => rfl

/-! ## NOP and the decoder commands outside Run (30_encoding.md R90, 42_decoder.md §1) -/

theorem nop_hasEffect (s : State) : HasEffect .nop s :=
  ActsAs.hasEffect (fun _ => rfl) (.answers 0 fun _ _ _ => rfl)

theorem decStatus_hasEffect (s : State) : HasEffect .decStatus s :=
  ActsAs.hasEffect (fun _ => rfl) (.answers (engineValue s.dbd) fun _ _ _ => rfl)

theorem decStart_hasEffect (params : Word) (s : State) : HasEffect (.decStart params) s := by
  refine ActsAs.hasEffect (fun _ => rfl) ?_
  cases h : readStart params with
  | none => exact .raises .badParam fun _ _ _ => rfl
  | some p =>
    by_cases hp : p.supported = true
    · exact ⟨.start p, ⟨params, rfl⟩, fun _ _ _ => if_pos hp⟩
    · exact .raises .unsupported fun _ _ _ => if_neg hp

theorem decDict_hasEffect (v : Word) (s : State) : HasEffect (.decDict v) s := by
  refine ActsAs.hasEffect (fun _ => rfl) ?_
  by_cases ho : (!sessionOpen s) = true
  · exact .raises .badState fun _ _ _ => if_pos ho
  · cases h : readBm1 v with
    | none => exact .raises .badParam fun _ _ _ => if_neg ho
    | some x =>
      cases x with
      | minusOne => exact .answers 0 fun _ _ _ => if_neg ho
      | byte x =>
        by_cases hp : (!s.dbd.preset) = true
        · exact .raises .unsupported fun _ _ _ => (if_neg ho).trans (if_pos hp)
        · by_cases hd : (!s.dbd.dictOpen) = true
          · exact .raises .badState fun _ _ _ => (if_neg ho).trans ((if_neg hp).trans (if_pos hd))
          · exact ⟨.ring (s.lzm.record x true), ⟨Lzm.record_wf x true, .inl rfl⟩,
              fun _ _ _ => (if_neg ho).trans ((if_neg hp).trans (if_neg hd))⟩

/-- The decoder is Idle, Closed or in Error where no session is open (10_state.md R47). -/
theorem DState.of_not_open {d : DState} (h : d.isOpen = false) : d = .idle ∨ d = .closed ∨ d = .error := by
  cases d <;> simp [DState.isOpen] at h ⊢

theorem decOne_hasEffect {v : Word} {s : State} (h : sessionOpen s = false ∨ readBm1 v = none) :
    HasEffect (.decOne v) s := by
  cases ho : sessionOpen s with
  | true =>
    have hv : readBm1 v = none := by simpa [ho] using h
    exact ⟨.report .badParam 0, fun _ => rfl, fun _ _ _ => execDecOne_badParam ho hv⟩
  | false =>
    rcases DState.of_not_open ho with hd | hd | hd
    · exact ⟨.report .badState 0, fun _ => rfl, fun _ _ _ => execDecOne_idle v hd⟩
    · exact ⟨.report .badState 0, fun _ => rfl, fun _ _ _ => execDecOne_closed v hd⟩
    · exact ⟨.sticky, hd, fun _ _ _ => execDecOne_error v hd⟩

theorem decFinish_hasEffect {s : State} (ho : sessionOpen s = false) : HasEffect .decFinish s := by
  rcases DState.of_not_open ho with hd | hd | hd
  · exact ⟨.report .badState 0, fun _ => rfl, fun _ _ _ => execDecFinish_idle hd⟩
  · exact ⟨.report .done 0, fun _ => rfl, fun _ _ _ => execDecFinish_closed hd⟩
  · exact ⟨.sticky, hd, fun _ _ _ => execDecFinish_error hd⟩

/-! ## Every command -/

/-- A command has one of the effects above, or runs the engine in an open session: DEC.ONE with a legal operand, or
DEC.FINISH. -/
theorem exec_cases (i : Instr) (s : State) :
    HasEffect i s
    ∨ (∃ v x, i = .decOne v ∧ sessionOpen s = true ∧ readBm1 v = some x)
    ∨ (i = .decFinish ∧ sessionOpen s = true) := by
  cases i with
  | nop => exact .inl (nop_hasEffect s)
  | htResize t n => exact .inl (htResize_hasEffect t n s)
  | htSetlen t k len => exact .inl (htSetlen_hasEffect t k len s)
  | htGetent t k => exact .inl (htGetent_hasEffect t k s)
  | htSize t => exact .inl (htSize_hasEffect t s)
  | htAssign t => exact .inl (htAssign_hasEffect t s)
  | htHist t maxLen => exact .inl (htHist_hasEffect t maxLen s)
  | htLookup t length bits => exact .inl (htLookup_hasEffect t length bits s)
  | htLoadfixed t => exact .inl (htLoadfixed_hasEffect t s)
  | histClear => exact .inl (histClear_hasEffect s)
  | histSet k f => exact .inl (histSet_hasEffect k f s)
  | histInc k => exact .inl (histInc_hasEffect k s)
  | histGet k => exact .inl (histGet_hasEffect k s)
  | hrConfig wb => exact .inl (hrConfig_hasEffect wb s)
  | hrRecord b => exact .inl (hrRecord_hasEffect b s)
  | hrRecskip b => exact .inl (hrRecskip_hasEffect b s)
  | hrGet d => exact .inl (hrGet_hasEffect d s)
  | mhFind triple hint => exact .inl (mhFind_hasEffect triple hint s)
  | decStart params => exact .inl (decStart_hasEffect params s)
  | decDict v => exact .inl (decDict_hasEffect v s)
  | decStatus => exact .inl (decStatus_hasEffect s)
  | decOne v =>
    cases ho : sessionOpen s with
    | false => exact .inl (decOne_hasEffect (.inl ho))
    | true =>
      cases hx : readBm1 v with
      | none => exact .inl (decOne_hasEffect (.inr hx))
      | some x => exact .inr (.inl ⟨v, x, rfl, rfl, hx⟩)
  | decFinish =>
    cases ho : sessionOpen s with
    | false => exact .inl (decFinish_hasEffect ho)
    | true => exact .inr (.inr ⟨rfl, rfl⟩)

/-- What every effect, and both commands that run the engine, leave true is true of every command's answer. -/
theorem exec_satisfies {P : State → Prop} (i : Instr) (s : State) (effect : ∀ e : Effect, e.Allowed i s → P (e.apply s))
    (one : ∀ x, sessionOpen s = true → P (oneEnd (runEngine (loadByte x s))))
    (fin : sessionOpen s = true → P (finishEnd (runEngine s))) : ∃ t, exec i s = .next t ∧ P t := by
  rcases exec_cases i s with ⟨e, he, hx⟩ | ⟨v, x, rfl, ho, hv⟩ | ⟨rfl, ho⟩
  · exact ⟨e.apply s, hx s.dbd.level s.status s.value, effect e he⟩
  · exact ⟨_, execDecOne_open ho hv, one x ho⟩
  · exact ⟨_, execDecFinish_open ho, fin ho⟩

theorem exec_next_satisfies {P : State → Prop} {i : Instr} {s t : State} (h : exec i s = .next t)
    (effect : ∀ e : Effect, e.Allowed i s → P (e.apply s))
    (one : ∀ x, sessionOpen s = true → P (oneEnd (runEngine (loadByte x s))))
    (fin : sessionOpen s = true → P (finishEnd (runEngine s))) : P t := by
  obtain ⟨u, hu, hp⟩ := exec_satisfies i s effect one fin
  rw [h] at hu
  cases hu
  exact hp

end Sys2Proof.Machine

/-! SUPPORT. No micro-step reads or writes LEVEL, STATUS or VALUE: Run on a machine with other values there does the same. -/

namespace Sys2Proof.Machine

/-- The micro-step's answer with LEVEL, STATUS and VALUE replaced. -/
def Micro.relabel (lv : BitVec 2) (a b : Word) : Micro → Micro
  | .cont s => .cont (s.relabel lv a b)
  | .stop c s => .stop c (s.relabel lv a b)

/-- A branch on a condition that a map leaves as it is commutes with the map where both arms do. -/
theorem ite_eq_map {α β : Type} (f : α → β) {c c' : Prop} [Decidable c] [Decidable c'] {x y : α} {x' y' : β}
    (hc : c' = c) (hx : x' = f x) (hy : y' = f y) : (if c' then x' else y') = f (if c then x else y) := by
  rw [apply_ite f]
  exact ite_congr hc (fun _ => hx) (fun _ => hy)

section
variable {lv : BitVec 2} {a b : Word}

/-- `ite_eq_map` for a micro-step. -/
theorem Micro.ite_relabel {c c' : Prop} [Decidable c] [Decidable c'] {x y x' y' : Micro} (hc : c' = c)
    (hx : x' = x.relabel lv a b) (hy : y' = y.relabel lv a b) :
    (if c' then x' else y') = (if c then x else y).relabel lv a b :=
  ite_eq_map (Micro.relabel lv a b) hc hx hy

/-- `ite_eq_map` for a state. -/
theorem State.ite_relabel {c c' : Prop} [Decidable c] [Decidable c'] {x y x' y' : State} (hc : c' = c)
    (hx : x' = x.relabel lv a b) (hy : y' = y.relabel lv a b) :
    (if c' then x' else y') = (if c then x else y).relabel lv a b :=
  ite_eq_map (State.relabel lv a b) hc hx hy

/-- `ite_eq_map` for the decoder's registers. -/
theorem Dbd.ite_withLevel {c c' : Prop} [Decidable c] [Decidable c'] {x y x' y' : Dbd} (hc : c' = c)
    (hx : x' = x.withLevel lv) (hy : y' = y.withLevel lv) : (if c' then x' else y') = (if c then x else y).withLevel lv :=
  ite_eq_map (Dbd.withLevel lv) hc hx hy

/-- New registers that agree but for LEVEL. -/
theorem cont_setDbd_relabel {s : State} {d d' : Dbd} (h : d' = d.withLevel lv) :
    .cont ((s.relabel lv a b).setDbd d') = Micro.relabel lv a b (.cont (s.setDbd d)) := by
  rw [h]; rfl

/-! ## Fields and codes -/

theorem fieldState_relabel (n : Nat) (bit : Bool) (s : State) :
    fieldState n bit (s.relabel lv a b) = (fieldState n bit s).relabel lv a b :=
  State.ite_relabel rfl rfl rfl

theorem codeState_relabel (t : Slot) (m : Nat) (bit : Bool) (s : State) :
    codeState t m bit (s.relabel lv a b) = (codeState t m bit s).relabel lv a b := by
  have hr : readCode t m bit (s.relabel lv a b) = readCode t m bit s := rfl
  unfold codeState
  rw [hr]
  split <;> rfl

/-! ## Transitions -/

theorem endOfBlock_withLevel (d : Dbd) : endOfBlock (d.withLevel lv) = (endOfBlock d).withLevel lv :=
  Dbd.ite_withLevel rfl rfl rfl

theorem onBlockHeader_relabel (v : Word) (s : State) :
    onBlockHeader v (s.relabel lv a b) = (onBlockHeader v s).relabel lv a b := by
  unfold onBlockHeader
  dsimp only
  split <;> rfl

theorem onRawLength_relabel (v : Word) (s : State) :
    onRawLength v (s.relabel lv a b) = (onRawLength v s).relabel lv a b :=
  Micro.ite_relabel rfl rfl
    (Micro.ite_relabel rfl (cont_setDbd_relabel (endOfBlock_withLevel { s.dbd with rem := 0 })) rfl)

theorem onRawByte_relabel (v : Word) (s : State) : onRawByte v (s.relabel lv a b) = (onRawByte v s).relabel lv a b :=
  cont_setDbd_relabel (Dbd.ite_withLevel rfl
    (endOfBlock_withLevel { emit (v.extractLsb' 0 8) s.dbd with rem := s.dbd.rem - 1 }) rfl)

theorem assignSlot_relabel (t : Slot) (n : Nat) (s : State) :
    assignSlot t n (s.relabel lv a b) = (assignSlot t n s).map (State.relabel lv a b) := by
  unfold assignSlot
  rw [State.relabel_table]
  split <;> rfl

theorem setupDynamic_relabel (s : State) : setupDynamic (s.relabel lv a b) = (setupDynamic s).relabel lv a b := by
  have hl : (s.relabel lv a b).dbd.hlit = s.dbd.hlit := rfl
  have hd : (s.relabel lv a b).dbd.hdist = s.dbd.hdist := rfl
  unfold setupDynamic
  rw [hl, hd, assignSlot_relabel]
  cases assignSlot .ll s.dbd.hlit.toNat s with
  | error c => rfl
  | ok s1 =>
    simp only [Except.map, assignSlot_relabel]
    cases assignSlot .dist s.dbd.hdist.toNat s1 <;> rfl

theorem stepSetup_relabel (s : State) : stepSetup (s.relabel lv a b) = (stepSetup s).relabel lv a b :=
  Micro.ite_relabel rfl rfl (setupDynamic_relabel s)

theorem onAlphabetHeader_relabel (v : Word) (s : State) :
    onAlphabetHeader v (s.relabel lv a b) = (onAlphabetHeader v s).relabel lv a b :=
  Micro.ite_relabel rfl rfl rfl

theorem finishAlphabet_relabel (s : State) : finishAlphabet (s.relabel lv a b) = (finishAlphabet s).relabel lv a b := by
  unfold finishAlphabet
  rw [assignSlot_relabel]
  cases assignSlot .cl 19 s <;> rfl

theorem onAlphabetLength_relabel (v : Word) (s : State) :
    onAlphabetLength v (s.relabel lv a b) = (onAlphabetLength v s).relabel lv a b := by
  unfold onAlphabetLength
  refine Micro.ite_relabel rfl ((congrArg finishAlphabet ?_).trans (finishAlphabet_relabel _)) rfl
  rfl

theorem setLenAt_relabel (j v : Nat) (s : State) : setLenAt j v (s.relabel lv a b) = (setLenAt j v s).relabel lv a b :=
  State.ite_relabel rfl rfl rfl

theorem appendLens_relabel (v n : Nat) (s : State) :
    appendLens v n (s.relabel lv a b) = (appendLens v n s).relabel lv a b := by
  induction n generalizing s with
  | zero => rfl
  | succ n ih =>
    rw [appendLens_succ, appendLens_succ, setLenAt_relabel]
    refine (congrArg (appendLens v n) ?_).trans (ih _)
    rfl

theorem lensDone_relabel (s : State) : lensDone (s.relabel lv a b) = (lensDone s).relabel lv a b :=
  State.ite_relabel rfl rfl rfl

theorem onLengthSymbol_relabel (sym : Nat) (s : State) :
    onLengthSymbol sym (s.relabel lv a b) = (onLengthSymbol sym s).relabel lv a b := by
  refine Micro.ite_relabel rfl ?_ (Micro.ite_relabel rfl rfl rfl)
  rw [appendLens_relabel, lensDone_relabel]
  rfl

theorem onRepeat_relabel (v : Word) (s : State) : onRepeat v (s.relabel lv a b) = (onRepeat v s).relabel lv a b := by
  unfold onRepeat
  refine Micro.ite_relabel rfl rfl (congrArg Micro.cont ?_)
  rw [appendLens_relabel, ← lensDone_relabel]
  rfl

theorem onLiteralOrLength_relabel (sym : Nat) (s : State) :
    onLiteralOrLength sym (s.relabel lv a b) = (onLiteralOrLength sym s).relabel lv a b := by
  unfold onLiteralOrLength
  refine Micro.ite_relabel rfl rfl (Micro.ite_relabel rfl ?_ ?_)
  · exact cont_setDbd_relabel (endOfBlock_withLevel s.dbd)
  · generalize sym - 257 = k
    exact Micro.ite_relabel rfl rfl rfl

theorem onDistance_relabel (sym : Nat) (s : State) :
    onDistance sym (s.relabel lv a b) = (onDistance sym s).relabel lv a b :=
  Micro.ite_relabel rfl rfl (cont_setDbd_relabel (Dbd.ite_withLevel rfl rfl rfl))

theorem copyStep_relabel (s : State) : copyStep (s.relabel lv a b) = (copyStep s).relabel lv a b :=
  cont_setDbd_relabel (Dbd.ite_withLevel rfl rfl rfl)

/-! ## Micro-steps -/

theorem bitStep_relabel (bit : Bool) (s : State) :
    bitStep bit (s.relabel lv a b) = (bitStep bit s).relabel lv a b := by
  have hf : ∀ n, readField n bit (s.relabel lv a b) = readField n bit s := fun _ => rfl
  have hc : ∀ t m, readCode t m bit (s.relabel lv a b) = readCode t m bit s := fun _ _ => rfl
  unfold bitStep
  rw [State.relabel_dstate]
  split
  · simp only [stepBlockHeader, hf, fieldState_relabel, onBlockHeader_relabel]
    split <;> rfl
  · simp only [stepRawLength, hf, fieldState_relabel, onRawLength_relabel]
    split <;> rfl
  · simp only [stepRawBytes, hf, fieldState_relabel, onRawByte_relabel]
    split <;> rfl
  · simp only [stepAlphabetHeader, hf, fieldState_relabel, onAlphabetHeader_relabel]
    split <;> rfl
  · simp only [stepAlphabet, hf, fieldState_relabel, onAlphabetLength_relabel]
    split <;> rfl
  · simp only [stepCodeLengths, hc, codeState_relabel, onLengthSymbol_relabel]
    split <;> rfl
  · have hr : (s.relabel lv a b).dbd.rep = s.dbd.rep := rfl
    simp only [stepLengthRepeat, hr, hf, fieldState_relabel, onRepeat_relabel]
    split <;> rfl
  · simp only [stepLiteralOrLength, hc, codeState_relabel, onLiteralOrLength_relabel]
    split <;> rfl
  · have hl : (s.relabel lv a b).dbd.lsym = s.dbd.lsym := rfl
    simp only [stepLengthExtra, hl, hf, fieldState_relabel]
    split <;> rfl
  · simp only [stepDistance, hc, codeState_relabel, onDistance_relabel]
    split <;> rfl
  · have hd : (s.relabel lv a b).dbd.dsym = s.dbd.dsym := rfl
    simp only [stepDistanceExtra, hd, hf, fieldState_relabel]
    split <;> rfl
  all_goals rfl

theorem inputStep_relabel (s : State) : inputStep (s.relabel lv a b) = (inputStep s).relabel lv a b :=
  Micro.ite_relabel rfl rfl (bitStep_relabel _ (dropBit s))

theorem engineStep_relabel (s : State) : engineStep (s.relabel lv a b) = (engineStep s).relabel lv a b := by
  unfold engineStep
  rw [State.relabel_dstate]
  split
  · rfl
  · exact copyStep_relabel s
  · exact stepSetup_relabel s
  all_goals exact inputStep_relabel s

theorem drainStep_relabel (s : State) : drainStep (s.relabel lv a b) = (drainStep s).relabel lv a b := by
  have hp : put (s.relabel lv a b) = ((put s).1, (put s).2.relabel lv a b) := rfl
  unfold drainStep
  rw [hp]
  obtain ⟨x, u⟩ := put s
  cases x <;> rfl

theorem microStep_relabel (s : State) : microStep (s.relabel lv a b) = (microStep s).relabel lv a b :=
  Micro.ite_relabel rfl (drainStep_relabel s) (engineStep_relabel s)

/-- Run neither reads nor writes LEVEL, STATUS and VALUE. -/
theorem run_relabel (n : Nat) (s : State) : run n (s.relabel lv a b) = ((run n s).1, (run n s).2.relabel lv a b) := by
  induction n generalizing s with
  | zero => rfl
  | succ n ih =>
    have h := microStep_relabel (lv := lv) (a := a) (b := b) s
    cases hm : microStep s with
    | cont t => rw [hm] at h; rw [run_cont hm, run_cont h, ih]
    | stop c t => rw [hm] at h; rw [run_stop hm, run_stop h]

theorem runEngine_relabel (s : State) :
    runEngine (s.relabel lv a b) = ((runEngine s).1, (runEngine s).2.relabel lv a b) :=
  run_relabel Config.troubleLimit s

end

end Sys2Proof.Machine

/-! SUPPORT. The statements of 10_state.md about every command, each from the effects of Effects and from Run: what a command
answers, what it does not read, and the window it keeps. -/

namespace Sys2Proof.Machine

/-! ## The ends of DEC.ONE and DEC.FINISH -/

/-- The code and the machine with the registers no command reads replaced. -/
theorem oneEnd_relabel (lv : BitVec 2) (a b : Word) (r : Code × State) :
    oneEnd (r.1, r.2.relabel lv a b) = (oneEnd r).setLevel lv := rfl

theorem finishEnd_relabel (lv : BitVec 2) (a b : Word) (r : Code × State) :
    finishEnd (r.1, r.2.relabel lv a b) = (finishEnd r).setLevel lv := by
  obtain ⟨c, t⟩ := r
  cases c <;> rfl

theorem loadByte_relabel (lv : BitVec 2) (a b : Word) (x : Bm1) (s : State) :
    loadByte x (s.relabel lv a b) = (loadByte x s).relabel lv a b := by
  cases x with
  | minusOne => rfl
  | byte v => exact State.ite_relabel rfl rfl rfl

/-- A byte loaded changes the decoder's registers alone. -/
theorem loadByte_frame (x : Bm1) (s : State) :
    (loadByte x s).cmd = s.cmd ∧ (loadByte x s).data = s.data ∧ (loadByte x s).lzm = s.lzm := by
  rcases loadByte_cases x s with h | ⟨b, -, -, -, h⟩ <;> rw [h] <;> exact ⟨rfl, rfl, rfl⟩

/-- DEC.FINISH reports without a value and writes the decoder's registers alone after Run. -/
theorem finishEnd_frame (r : Code × State) :
    (finishEnd r).cmd = r.2.cmd ∧ (finishEnd r).data = r.2.data ∧ (finishEnd r).lzm = r.2.lzm ∧ (finishEnd r).value = 0 := by
  obtain ⟨c, t⟩ := r
  cases c <;> exact ⟨rfl, rfl, rfl, rfl⟩

/-! ## What a command answers (10_state.md R23, R25) -/

/-- CMD and DATA stay, and a value comes with Ok alone. -/
def Answers (s t : State) : Prop := t.cmd = s.cmd ∧ t.data = s.data ∧ (t.status ≠ 0 → t.value = 0)

theorem Effect.apply_answers {i : Instr} {s : State} {e : Effect} (h : e.Allowed i s) : Answers s (e.apply s) := by
  cases e with
  | report c v => exact ⟨rfl, rfl, fun hs => h fun hc => hs ((Code.word_eq_zero c).2 hc)⟩
  | sticky => exact ⟨rfl, rfl, fun _ => rfl⟩
  | table t es => exact ⟨rfl, rfl, fun _ => rfl⟩
  | hist v => exact ⟨rfl, rfl, fun _ => rfl⟩
  | ring l => exact ⟨rfl, rfl, fun _ => rfl⟩
  | start p => exact ⟨rfl, rfl, fun _ => rfl⟩

theorem oneEnd_answers (x : Bm1) (s : State) : Answers s (oneEnd (runEngine (loadByte x s))) := by
  obtain ⟨⟨hc, hd, -⟩, -⟩ := run_keeps Config.troubleLimit (loadByte x s)
  obtain ⟨lc, ld, -⟩ := loadByte_frame x s
  exact ⟨hc.trans lc, hd.trans ld, fun _ => rfl⟩

theorem finishEnd_answers (s : State) : Answers s (finishEnd (runEngine s)) := by
  obtain ⟨⟨hc, hd, -⟩, -⟩ := run_keeps Config.troubleLimit s
  obtain ⟨fc, fd, -, fv⟩ := finishEnd_frame (runEngine s)
  exact ⟨fc.trans hc, fd.trans hd, fun _ => fv⟩

/-! ## What no command reads (10_state.md R26, R39) -/

/-- Effects but a session's start neither read nor write LEVEL, and none reads STATUS or VALUE. -/
theorem Effect.apply_relabel {e : Effect} (he : ∀ p, e ≠ .start p) (lv : BitVec 2) (a b : Word) (s : State) :
    e.apply (s.relabel lv a b) = (e.apply s).setLevel lv := by
  cases e with
  | start p => exact absurd rfl (he p)
  | report c v => rfl
  | sticky => rfl
  | table t es => rfl
  | hist v => rfl
  | ring l => rfl

/-- No effect reads STATUS or VALUE. -/
theorem Effect.apply_status (e : Effect) (a b : Word) (s : State) :
    e.apply { s with status := a, value := b } = e.apply s := by
  cases e <;> rfl

/-- A command but DEC.START answers the same whatever LEVEL, STATUS and VALUE hold, but for LEVEL itself. -/
theorem exec_relabel {i : Instr} (hi : ∀ p, i ≠ .decStart p) (s : State) :
    ∃ t : State, ∀ lv a b, exec i (s.relabel lv a b) = .next (t.setLevel lv) := by
  rcases exec_cases i s with ⟨e, he, hx⟩ | ⟨v, x, rfl, ho, hv⟩ | ⟨rfl, ho⟩
  · have hs : ∀ p, e ≠ .start p := by
      rintro p rfl
      obtain ⟨w, hw⟩ := he
      exact hi w hw
    exact ⟨e.apply s, fun lv a b => by rw [hx, Effect.apply_relabel hs]⟩
  · refine ⟨oneEnd (runEngine (loadByte x s)), fun lv a b => ?_⟩
    have h : exec (.decOne v) (s.relabel lv a b) = .next (oneEnd (runEngine (loadByte x (s.relabel lv a b)))) :=
      execDecOne_open ho hv
    rw [h, loadByte_relabel, runEngine_relabel, oneEnd_relabel]
  · refine ⟨finishEnd (runEngine s), fun lv a b => ?_⟩
    have h : exec .decFinish (s.relabel lv a b) = .next (finishEnd (runEngine (s.relabel lv a b))) := execDecFinish_open ho
    rw [h, runEngine_relabel, finishEnd_relabel]

/-! ## The window (10_state.md R31) -/

/-- An effect that writes WB is a session's start, or HR.CONFIG's where no session is open. -/
theorem Effect.apply_wb {i : Instr} {s : State} {e : Effect} (h : e.Allowed i s) (hs : ∀ p, i ≠ .decStart p)
    (hc : (∀ wb, i ≠ .hrConfig wb) ∨ sessionOpen s = true) : (e.apply s).lzm.wb = s.lzm.wb := by
  cases e with
  | report c v => rfl
  | sticky => rfl
  | table t es => rfl
  | hist v => rfl
  | ring l =>
    rcases h.2 with hw | ⟨⟨wb, hwb⟩, ho⟩
    · exact hw
    · rcases hc with hn | hc
      · exact absurd hwb (hn wb)
      · rw [ho] at hc; cases hc
  | start p =>
    obtain ⟨w, hw⟩ := h
    exact absurd hw (hs w)

theorem oneEnd_wb (x : Bm1) (s : State) : (oneEnd (runEngine (loadByte x s))).lzm.wb = s.lzm.wb := by
  obtain ⟨-, ⟨-, hw⟩, -⟩ := run_keeps Config.troubleLimit (loadByte x s)
  obtain ⟨-, -, hl⟩ := loadByte_frame x s
  exact hw.trans (congrArg Lzm.wb hl)

theorem finishEnd_wb (s : State) : (finishEnd (runEngine s)).lzm.wb = s.lzm.wb := by
  obtain ⟨-, ⟨-, hw⟩, -⟩ := run_keeps Config.troubleLimit s
  obtain ⟨-, -, hl, -⟩ := finishEnd_frame (runEngine s)
  exact (congrArg Lzm.wb hl).trans hw

/-! ## The invariant -/

/-- With no session open the decoder's registers meet their form under any slots. -/
theorem Dbd.wf_of_closed {h h' : Htg} {d : Dbd} (ho : d.dstate.isOpen = false) (hw : d.wf h) : d.wf h' := by
  obtain ⟨⟨hb, -, hv, he⟩, hh⟩ := hw
  refine ⟨⟨hb, ?_, hv, he⟩, hh⟩
  rcases DState.of_not_open ho with hd | hd | hd <;> simp only [phaseOk, hd]

/-- A session that starts meets the form in ReadBlockHeader. -/
theorem Dbd.started_wf (p : StartParams) (h : Htg) : (Dbd.started p).wf h :=
  ⟨⟨Nat.zero_le 8, reading_zero (by decide) rfl rfl, nofun, nofun, fun _ => rfl⟩, rfl, fun _ => rfl⟩

/-- In Error ERR is a failure's code (60_exceptions.md R235). -/
theorem Dbd.err_mem_failCodes {h : Htg} {d : Dbd} (hw : d.wf h) (hd : d.dstate = .error) : d.err ∈ failCodes := by
  obtain ⟨⟨-, -, -, he, -⟩, -⟩ := hw
  exact he hd

theorem failCode_word_mem : ∀ b ∈ failCodes, statusWord b ∈ statusCodes := by decide

theorem Effect.apply_inv {i : Instr} {s : State} {e : Effect} (h : e.Allowed i s) (hi : s.Inv) : (e.apply s).Inv := by
  obtain ⟨ht, hl, hd, -⟩ := hi
  cases e with
  | report c v => exact ⟨ht, hl, hd, c.word_mem_statusCodes⟩
  | sticky => exact ⟨ht, hl, hd, failCode_word_mem _ (Dbd.err_mem_failCodes hd h)⟩
  | table t es =>
    obtain ⟨ho, hw⟩ := h
    exact ⟨Htg.wf_setTable ht t (hw ht), hl, Dbd.wf_of_closed ho hd, Code.word_mem_statusCodes _⟩
  | hist v => exact ⟨ht, hl, Dbd.wf_of_closed h hd, Code.word_mem_statusCodes _⟩
  | ring l => exact ⟨ht, h.1 hl, hd, Code.word_mem_statusCodes _⟩
  | start p => exact ⟨ht, Lzm.configure_wf _ hl, Dbd.started_wf p _, Code.word_mem_statusCodes _⟩

/-- An open session of the machine's invariant meets the engine's. -/
theorem engInv_of_inv {s : State} (hi : s.Inv) (ho : sessionOpen s = true) : EngInv s := by
  obtain ⟨ht, -, ⟨⟨hb, hp, -, -, he⟩, -⟩, -⟩ := hi
  have hne : s.dbd.dstate ≠ .error := ((sessionOpen_iff s).1 ho).2.1
  exact ⟨ht, ho, hb, hp, he hne⟩

/-- Outside Done no phase speaks of BITBUF, BITCNT or DICT_OPEN. -/
theorem phaseOk_loaded {h : Htg} {d : Dbd} (hd : d.dstate ≠ .done) (hp : phaseOk h d) (b : Byte) :
    phaseOk h { d with bitbuf := b, bitcnt := 8, dictOpen := false } := by
  cases hs : d.dstate with
  | done => exact absurd hs hd
  | idle | error | closed => simp only [phaseOk]
  | _ => simp only [phaseOk, hs] at hp ⊢; exact hp

/-- The argument of DEC.ONE, loaded or not, keeps the engine's invariant. -/
theorem loadByte_engInv (x : Bm1) {s : State} (h : EngInv s) : EngInv (loadByte x s) := by
  rcases loadByte_cases x s with e | ⟨b, -, -, hd, e⟩ <;> rw [e]
  · exact h
  · exact ⟨h.tables, h.isOpen, Nat.le_refl 8, phaseOk_loaded hd h.phase b, h.err⟩

/-- What a running decoder leaves at the end of a command, HOLD set as the byte is pending or not (42_decoder.md R163). -/
theorem EngInv.setHold_wf {t : State} (h : EngInv t) (hold : Bool) (hv : hold = t.dbd.outv)
    (hb : hold = false → t.dbd.bitcnt = 0) : (setHold hold t).dbd.wf t.htg := by
  have hne : t.dbd.dstate ≠ .error := ((sessionOpen_iff t).1 h.isOpen).2.1
  exact ⟨⟨h.bits, h.phase, fun _ => h.isOpen, fun hd => absurd hd hne, fun _ => h.err⟩, hv, hb⟩

/-- What Fail leaves meets the form of Error (60_exceptions.md R235, R236). -/
theorem Dbd.failed_wf {c : Code} (hc : c.bits ∈ failCodes) (d : Dbd) (h : Htg) : (d.failed c).wf h :=
  ⟨⟨Nat.zero_le 8, trivial, nofun, fun _ => hc, fun hd => absurd rfl hd⟩, rfl, fun _ => rfl⟩

/-- A session Run has finished meets the form of Closed (42_decoder.md R164). -/
theorem EngInv.closed_wf {t : State} (h : EngInv t) (hv : t.dbd.outv = false) (hb : t.dbd.bitcnt = 0) :
    Dbd.wf t.htg { (setHold false t).dbd with dstate := .closed } :=
  ⟨⟨h.bits, trivial, fun ho => absurd (hv.symm.trans ho) nofun, nofun, fun _ => h.err⟩, hv.symm, fun _ => hb⟩

/-- In Done no bit is held. -/
theorem EngInv.bitcnt_done {t : State} (h : EngInv t) (hd : t.dbd.dstate = .done) : t.dbd.bitcnt = 0 := by
  have hp := h.phase
  simpa only [phaseOk, hd] using hp

/-- Fail is called with none of the three codes Run stops with otherwise. -/
theorem failCode_ne {c : Code} (h : c.bits ∈ failCodes) : c ≠ .overflow ∧ c ≠ .done ∧ c ≠ .ok := by
  refine ⟨?_, ?_, ?_⟩ <;> rintro rfl <;> exact absurd h (by decide)

/-- DEC.ONE's end keeps the invariant: HOLD is set for a refused byte, and cleared for every other stop. -/
theorem oneEnd_inv {r : Code × State} (h : Stopped r.1 r.2) (hl : r.2.lzm.wf) : (oneEnd r).Inv := by
  obtain ⟨c, t⟩ := r
  change Stopped c t at h
  rcases h with ⟨rfl, he, hv⟩ | ⟨rfl, he, hv, hd⟩ | ⟨rfl, he, hv, hb⟩ | ⟨hc, u, rfl, hu⟩
  · exact ⟨he.tables, hl, he.setHold_wf true hv.symm nofun, Code.word_mem_statusCodes _⟩
  · exact ⟨he.tables, hl, he.setHold_wf false hv.symm fun _ => he.bitcnt_done hd, Code.word_mem_statusCodes _⟩
  · exact ⟨he.tables, hl, he.setHold_wf false hv.symm fun _ => hb, Code.word_mem_statusCodes _⟩
  · have hno : (c == Code.overflow) = false := beq_false_of_ne (failCode_ne hc).1
    rw [oneEnd, hno]
    exact ⟨hu, hl, Dbd.failed_wf hc u.dbd u.htg, Code.word_mem_statusCodes c⟩

/-- DEC.FINISH's end keeps the invariant: a refused byte is held, Done closes the session, no input left fails with Eof, and
a failure stays. -/
theorem finishEnd_inv {r : Code × State} (h : Stopped r.1 r.2) (hl : r.2.lzm.wf) : (finishEnd r).Inv := by
  obtain ⟨c, t⟩ := r
  change Stopped c t at h
  rcases h with ⟨rfl, he, hv⟩ | ⟨rfl, he, hv, hd⟩ | ⟨rfl, he, -, -⟩ | ⟨hc, u, rfl, hu⟩
  · exact ⟨he.tables, hl, he.setHold_wf true hv.symm nofun, Code.word_mem_statusCodes _⟩
  · exact ⟨he.tables, hl, he.closed_wf hv (he.bitcnt_done hd), Code.word_mem_statusCodes _⟩
  · exact ⟨he.tables, hl, Dbd.failed_wf (by decide) _ _, Code.word_mem_statusCodes _⟩
  · obtain ⟨h1, h2, h3⟩ := failCode_ne hc
    show State.Inv (finishEnd (c, fail c u))
    rw [finishEnd_other _ h1 h2 h3]
    exact ⟨hu, hl, Dbd.failed_wf hc u.dbd u.htg, Code.word_mem_statusCodes c⟩

theorem oneEnd_runEngine_inv (x : Bm1) {s : State} (hi : s.Inv) (ho : sessionOpen s = true) :
    (oneEnd (runEngine (loadByte x s))).Inv := by
  have hl : (loadByte x s).lzm.wf := by
    rw [(loadByte_frame x s).2.2]
    exact hi.2.1
  exact oneEnd_inv (run_stopped _ (loadByte_engInv x (engInv_of_inv hi ho))) (run_lzm_wf _ hl)

theorem finishEnd_runEngine_inv {s : State} (hi : s.Inv) (ho : sessionOpen s = true) : (finishEnd (runEngine s)).Inv :=
  finishEnd_inv (run_stopped _ (engInv_of_inv hi ho)) (run_lzm_wf _ hi.2.1)

/-- Every command keeps the invariant. -/
theorem exec_inv {i : Instr} {s t : State} (hi : s.Inv) (h : exec i s = .next t) : t.Inv :=
  exec_next_satisfies h (fun _ he => Effect.apply_inv he hi) (fun x ho => oneEnd_runEngine_inv x hi ho)
    (fun ho => finishEnd_runEngine_inv hi ho)

/-! ## The host's accesses -/

theorem Htg.reset_wf (k : Nat) : (Htg.reset k).wf :=
  ⟨⟨Nat.zero_le _, nofun⟩, ⟨Nat.zero_le _, nofun⟩, ⟨Nat.zero_le _, nofun⟩⟩

theorem Dbd.reset_wf (h : Htg) : Dbd.reset.wf h :=
  ⟨⟨Nat.zero_le 8, trivial, nofun, nofun, fun _ => rfl⟩, rfl, fun _ => rfl⟩

theorem State.reset_inv : State.reset.Inv :=
  ⟨Htg.reset_wf 0, Lzm.reset_wf, Dbd.reset_wf _, Code.word_mem_statusCodes .ok⟩

theorem resetBlock_inv (s : State) : (resetBlock s).Inv :=
  ⟨Htg.reset_wf _, Lzm.reset_wf, Dbd.reset_wf _, Code.word_mem_statusCodes .ok⟩

theorem issue_inv {w : Word} {s t : State} (hi : s.Inv) (h : issue w s = .next t) : t.Inv := by
  obtain ⟨ht, hl, hd, hs⟩ := hi
  cases hw : decode w s.data with
  | ok i => exact exec_inv (s := { s with cmd := w }) ⟨ht, hl, hd, hs⟩ ((issue_ok hw).symm.trans h)
  | error e =>
    rw [issue_error hw] at h; cases h
    exact ⟨ht, hl, hd, Code.word_mem_statusCodes _⟩

/-- What a host access that is not refused does: it issues a command, stores DATA, is ignored, reads, or resets. -/
theorem access_cases {a : HostAccess} {s t : State} (h : access a s = .next t) :
    (∃ w, issue w s = .next t) ∨ (∃ w, t = { s with data := w }) ∨ t = s
      ∨ (∃ v, t = { s with env := { s.env with readData := v } }) ∨ t = resetBlock s := by
  cases a with
  | write offset width w =>
    simp only [access] at h
    cases hr : hostReg offset width with
    | none => rw [hr] at h; cases h
    | some r =>
      rw [hr] at h
      cases r with
      | cmd => exact .inl ⟨w, h⟩
      | data => cases h; exact .inr (.inl ⟨w, rfl⟩)
      | status => cases h; exact .inr (.inr (.inl rfl))
      | value => cases h; exact .inr (.inr (.inl rfl))
  | read offset width =>
    simp only [access] at h
    cases hr : hostReg offset width with
    | none => rw [hr] at h; cases h
    | some r => rw [hr] at h; cases h; exact .inr (.inr (.inr (.inl ⟨_, rfl⟩)))
  | reset => cases h; exact .inr (.inr (.inr (.inr rfl)))

theorem access_inv {a : HostAccess} {s t : State} (hi : s.Inv) (h : access a s = .next t) : t.Inv := by
  rcases access_cases h with ⟨w, hw⟩ | ⟨w, rfl⟩ | rfl | ⟨v, rfl⟩ | rfl
  · exact issue_inv hi hw
  · exact hi
  · exact hi
  · exact hi
  · exact resetBlock_inv s

theorem step_inv {s t : State} (hi : s.Inv) (h : step s = .next t) : t.Inv := by
  cases hh : s.env.host with
  | nil => rw [step_idle hh] at h; cases h; exact hi
  | cons a rest =>
    have hs : step s = access a (s.setHost rest) := by simp only [step, hostStep, hh]
    exact access_inv (s := s.setHost rest) hi (hs.symm.trans h)

end Sys2Proof.Machine

namespace Sys2Proof.Proofs
open Sys2Proof.Machine

/-! ## The statements -/

/-- Settles O13: every host access keeps the invariant, and every command does, by its effect or by what Run stops with. -/
theorem stepKeepsInvariant : Obligations.StepKeepsInvariant := fun _ _ => step_inv

/-- Settles O14, by the effect of the command or by what Run leaves alone. -/
theorem everyCommandAnswers : Obligations.EveryCommandAnswers := fun i s =>
  exec_satisfies (P := Answers s) i s (fun _ he => Effect.apply_answers he) (fun x _ => oneEnd_answers x s)
    (fun _ => finishEnd_answers s)

/-- Settles O15: a command but DEC.START reads neither register, and DEC.START's operand alone decides what it does. -/
theorem noCommandReadsStatus : Obligations.NoCommandReadsStatus := by
  intro i s a b
  by_cases hi : ∃ p, i = .decStart p
  · obtain ⟨p, rfl⟩ := hi
    obtain ⟨e, -, hx⟩ := decStart_hasEffect p s
    calc exec (.decStart p) { s with status := a, value := b }
        = .next (e.apply { s with status := a, value := b }) := hx s.dbd.level a b
      _ = .next (e.apply s) := by rw [Effect.apply_status]
      _ = exec (.decStart p) s := (hx s.dbd.level s.status s.value).symm
  · obtain ⟨t, ht⟩ := exec_relabel (fun p h => hi ⟨p, h⟩) s
    exact (ht s.dbd.level a b).trans (ht s.dbd.level s.status s.value).symm

/-- Settles O19, by the effect of the command or by what Run leaves alone. -/
theorem windowIsFixedForASession : Obligations.WindowIsFixedForASession := fun _ s _ h hs hc =>
  exec_next_satisfies (P := fun t => t.lzm.wb = s.lzm.wb) h (fun _ he => Effect.apply_wb he hs hc) (fun x _ => oneEnd_wb x s)
    (fun _ => finishEnd_wb s)

/-- Settles O21: no effect but a session's start, and no micro-step, reads or writes LEVEL. -/
theorem levelHasNoEffect : Obligations.LevelHasNoEffect := by
  intro i s lv hi
  obtain ⟨t, ht⟩ := exec_relabel hi s
  exact ⟨t.setLevel s.dbd.level, ht s.dbd.level s.status s.value, ht lv s.status s.value⟩

/-- Settles O6, by the meaning of a CMD write. -/
theorem stepRunsDecodedCommand : Obligations.StepRunsDecodedCommand := by
  intro s w rest i hh hd
  calc step s = access (.write 0x00 4 w) (s.setHost rest) := step_write hh
    _ = issue w (s.setHost rest) := access_cmd w _
    _ = exec i { s.setHost rest with cmd := w } := issue_ok hd

/-- Settles O8, access by access. -/
theorem hostRegisterAccesses : Obligations.HostRegisterAccesses :=
  fun _ _ _ => ⟨step_read, step_read, step_read, step_read, step_write, step_write, step_write, step_idle⟩

/-- Settles O10: the reset values are written out in the model, and Get reads an empty ring. -/
theorem resetRegisterValues : Obligations.ResetRegisterValues := by
  have hg : ∀ d, State.reset.lzm.get d = 0 := fun d => ite_self (0 : Byte)
  have ht : ∀ t, State.reset.table t = [] := fun t => by cases t <;> rfl
  exact ⟨rfl, rfl, rfl, rfl, ht, rfl, rfl, rfl, rfl, fun _ => rfl, hg, rfl, rfl, rfl, rfl, rfl, rfl, rfl, rfl, rfl, rfl, rfl,
    rfl, rfl, rfl, rfl, rfl, rfl, rfl, rfl, rfl, rfl, rfl, rfl, rfl⟩

/-- Settles O12, unit by unit. -/
theorem resetStateIsWellFormed : Obligations.ResetStateIsWellFormed := State.reset_inv

end Sys2Proof.Proofs

/-! SUPPORT. The history ring under Record, and what a command that runs the engine records (20_memory.md R70, R79). -/

namespace Sys2Proof.Machine

/-! ## Get after Record (20_memory.md R70) -/

theorem Lzm.get_recorded (l : Lzm) {d : Nat} (h1 : 1 ≤ d) (hf : d ≤ l.fill.toNat) : l.get d = l.ringAt (l.slotAt d) :=
  if_pos ⟨h1, hf⟩

theorem Lzm.get_record_one (b : Byte) (ins : Bool) (l : Lzm) (hp : l.pos.toNat < l.window) :
    (l.record b ins).get 1 = b := by
  have hf : 1 ≤ (l.record b ins).fill.toNat := by
    have := l.window_ge
    simp only [Lzm.record_fill, Lzm.nextFill]; omega
  rw [Lzm.get_recorded _ le_rfl hf, l.record_slotAt_one b ins hp, Lzm.record_ringAt_same]

theorem Lzm.get_record_succ (b : Byte) (ins : Bool) (l : Lzm) (hp : l.pos.toNat < l.window) {d : Nat} (h1 : 1 ≤ d)
    (hd : d + 1 ≤ (l.record b ins).fill.toNat) : (l.record b ins).get (d + 1) = l.get d := by
  have hn : d + 1 ≤ min (l.fill.toNat + 1) l.window := by simpa [Lzm.nextFill] using hd
  rw [Lzm.get_recorded _ (by omega) hd, Lzm.get_recorded l h1 (by omega), l.record_slotAt_succ b ins hp (by omega),
    Lzm.record_ringAt_other b ins l (l.slotAt_ne_pos hp h1 (by omega))]

/-! ## What a command that runs the engine records (20_memory.md R79) -/

/-- The bytes accepted since `s` are the bytes recorded since `s`. -/
def RecordsItsOutput (s t : State) : Prop := ∃ bs, t.env.out = s.env.out ++ bs ∧ t.lzm = recordAll bs s.lzm

theorem RecordsItsOutput.of_same {s t : State} (ho : t.env.out = s.env.out) (hl : t.lzm = s.lzm) :
    RecordsItsOutput s t :=
  ⟨[], by simp [ho], hl⟩

theorem RecordsItsOutput.trans {s t u : State} (h1 : RecordsItsOutput s t) (h2 : RecordsItsOutput t u) :
    RecordsItsOutput s u := by
  obtain ⟨bs, ho, hl⟩ := h1
  obtain ⟨cs, ho', hl'⟩ := h2
  exact ⟨bs ++ cs, by rw [ho', ho, List.append_assoc], by rw [hl', hl, recordAll_append]⟩

theorem drainStep_records (s : State) :
    (drainStep s).Satisfies (RecordsItsOutput s) (fun _ t => RecordsItsOutput s t) := by
  obtain ⟨-, -, ho⟩ := offer_cases s.dbd.outb s.env
  rcases ho with ⟨ha, ho⟩ | ⟨ha, ho⟩ <;> rcases drainStep_cases s with ⟨hp, h⟩ | ⟨hp, h⟩
  · exact absurd (ha.symm.trans hp) nofun
  · rw [h]; exact ⟨[s.dbd.outb], ho, rfl⟩
  · rw [h]; exact .of_same ho rfl
  · exact absurd (ha.symm.trans hp) nofun

theorem microStep_records (s : State) :
    (microStep s).Satisfies (RecordsItsOutput s) (fun _ t => RecordsItsOutput s t) := by
  unfold microStep
  split
  · exact drainStep_records s
  · have hk := engineStep_keeps s
    cases hm : engineStep s <;> rw [hm] at hk <;> exact .of_same (congrArg Env.out hk.2.2) hk.2.1

theorem run_records (n : Nat) (s : State) : RecordsItsOutput s (run n s).2 := by
  refine run_induct (P := RecordsItsOutput s) (Q := fun _ t => RecordsItsOutput s t) (fun t ht => ?_) (fun _ ht => ht) n s
    (.of_same rfl rfl)
  have h := microStep_records t
  cases hm : microStep t <;> rw [hm] at h <;> exact ht.trans h

/-- DEC.ONE reports a code and does no more, or runs the engine. -/
theorem execDecOne_cases (v : Word) (s : State) :
    (∃ c, execDecOne v s = .next (finishBits c 0 s)) ∨ ∃ x, execDecOne v s = .next (oneEnd (runEngine (loadByte x s))) := by
  cases ho : sessionOpen s with
  | false =>
    rcases DState.of_not_open ho with hd | hd | hd
    · exact .inl ⟨_, execDecOne_idle v hd⟩
    · exact .inl ⟨_, execDecOne_closed v hd⟩
    · exact .inl ⟨_, execDecOne_error v hd⟩
  | true =>
    cases hx : readBm1 v with
    | none => exact .inl ⟨_, execDecOne_badParam ho hx⟩
    | some x => exact .inr ⟨x, execDecOne_open ho hx⟩

/-- DEC.FINISH reports a code and does no more, or runs the engine. -/
theorem execDecFinish_cases (s : State) :
    (∃ c, execDecFinish s = .next (finishBits c 0 s)) ∨ execDecFinish s = .next (finishEnd (runEngine s)) := by
  cases ho : sessionOpen s with
  | false =>
    rcases DState.of_not_open ho with hd | hd | hd
    · exact .inl ⟨_, execDecFinish_idle hd⟩
    · exact .inl ⟨_, execDecFinish_closed hd⟩
    · exact .inl ⟨_, execDecFinish_error hd⟩
  | true => exact .inr (execDecFinish_open ho)

theorem loadByte_records (x : Bm1) (s : State) : RecordsItsOutput s (loadByte x s) := by
  rcases loadByte_cases x s with h | ⟨b, -, -, -, h⟩ <;> rw [h] <;> exact .of_same rfl rfl

theorem oneEnd_records (x : Bm1) (s : State) : RecordsItsOutput s (oneEnd (runEngine (loadByte x s))) :=
  (loadByte_records x s).trans (run_records Config.troubleLimit _)

theorem finishEnd_env (r : Code × State) : (finishEnd r).env = r.2.env := by
  obtain ⟨c, t⟩ := r
  cases c <;> rfl

theorem finishEnd_records (s : State) : RecordsItsOutput s (finishEnd (runEngine s)) := by
  obtain ⟨-, -, hl, -⟩ := finishEnd_frame (runEngine s)
  exact (run_records Config.troubleLimit s).trans (.of_same (congrArg Env.out (finishEnd_env _)) hl)

end Sys2Proof.Machine

/-! SUPPORT. Bits that arrive one after another: what ACC and ACCN hold after each bit of a field (42_decoder.md R172) and of
a code (R173). -/

namespace Sys2Proof.Machine

/-- The registers with `k` bits of a field or code read, of value `a`. -/
def Dbd.holding (a k : Nat) (d : Dbd) : Dbd := { d with acc := BitVec.ofNat 32 a, accn := BitVec.ofNat 6 k }

theorem Dbd.holding_zero {d : Dbd} (ha : d.acc = 0) (hc : d.accn = 0) : d.holding 0 0 = d := by
  obtain ⟨⟩ := d
  cases ha
  cases hc
  rfl

theorem Dbd.holding_acc_toNat {a k : Nat} (d : Dbd) (hk : k ≤ 32) (ha : a < 2 ^ k) : (d.holding a k).acc.toNat = a :=
  Nat.mod_eq_of_lt (ha.trans_le (Nat.pow_le_pow_right (by omega) hk))

theorem Dbd.holding_accn_toNat {a k : Nat} (d : Dbd) (hk : k ≤ 32) : (d.holding a k).accn.toNat = k :=
  Nat.mod_eq_of_lt (by omega)

theorem Dbd.holding_accn_succ {a k : Nat} (d : Dbd) (hk : k < 32) : ((d.holding a k).accn + 1).toNat = k + 1 := by
  rw [BitVec.toNat_add, d.holding_accn_toNat hk.le]
  exact Nat.mod_eq_of_lt (show k + 1 < 64 by omega)

/-! ## A field, least significant bit first -/

theorem mod_two_pow_succ_eq (x k : Nat) : x % 2 ^ (k + 1) = x % 2 ^ k + (x.testBit k).toNat * 2 ^ k := by
  rw [Nat.mod_pow_succ, Nat.toNat_testBit, Nat.mul_comm]

theorem fieldAcc_holding {a k : Nat} (bit : Bool) (d : Dbd) (hk : k < 32) (ha : a < 2 ^ k) :
    fieldAcc bit (d.holding a k) = BitVec.ofNat 32 (a + bit.toNat * 2 ^ k) := by
  have hacc := d.holding_acc_toNat hk.le ha
  have haccn := d.holding_accn_toNat (a := a) hk.le
  have h := fieldAcc_toNat (b := bit) (d := d.holding a k) (by rw [haccn]; exact hk) (by rw [hacc, haccn]; exact ha)
  rw [hacc, haccn] at h
  rw [← h, BitVec.ofNat_toNat, BitVec.setWidth_eq]

theorem readField_pending {n a k : Nat} (bit : Bool) (s : State) (hn : n ≤ 32) (hk : k + 1 < n) :
    readField n bit (s.setDbd (s.dbd.holding a k)) = none :=
  if_neg (by rw [State.setDbd_dbd, Dbd.holding_accn_succ _ (by omega)]; omega)

theorem readField_last {a k : Nat} (bit : Bool) (s : State) (hk : k < 32) (ha : a < 2 ^ k) :
    readField (k + 1) bit (s.setDbd (s.dbd.holding a k)) = some (BitVec.ofNat 32 (a + bit.toNat * 2 ^ k)) :=
  (if_pos (Dbd.holding_accn_succ _ hk)).trans (congrArg some (fieldAcc_holding bit s.dbd hk ha))

theorem fieldState_pending {n a k : Nat} (bit : Bool) (s : State) (hn : n ≤ 32) (hk : k + 1 < n) (ha : a < 2 ^ k) :
    fieldState n bit (s.setDbd (s.dbd.holding a k)) = s.setDbd (s.dbd.holding (a + bit.toNat * 2 ^ k) (k + 1)) := by
  have hne : ((s.dbd.holding a k).accn + 1).toNat ≠ n := by rw [Dbd.holding_accn_succ _ (by omega)]; omega
  rw [fieldState, State.setDbd_dbd, if_neg hne, fieldAcc_holding bit s.dbd (by omega) ha]
  have hc : (s.dbd.holding a k).accn + 1 = BitVec.ofNat 6 (k + 1) := by rw [BitVec.ofNat_add]; rfl
  rw [hc]; rfl

theorem fieldState_last {a k : Nat} (bit : Bool) (s : State) (hk : k < 32) :
    fieldState (k + 1) bit (s.setDbd (s.dbd.holding a k)) = s.setDbd (s.dbd.holding 0 0) :=
  if_pos (Dbd.holding_accn_succ _ hk)

@[simp] theorem fieldBits_length (n : Nat) (v : Word) : (fieldBits n v).length = n := by simp [fieldBits]

theorem fieldBits_take_succ {n k : Nat} (v : Word) (hk : k < n) :
    (fieldBits n v).take (k + 1) = (fieldBits n v).take k ++ [v.getLsbD k] := by
  rw [List.take_succ_eq_append_getElem (by simpa using hk)]
  simp [fieldBits]

theorem feedField_concat (n : Nat) (bits : List Bool) (b : Bool) (s : State) :
    feedField n (bits ++ [b]) s = fieldState n b (feedField n bits s) := by
  simp [feedField]

/-- A field's bits below its last: they stand in ACC in their places. -/
theorem feedField_take {n k : Nat} (v : Word) {s : State} (hn : n ≤ 32) (ha : s.dbd.acc = 0) (hc : s.dbd.accn = 0)
    (hk : k < n) : feedField n ((fieldBits n v).take k) s = s.setDbd (s.dbd.holding (v.toNat % 2 ^ k) k) := by
  induction k with
  | zero =>
    rw [pow_zero, Nat.mod_one, Dbd.holding_zero ha hc]
    rfl
  | succ k ih =>
    rw [fieldBits_take_succ v (by omega), feedField_concat, ih (by omega),
      fieldState_pending _ s hn hk (Nat.mod_lt _ (Nat.two_pow_pos k)), mod_two_pow_succ_eq]
    rfl

/-! ## A code, most significant bit first -/

theorem codeAcc_holding_toNat {a k : Nat} (bit : Bool) (d : Dbd) (hk : k < 32) (ha : a < 2 ^ k) :
    (codeAcc bit (d.holding a k)).toNat = 2 * a + bit.toNat := by
  have hp : 2 ^ (k + 1) ≤ 2 ^ 32 := Nat.pow_le_pow_right (by omega) (by omega)
  have ha2 : a <<< 1 < 2 ^ 32 := by rw [Nat.shiftLeft_eq]; omega
  rw [codeAcc, BitVec.toNat_or, BitVec.toNat_shiftLeft, bitWord_toNat, d.holding_acc_toNat hk.le ha,
    Nat.mod_eq_of_lt ha2, ← Nat.shiftLeft_add_eq_or_of_lt (by simpa using bit.toNat_lt), Nat.shiftLeft_eq]
  omega

/-- What ReadCode answers after `k` bits, from the entry Lookup finds (42_decoder.md R173). -/
def codeOutcome (maxbits k : Nat) : Option (BitVec 9) → CodeRead
  | some sym => .symbol sym.toNat
  | none => if k ≥ maxbits then .bad else .pending

theorem readCode_eq (t : Slot) (m : Nat) (bit : Bool) (s : State) : readCode t m bit s
    = codeOutcome m (s.dbd.accn + 1).toNat (lookup (s.table t) (s.dbd.accn + 1).toNat (codeAcc bit s.dbd).toNat) := by
  unfold readCode
  split <;> rename_i h <;> rw [h] <;> rfl

/-- ReadCode on the bit after `k` bits: the entry of length `k + 1` decides. -/
theorem readCode_holding {a k : Nat} (t : Slot) (m : Nat) (bit : Bool) (s : State) (hk : k < 32) (ha : a < 2 ^ k) :
    readCode t m bit (s.setDbd (s.dbd.holding a k))
      = codeOutcome m (k + 1) (lookup (s.table t) (k + 1) (2 * a + bit.toNat)) := by
  rw [readCode_eq, State.setDbd_dbd, State.setDbd_table, codeAcc_holding_toNat bit s.dbd hk ha,
    Dbd.holding_accn_succ _ hk]

theorem codeState_pending {t : Slot} {m a k : Nat} {bit : Bool} {s : State} (hk : k < 32) (ha : a < 2 ^ k)
    (h : readCode t m bit (s.setDbd (s.dbd.holding a k)) = .pending) :
    codeState t m bit (s.setDbd (s.dbd.holding a k)) = s.setDbd (s.dbd.holding (2 * a + bit.toNat) (k + 1)) := by
  have hacc : codeAcc bit (s.dbd.holding a k) = BitVec.ofNat 32 (2 * a + bit.toNat) := by
    rw [← codeAcc_holding_toNat bit s.dbd hk ha, BitVec.ofNat_toNat, BitVec.setWidth_eq]
  have hc : (s.dbd.holding a k).accn + 1 = BitVec.ofNat 6 (k + 1) := by rw [BitVec.ofNat_add]; rfl
  simp only [codeState, h, State.setDbd_dbd, hacc, hc]
  rfl

@[simp] theorem codeBits_length (n : Nat) (p : BitVec 16) : (codeBits n p).length = n := by simp [codeBits]

theorem codeBits_getD {len k : Nat} (p : BitVec 16) (hk : k < len) :
    (codeBits len p).getD k false = p.getLsbD (len - 1 - k) := by
  simp [codeBits, List.getD_eq_getElem?_getD, hk]

theorem codeBits_take_succ {len k : Nat} (p : BitVec 16) (hk : k < len) :
    (codeBits len p).take (k + 1) = (codeBits len p).take k ++ [p.getLsbD (len - 1 - k)] := by
  rw [List.take_succ_eq_append_getElem (by simpa using hk)]
  simp [codeBits]

theorem feedCode_concat (t : Slot) (m : Nat) (bits : List Bool) (b : Bool) (s : State) :
    feedCode t m (bits ++ [b]) s = codeState t m b (feedCode t m bits s) := by
  simp [feedCode]

/-- A code's first `k` bits, as a number. -/
def codeHead (len : Nat) (p : BitVec 16) (k : Nat) : Nat := p.toNat / 2 ^ (len - k)

theorem codeHead_succ {len k : Nat} (p : BitVec 16) (hk : k < len) :
    codeHead len p (k + 1) = 2 * codeHead len p k + (p.getLsbD (len - 1 - k)).toNat := by
  have e1 : len - (k + 1) = len - 1 - k := by omega
  have e2 : len - k = len - 1 - k + 1 := by omega
  rw [codeHead, codeHead, e1, e2, pow_succ, ← Nat.div_div_eq_div_mul, BitVec.getLsbD, Nat.testBit_eq_decide_div_mod_eq]
  rcases Nat.mod_two_eq_zero_or_one (p.toNat / 2 ^ (len - 1 - k)) with h | h <;> simp [h] <;> omega

theorem codeHead_lt {len k : Nat} {p : BitVec 16} (hp : p.toNat < 2 ^ len) (hk : k ≤ len) :
    codeHead len p k < 2 ^ k := by
  refine Nat.div_lt_of_lt_mul ?_
  rwa [← pow_add, Nat.sub_add_cancel hk]

section
variable {t : Slot} {m len : Nat} {p : BitVec 16} {s : State} (hlm : len ≤ m) (hm : m ≤ 15) (hp : p.toNat < 2 ^ len)
include hlm hm hp

/-- The bit of a code after its first `k`: the entry of the bits so far decides. -/
theorem readCode_head {k : Nat} (hk : k < len) :
    readCode t m (p.getLsbD (len - 1 - k)) (s.setDbd (s.dbd.holding (codeHead len p k) k))
      = codeOutcome m (k + 1) (lookup (s.table t) (k + 1) (codeHead len p (k + 1))) := by
  rw [readCode_holding t m _ s (by omega) (codeHead_lt hp hk.le), codeHead_succ p hk]

theorem readCode_head_pending {k : Nat} (hk : k + 1 < len)
    (hno : lookup (s.table t) (k + 1) (codeHead len p (k + 1)) = none) :
    readCode t m (p.getLsbD (len - 1 - k)) (s.setDbd (s.dbd.holding (codeHead len p k) k)) = .pending := by
  rw [readCode_head hlm hm hp (by omega), hno]
  exact if_neg (by omega)

/-- The first `k` bits of a string no first part of which is a code: they stand in ACC. -/
theorem feedCode_take (ha : s.dbd.acc = 0) (hc : s.dbd.accn = 0) {k : Nat} (hk : k < len)
    (hno : ∀ j, 1 ≤ j → j ≤ k → lookup (s.table t) j (codeHead len p j) = none) :
    feedCode t m ((codeBits len p).take k) s = s.setDbd (s.dbd.holding (codeHead len p k) k) := by
  induction k with
  | zero =>
    have h0 : codeHead len p 0 = 0 := by have := codeHead_lt hp (Nat.zero_le len); omega
    rw [h0, Dbd.holding_zero ha hc]
    rfl
  | succ k ih =>
    rw [codeBits_take_succ p (by omega), feedCode_concat, ih (by omega) fun j h1 h2 => hno j h1 (by omega),
      codeState_pending (by omega) (codeHead_lt hp (by omega))
        (readCode_head_pending hlm hm hp hk (hno _ (by omega) le_rfl)), codeHead_succ p (by omega)]

/-- No bit of a code but its last completes it. -/
theorem readCode_feedCode_pending (ha : s.dbd.acc = 0) (hc : s.dbd.accn = 0) {k : Nat} (hk : k + 1 < len)
    (hno : ∀ j, 1 ≤ j → j ≤ k + 1 → lookup (s.table t) j (codeHead len p j) = none) :
    readCode t m ((codeBits len p).getD k false) (feedCode t m ((codeBits len p).take k) s) = .pending := by
  rw [codeBits_getD p (by omega), feedCode_take hlm hm hp ha hc (by omega) fun j h1 h2 => hno j h1 (by omega)]
  exact readCode_head_pending hlm hm hp hk (hno _ (by omega) le_rfl)

/-- The last bit of a string no proper first part of which is a code. -/
theorem readCode_feedCode_last (ha : s.dbd.acc = 0) (hc : s.dbd.accn = 0) (hl : 1 ≤ len)
    (hno : ∀ j, 1 ≤ j → j < len → lookup (s.table t) j (codeHead len p j) = none) :
    readCode t m (p.getLsbD 0) (feedCode t m ((codeBits len p).take (len - 1)) s)
      = codeOutcome m len (lookup (s.table t) len p.toNat) := by
  have e1 : len - 1 - (len - 1) = 0 := by omega
  have e2 : len - 1 + 1 = len := by omega
  have e3 : codeHead len p len = p.toNat := by simp [codeHead]
  have h := readCode_head (t := t) (s := s) hlm hm hp (k := len - 1) (by omega)
  rw [e1, e2, e3] at h
  rw [feedCode_take hlm hm hp ha hc (by omega) fun j h1 h2 => hno j h1 (by omega), h]

omit hlm hm hp in
/-- A whole code empties ACC and ACCN. -/
theorem feedCode_symbol {sym : Nat} (hl : 1 ≤ len)
    (hs : readCode t m (p.getLsbD 0) (feedCode t m ((codeBits len p).take (len - 1)) s) = .symbol sym) :
    (feedCode t m (codeBits len p) s).dbd.acc = 0 ∧ (feedCode t m (codeBits len p) s).dbd.accn = 0 := by
  have hb : codeBits len p = (codeBits len p).take (len - 1) ++ [p.getLsbD 0] := by
    have h := codeBits_take_succ p (show len - 1 < len by omega)
    rw [show len - 1 + 1 = len by omega, show len - 1 - (len - 1) = 0 by omega, List.take_of_length_le (by simp)] at h
    exact h
  rw [hb, feedCode_concat]
  simp only [codeState, hs, State.setDbd_dbd, and_self]

end

end Sys2Proof.Machine

/-! SUPPORT. The states that read a field or a code, each by its transition on the whole of it, and Run on the bits one byte
holds (42_decoder.md R170 to R173). -/

namespace Sys2Proof.Machine

/-! ## States that read a field or a code -/

theorem ReadsField.imp {n : Nat} {s : State} {P Q : Word → Prop} (h : ReadsField n s P) (hpq : ∀ v, P v → Q v) :
    ReadsField n s Q := by
  obtain ⟨hpend, hwhole⟩ := h
  exact ⟨hpend, fun v hv => hpq v (hwhole v hv)⟩

theorem ReadsCode.imp {t : Slot} {m : Nat} {s : State} {P Q : Nat → Prop} (h : ReadsCode t m s P)
    (hpq : ∀ sym, P sym → Q sym) : ReadsCode t m s Q := by
  obtain ⟨hpend, hbad, hwhole⟩ := h
  exact ⟨hpend, hbad, fun sym hs => hpq sym (hwhole sym hs)⟩

/-- State `st` reads a field of `n` bits and then takes the transition `act`. -/
def ActsOnField (n : Nat) (st : DState) (act : Word → State → Micro) : Prop :=
  ∀ s, TakesBit st s → ReadsField n s fun v => microStep s = act v (s.setDbd s.dbd.bitTaken)

/-- State `st` reads a code of slot `t` of at most `m` bits and then takes the transition `act`. -/
def ActsOnCode (t : Slot) (m : Nat) (st : DState) (act : Nat → State → Micro) : Prop :=
  ∀ s, TakesBit st s → ReadsCode t m s fun sym => microStep s = act sym (s.setDbd s.dbd.bitTaken)

theorem ActsOnField.intro {n : Nat} {st : DState} {act : Word → State → Micro} (h1 : st ≠ .done)
    (h2 : st ≠ .copyFromHistory) (h3 : st ≠ .fixedOrDynamicSetup)
    (hb : ∀ bit s, s.dbd.dstate = st → bitStep bit s = match readField n bit s with
      | none => .cont (fieldState n bit s)
      | some v => act v (fieldState n bit s)) : ActsOnField n st act := fun _ h =>
  readsField_intro ((microStep_takesBit h h1 h2 h3).trans (hb _ _ h.1)) fun _ _ hm => hm

theorem ActsOnCode.intro {t : Slot} {m : Nat} {st : DState} {act : Nat → State → Micro} (h1 : st ≠ .done)
    (h2 : st ≠ .copyFromHistory) (h3 : st ≠ .fixedOrDynamicSetup)
    (hb : ∀ bit s, s.dbd.dstate = st → bitStep bit s = match readCode t m bit s with
      | .pending => .cont (codeState t m bit s)
      | .symbol n => act n (codeState t m bit s)
      | .bad => failStep .badCodeLength (codeState t m bit s)) : ActsOnCode t m st act := fun _ h =>
  readsCode_intro ((microStep_takesBit h h1 h2 h3).trans (hb _ _ h.1)) fun _ hm => hm

theorem readBlockHeader_acts : ActsOnField 3 .readBlockHeader onBlockHeader :=
  .intro nofun nofun nofun fun _ _ h => by simp only [bitStep, h]; rfl

theorem rawLength_acts : ActsOnField 32 .rawLength onRawLength :=
  .intro nofun nofun nofun fun _ _ h => by simp only [bitStep, h]; rfl

theorem rawBytes_acts : ActsOnField 8 .rawBytes onRawByte :=
  .intro nofun nofun nofun fun _ _ h => by simp only [bitStep, h]; rfl

theorem readCodeLengthAlphabetHeader_acts : ActsOnField 14 .readCodeLengthAlphabetHeader onAlphabetHeader :=
  .intro nofun nofun nofun fun _ _ h => by simp only [bitStep, h]; rfl

theorem readCodeLengths_acts : ActsOnCode .cl 7 .readCodeLengths onLengthSymbol :=
  .intro nofun nofun nofun fun _ _ h => by simp only [bitStep, h]; rfl

theorem readLiteralOrLength_acts : ActsOnCode .ll 15 .readLiteralOrLength onLiteralOrLength :=
  .intro nofun nofun nofun fun _ _ h => by simp only [bitStep, h]; rfl

theorem readDistance_acts : ActsOnCode .dist 15 .readDistance onDistance :=
  .intro nofun nofun nofun fun _ _ h => by simp only [bitStep, h]; rfl

/-! ## Run from the answer of a micro-step -/

/-- Run after a micro-step that answered, with `fuel` micro-steps left. -/
def Micro.thenRun (fuel : Nat) : Micro → Code × State
  | .cont s => run fuel s
  | .stop c s => (c, s)

theorem run_succ (n : Nat) (s : State) : run (n + 1) s = (microStep s).thenRun n := by
  cases hm : microStep s with
  | cont t => exact run_cont hm
  | stop c t => exact run_stop hm

/-- What Run reports where no byte is pending and no bit is held. -/
def noInputCode (d : DState) : Code := if d = .done then .done else .ok

theorem noInputCode_ne_overflow (d : DState) : noInputCode d ≠ .overflow := by
  unfold noInputCode; split <;> decide

/-- With no bit held and no byte pending Run stops: with Done in Done, and with Ok in a state that reads a bit. -/
theorem run_noInput {s : State} (ho : s.dbd.outv = false) (hb : s.dbd.bitcnt = 0)
    (hd : s.dbd.dstate = .done ∨ consumesBits s.dbd.dstate = true) (n : Nat) :
    run (n + 1) s = (noInputCode s.dbd.dstate, s) := by
  have hm : microStep s = engineStep s := if_neg (by simp [ho])
  have hi : inputStep s = .stop .ok s := if_pos hb
  rcases hd with hd | hd
  · rw [noInputCode, if_pos hd]
    exact run_stop (by rw [hm]; simp only [engineStep, hd])
  · have hne : s.dbd.dstate ≠ .done := by rintro h; rw [h] at hd; cases hd
    rw [noInputCode, if_neg hne]
    refine run_stop (hm.trans ?_)
    unfold engineStep
    split <;> rename_i h <;> first | exact hi | (rw [h] at hd; cases hd)

/-- Run has fuel for `k` micro-steps and one more. -/
theorem runEngine_fuel (k : Nat) (hk : k + 1 ≤ Config.troubleLimit) : ∃ f, ∀ s, runEngine s = run (f + 1 + k) s := by
  refine ⟨Config.troubleLimit - (k + 1), fun s => ?_⟩
  rw [runEngine, Nat.add_assoc, Nat.add_comm 1 k, Nat.sub_add_cancel hk]

/-! ## A field completed inside a byte -/

/-- The value of a field after `m` more bits of BITBUF. -/
def Dbd.fieldValue (m : Nat) (d : Dbd) : Nat := d.acc.toNat + d.bitbuf.toNat % 2 ^ m * 2 ^ d.accn.toNat

/-- The registers after `m` bits, the last of them a field's last. -/
def Dbd.bitsTaken (m : Nat) (d : Dbd) : Dbd :=
  { d with bitbuf := d.bitbuf >>> m, bitcnt := d.bitcnt - BitVec.ofNat 4 m, acc := 0, accn := 0 }

theorem Dbd.bitsPending_bitTaken (m : Nat) (d : Dbd) : (d.bitsPending m).bitTaken = d.bitsTaken (m + 1) := by
  have h : d.bitcnt - BitVec.ofNat 4 m - 1 = d.bitcnt - BitVec.ofNat 4 (m + 1) := by
    rw [BitVec.sub_sub, BitVec.ofNat_add]; rfl
  rw [Dbd.bitsTaken, BitVec.shiftRight_add, ← h]
  rfl

/-- A field's value has no more bits than have arrived. -/
theorem Dbd.fieldValue_lt {d : Dbd} (ha : d.acc.toNat < 2 ^ d.accn.toNat) (m : Nat) :
    d.fieldValue m < 2 ^ (d.accn.toNat + m) := by
  have hm : d.bitbuf.toNat % 2 ^ m + 1 ≤ 2 ^ m := Nat.mod_lt _ (Nat.two_pow_pos m)
  calc d.fieldValue m < (d.bitbuf.toNat % 2 ^ m + 1) * 2 ^ d.accn.toNat := by rw [Dbd.fieldValue, Nat.add_mul]; omega
    _ ≤ 2 ^ m * 2 ^ d.accn.toNat := Nat.mul_le_mul_right _ hm
    _ = 2 ^ (d.accn.toNat + m) := by rw [Nat.pow_add, Nat.mul_comm]

/-- One bit more of a field that `m` bits have left pending. -/
theorem Dbd.fieldValue_succ (m : Nat) (d : Dbd) :
    d.fieldValue (m + 1) = d.fieldValue m + (d.bitbuf.getLsbD m).toNat * 2 ^ (d.accn.toNat + m) := by
  rw [Dbd.fieldValue, Dbd.fieldValue, mod_two_pow_succ_eq, BitVec.getLsbD, pow_add]
  ring

/-- The field the bit after `m` pending ones completes. -/
theorem readField_bitsPending {n m : Nat} {s : State} (hn32 : n ≤ 32) (hn : s.dbd.accn.toNat + m + 1 = n)
    (ha : s.dbd.acc.toNat < 2 ^ s.dbd.accn.toNat) :
    readField n (nextBit (s.setDbd (s.dbd.bitsPending m))) (dropBit (s.setDbd (s.dbd.bitsPending m)))
      = some (BitVec.ofNat 32 (s.dbd.fieldValue (m + 1))) := by
  have hc : s.dbd.bitsPending m
      = Dbd.holding (s.dbd.fieldValue m) (s.dbd.accn.toNat + m) (s.dbd.bitsPending m) := by
    have e : s.dbd.accn + BitVec.ofNat 6 m = BitVec.ofNat 6 (s.dbd.accn.toNat + m) := by simp [BitVec.ofNat_add]
    unfold Dbd.bitsPending Dbd.holding Dbd.fieldValue
    simp only [e]
  have hbit : nextBit (s.setDbd (s.dbd.bitsPending m)) = s.dbd.bitbuf.getLsbD m := by
    show (s.dbd.bitbuf >>> m).getLsbD 0 = _
    simp
  have hlast := readField_last (a := s.dbd.fieldValue m) (s.dbd.bitbuf.getLsbD m)
    (dropBit (s.setDbd (s.dbd.bitsPending m))) (show s.dbd.accn.toNat + m < 32 by omega)
    (Dbd.fieldValue_lt ha m)
  rw [hn, ← Dbd.fieldValue_succ] at hlast
  rw [hbit, ← hlast, hc]
  rfl

/-- Run on the `m` bits that complete a field, all of them held in BITBUF. -/
theorem ActsOnField.run_whole {n : Nat} {st : DState} {act : Word → State → Micro} (H : ActsOnField n st act)
    (hn32 : n ≤ 32) {m : Nat} {s : State} (hm : 0 < m) (hd : s.dbd.dstate = st) (ho : s.dbd.outv = false)
    (hb : m ≤ s.dbd.bitcnt.toNat) (hn : s.dbd.accn.toNat + m = n) (ha : s.dbd.acc.toNat < 2 ^ s.dbd.accn.toNat)
    (f : Nat) :
    run (f + m) s = (act (BitVec.ofNat 32 (s.dbd.fieldValue m)) (s.setDbd (s.dbd.bitsTaken m))).thenRun f := by
  obtain ⟨m, rfl⟩ : ∃ k, m = k + 1 := ⟨m - 1, by omega⟩
  have hbm : (s.dbd.bitcnt - BitVec.ofNat 4 m).toNat ≠ 0 := by
    have := s.dbd.bitcnt.isLt
    simp only [BitVec.toNat_sub, BitVec.toNat_ofNat]; omega
  have ht : TakesBit st (s.setDbd (s.dbd.bitsPending m)) := ⟨hd, ho, fun h => hbm (congrArg BitVec.toNat h)⟩
  rw [show f + (m + 1) = f + 1 + m by omega, run_pendingBits H hn32 m hd ho (by omega) (by omega) ha, run_succ,
    (H _ ht).2 _ (readField_bitsPending hn32 (by omega) ha)]
  exact congrArg (fun d => Micro.thenRun f (act _ (s.setDbd d))) (Dbd.bitsPending_bitTaken m s.dbd)

/-! ## DEC.ONE of a byte -/

/-- The registers with a byte loaded (42_decoder.md R163). -/
def Dbd.loaded (b : Byte) (d : Dbd) : Dbd := { d with bitbuf := b, bitcnt := 8, dictOpen := false }

/-- Run on the `m` bits of a loaded byte that complete a field. -/
theorem ActsOnField.run_loaded {n : Nat} {st : DState} {act : Word → State → Micro} (H : ActsOnField n st act)
    (hn32 : n ≤ 32) {m : Nat} {s : State} (b : Byte) (hm : 0 < m) (hm8 : m ≤ 8) (hd : s.dbd.dstate = st)
    (ho : s.dbd.outv = false) (hn : s.dbd.accn.toNat + m = n) (ha : s.dbd.acc.toNat < 2 ^ s.dbd.accn.toNat) (f : Nat) :
    run (f + m) (s.setDbd (s.dbd.loaded b))
      = (act (BitVec.ofNat 32 (s.dbd.acc.toNat + b.toNat % 2 ^ m * 2 ^ s.dbd.accn.toNat))
          (s.setDbd ((s.dbd.loaded b).bitsTaken m))).thenRun f :=
  H.run_whole (s := s.setDbd (s.dbd.loaded b)) hn32 hm hd ho hm8 hn ha f

/-- Run on a field that begins and ends in a loaded byte. -/
theorem ActsOnField.run_loaded_fresh {n : Nat} {st : DState} {act : Word → State → Micro} (H : ActsOnField n st act)
    {s : State} (b : Byte) (hn : 0 < n) (hn8 : n ≤ 8) (hd : s.dbd.dstate = st) (ho : s.dbd.outv = false)
    (ha : s.dbd.acc = 0) (hc : s.dbd.accn = 0) (f : Nat) : run (f + n) (s.setDbd (s.dbd.loaded b))
      = (act (BitVec.ofNat 32 (b.toNat % 2 ^ n)) (s.setDbd ((s.dbd.loaded b).bitsTaken n))).thenRun f := by
  rw [H.run_loaded (by omega) b hn hn8 hd ho (by simp [hc]) (by simp [ha, hc]) f]
  simp [ha, hc]

theorem exec_decOne_byte {v : Word} {s : State} (hv : v.toNat ≤ 255) (hd : consumesBits s.dbd.dstate = true)
    (hh : s.dbd.hold = false) :
    exec (.decOne v) s = .next (oneEnd (runEngine (s.setDbd (s.dbd.loaded (BitVec.ofNat 8 v.toNat))))) := by
  have hopen : sessionOpen s = true := by
    unfold sessionOpen
    revert hd
    cases s.dbd.dstate <;> simp [consumesBits, DState.isOpen]
  have hdone : s.dbd.dstate ≠ .done := by rintro h; rw [h] at hd; cases hd
  refine (execDecOne_open hopen (readBm1_byte hv)).trans ?_
  rw [show loadByte (.byte (BitVec.ofNat 8 v.toNat)) s = _ from if_pos ⟨by simp [hh], hdone⟩]
  rfl

theorem setHold_same {h : Bool} {s : State} (hh : s.dbd.hold = h) : setHold h s = s := by
  cases hh; rfl

/-- The end of a DEC.ONE whose byte was not refused, where HOLD was 0. -/
theorem oneEnd_notHeld {c : Code} {s : State} (hc : c ≠ .overflow) (hh : s.dbd.hold = false) :
    oneEnd (c, s) = finish c 0 s := by
  have hb : (c == Code.overflow) = false := beq_false_of_ne hc
  rw [oneEnd, hb, setHold_same hh]

/-- The DEC.ONE of a byte on which Run comes to `t`, with no bit left and no byte pending. -/
theorem exec_decOne_noInput {v : Word} {s : State} (t : State) {n : Nat} (hv : v.toNat ≤ 255)
    (hd : consumesBits s.dbd.dstate = true) (hh : s.dbd.hold = false)
    (hrun : runEngine (s.setDbd (s.dbd.loaded (BitVec.ofNat 8 v.toNat))) = run (n + 1) t) (ho : t.dbd.outv = false)
    (hb : t.dbd.bitcnt = 0) (ht : t.dbd.dstate = .done ∨ consumesBits t.dbd.dstate = true) (hht : t.dbd.hold = false) :
    exec (.decOne v) s = .next (finish (noInputCode t.dbd.dstate) 0 t) := by
  rw [exec_decOne_byte hv hd hh, hrun, run_noInput ho hb ht, oneEnd_notHeld (noInputCode_ne_overflow _) hht]

/-- The same where `t` waits for more bits. -/
theorem exec_decOne_waits {v : Word} {s : State} (t : State) {n : Nat} (hv : v.toNat ≤ 255)
    (hd : consumesBits s.dbd.dstate = true) (hh : s.dbd.hold = false)
    (hrun : runEngine (s.setDbd (s.dbd.loaded (BitVec.ofNat 8 v.toNat))) = run (n + 1) t) (ho : t.dbd.outv = false)
    (hb : t.dbd.bitcnt = 0) (ht : consumesBits t.dbd.dstate = true) (hht : t.dbd.hold = false) :
    exec (.decOne v) s = .next (finish .ok 0 t) := by
  have hne : t.dbd.dstate ≠ .done := by rintro h; rw [h] at ht; cases ht
  rw [exec_decOne_noInput t hv hd hh hrun ho hb (.inr ht) hht, noInputCode, if_neg hne]

/-- The DEC.ONE of a byte on which Run fails. -/
theorem exec_decOne_fails {v : Word} {s : State} (c : Code) (t : State) (hc : c ≠ .overflow) (hv : v.toNat ≤ 255)
    (hd : consumesBits s.dbd.dstate = true) (hh : s.dbd.hold = false)
    (hrun : runEngine (s.setDbd (s.dbd.loaded (BitVec.ofNat 8 v.toNat))) = (c, fail c t)) :
    exec (.decOne v) s = .next (finish c 0 (fail c t)) := by
  rw [exec_decOne_byte hv hd hh, hrun, oneEnd_notHeld hc rfl]

/-- The end of a DEC.ONE whose byte was refused. -/
theorem oneEnd_overflow (s : State) : oneEnd (.overflow, s) = finish .overflow 0 (setHold true s) := rfl

/-- No bit of a byte is left after eight. -/
theorem byte_shiftRight_eight (b : Byte) : b >>> 8 = 0 := by
  apply BitVec.eq_of_toNat_eq
  rw [BitVec.toNat_ushiftRight, Nat.shiftRight_eq_div_pow]
  exact Nat.div_eq_of_lt b.isLt

end Sys2Proof.Machine

/-! SUPPORT. What a code's symbol does in the three states that read one (42_decoder.md R185, R187, R190). -/

namespace Sys2Proof.Machine

/-! ## The end of a block (42_decoder.md R175) -/

theorem endOfBlock_eq (d : Dbd) : endOfBlock d =
    { d with
      dstate := if d.bfinal = true then .done else .readBlockHeader
      bitcnt := if d.bfinal = true then 0 else d.bitcnt } := by
  unfold endOfBlock
  split <;> rfl

/-! ## ReadCodeLengths (R185) -/

theorem getLenAt_lensDone (j : Nat) (s : State) : getLenAt j (lensDone s) = getLenAt j s := by
  unfold lensDone; split <;> rfl

theorem lensDone_htg (s : State) : (lensDone s).htg = s.htg := by unfold lensDone; split <;> rfl

theorem lensDone_dbd (s : State) : (lensDone s).dbd =
    { s.dbd with
      setupKind := if s.dbd.idx.toNat = totalLens s.dbd then 2 else s.dbd.setupKind
      dstate := if s.dbd.idx.toNat = totalLens s.dbd then .fixedOrDynamicSetup else s.dbd.dstate } := by
  unfold lensDone
  split <;> rfl

theorem DecodeKeeps.onlyHtgAndDbd {s t : State} (h : DecodeKeeps s t) : OnlyHtgAndDbd s t := by
  obtain ⟨⟨⟨hc, hd, hs, hv⟩, -⟩, hl, he⟩ := h
  exact ⟨hs, hv, hl, hc, hd, he⟩

theorem onLengthSymbol_length {sym : Nat} {s : State} (hsym : sym ≤ 15) (hd : s.dbd.dstate = .readCodeLengths)
    (hl : lensReading s.htg s.dbd) (hi : s.dbd.idx.toNat < totalLens s.dbd) :
    ∃ t, onLengthSymbol sym s = .cont t
      ∧ (∀ j, getLenAt j t = if j = s.dbd.idx.toNat then sym else getLenAt j s)
      ∧ t.dbd = { s.dbd with
          idx := BitVec.ofNat 9 (s.dbd.idx.toNat + 1)
          setupKind := if s.dbd.idx.toNat + 1 = totalLens s.dbd then 2 else s.dbd.setupKind
          dstate := if s.dbd.idx.toNat + 1 = totalLens s.dbd then .fixedOrDynamicSetup else .readCodeLengths }
      ∧ OnlyLengths s t ∧ OnlyHtgAndDbd s t := by
  obtain ⟨hlen, honly, hdbd⟩ := appendLens_lengths hsym 1 hl hi
  have htot : totalLens s.dbd ≤ 316 := by
    obtain ⟨⟨⟨-, h1⟩, ⟨-, h2⟩, -⟩, -⟩ := hl
    unfold totalLens; omega
  have hidx : (BitVec.ofNat 9 (s.dbd.idx.toNat + 1)).toNat = s.dbd.idx.toNat + 1 := Nat.mod_eq_of_lt (by omega)
  refine ⟨lensDone (appendLens sym 1 s), if_pos hsym, fun j => ?_, ?_, ?_, ?_⟩
  · rw [getLenAt_lensDone, hlen]
    exact if_congr (by omega) rfl rfl
  · rw [lensDone_dbd, hdbd]
    simp only [hidx, hd, totalLens]
    rfl
  · obtain ⟨h1, h2, h3⟩ := honly
    have ht : ∀ u, (lensDone (appendLens sym 1 s)).table u = (appendLens sym 1 s).table u := fun u =>
      congrArg (fun h => Htg.table h u) (lensDone_htg _)
    exact ⟨fun u => by rw [ht, h1], by rw [lensDone_htg, h2], by rw [lensDone_htg, h3]⟩
  · exact (lensDone_keeps (appendLens_keeps sym 1 s)).onlyHtgAndDbd

theorem onLengthSymbol_nothingToRepeat {s : State} (hi : s.dbd.idx = 0) :
    onLengthSymbol 16 s = .stop .badCodeLength (fail .badCodeLength s) :=
  (if_neg (by decide)).trans (if_pos ⟨rfl, hi⟩)

theorem onLengthSymbol_repeat {sym : Nat} {s : State} (h16 : 16 ≤ sym) (hi : sym = 16 → s.dbd.idx ≠ 0) :
    onLengthSymbol sym s = .cont (s.setDbd { s.dbd with rep := BitVec.ofNat 5 sym, dstate := .readCodeLengthExtra }) :=
  (if_neg (by omega)).trans (if_neg fun ⟨h1, h2⟩ => hi h1 h2)

/-! ## ReadLiteralOrLength (R187) -/

/-- The length symbols with extra bits are 265 to 284 (R188). -/
theorem lenExtra_pos : ∀ k ≤ 28, 0 < lenExtra.getD k 0 ↔ 8 ≤ k ∧ k ≤ 27 := by decide

/-- The distance symbols with extra bits are 4 and up (R191). -/
theorem distExtra_pos : ∀ k ≤ 29, 0 < distExtra.getD k 0 ↔ 4 ≤ k := by decide

theorem onLiteralOrLength_literal {sym : Nat} {s : State} (h : sym < 256) :
    onLiteralOrLength sym s = .cont (s.setDbd { s.dbd with outb := BitVec.ofNat 8 sym, outv := true }) := if_pos h

theorem onLiteralOrLength_endOfBlock (s : State) : onLiteralOrLength 256 s = .cont (s.setDbd
    { s.dbd with
      dstate := if s.dbd.bfinal = true then .done else .readBlockHeader
      bitcnt := if s.dbd.bfinal = true then 0 else s.dbd.bitcnt }) :=
  (if_neg (by decide)).trans ((if_pos rfl).trans (by rw [endOfBlock_eq]))

theorem onLiteralOrLength_length {sym : Nat} {s : State} (h1 : 257 ≤ sym) (h2 : sym ≤ 285) :
    onLiteralOrLength sym s = .cont (s.setDbd
      { s.dbd with
        lsym := BitVec.ofNat 5 (sym - 257)
        length := BitVec.ofNat 9 (lenBase.getD (sym - 257) 0)
        dstate := if 265 ≤ sym ∧ sym ≤ 284 then .readLengthExtra else .readDistance }) := by
  have hx : lenExtra.getD (sym - 257) 0 > 0 ↔ 265 ≤ sym ∧ sym ≤ 284 := by
    rw [gt_iff_lt, lenExtra_pos _ (by omega)]; omega
  rw [onLiteralOrLength, if_neg (by omega), if_neg (by omega), if_pos h2]
  simp only [hx]

theorem onLiteralOrLength_reserved {sym : Nat} {s : State} (h : 286 ≤ sym) :
    onLiteralOrLength sym s = .stop .badCodeLength (fail .badCodeLength s) := by
  rw [onLiteralOrLength, if_neg (by omega), if_neg (by omega), if_neg (by omega)]
  rfl

/-! ## ReadDistance (R190) -/

theorem onDistance_noExtra {sym : Nat} {s : State} (h : sym ≤ 3) : onDistance sym s = .cont (s.setDbd
    { s.dbd with
      dsym := BitVec.ofNat 5 sym
      dist := BitVec.ofNat 16 (distBase.getD sym 0)
      rem := BitVec.ofNat 16 s.dbd.length.toNat
      dstate := .copyFromHistory }) := by
  have hx : ¬distExtra.getD sym 0 > 0 := by rw [gt_iff_lt, distExtra_pos _ (by omega)]; omega
  rw [onDistance, if_neg (by omega)]
  simp only [if_neg hx, startCopy, BitVec.ofNat_toNat]

theorem onDistance_extra {sym : Nat} {s : State} (h1 : 4 ≤ sym) (h2 : sym ≤ 29) : onDistance sym s = .cont (s.setDbd
    { s.dbd with
      dsym := BitVec.ofNat 5 sym
      dist := BitVec.ofNat 16 (distBase.getD sym 0)
      dstate := .readDistanceExtra }) := by
  have hx : distExtra.getD sym 0 > 0 := by rw [gt_iff_lt, distExtra_pos _ h2]; exact h1
  rw [onDistance, if_neg (by omega)]
  simp only [if_pos hx]

theorem onDistance_reserved {sym : Nat} {s : State} (h : 30 ≤ sym) :
    onDistance sym s = .stop .badCodeLength (fail .badCodeLength s) := if_pos (by omega)

end Sys2Proof.Machine

/-! SUPPORT. Block headers and stored blocks (42_decoder.md R177 to R180): the transition on each whole field, and the
DEC.ONE of a byte in each of these states. -/

namespace Sys2Proof.Machine

/-! ## The offer of a byte (R170, R174) -/

theorem microStep_accepted {s : State} {q : List SinkAnswer} (ho : s.dbd.outv = true) (hq : s.env.sink = .accepted :: q) :
    microStep s = .cont
      { s with
        lzm := s.lzm.record s.dbd.outb true
        env := { s.env with sink := q, out := s.env.out ++ [s.dbd.outb] }
        dbd := { s.dbd with outv := false } } := by
  rw [microStep, if_pos ho, drainStep, put_accepted hq]
  rfl

theorem microStep_refused {s : State} {q : List SinkAnswer} (ho : s.dbd.outv = true) (hq : s.env.sink = .refused :: q) :
    microStep s = .stop .overflow { s with env := { s.env with sink := q } } := by
  rw [microStep, if_pos ho, drainStep, put_refused hq]

/-- While HOLD = 1 DEC.ONE loads nothing. -/
theorem loadByte_held {s : State} (hh : s.dbd.hold = true) (x : Bm1) : loadByte x s = s := by
  rcases loadByte_cases x s with h | ⟨b, -, h, -⟩
  · exact h
  · rw [hh] at h; cases h

/-- DEC.ONE while HOLD = 1, the pending byte refused again. -/
theorem execDecOne_refusedAgain {v : Word} {s : State} {q : List SinkAnswer} (hopen : sessionOpen s = true)
    (hv : IsBm1 v) (hh : s.dbd.hold = true) (ho : s.dbd.outv = true) (hq : s.env.sink = .refused :: q) :
    execDecOne v s = .next { s with status := 0x01, value := 0, env := { s.env with sink := q } } := by
  obtain ⟨x, hx⟩ := (readBm1_isSome v).2 hv
  have hrun : runEngine s = (.overflow, { s with env := { s.env with sink := q } }) := run_stop (microStep_refused ho hq)
  have hset : setHold true { s with env := { s.env with sink := q } } = { s with env := { s.env with sink := q } } :=
    setHold_same hh
  rw [execDecOne_open hopen hx, loadByte_held hh, hrun, oneEnd_overflow, hset]
  rfl

/-- DEC.FINISH, the pending byte refused. -/
theorem execDecFinish_refused {s : State} {q : List SinkAnswer} (hopen : sessionOpen s = true) (ho : s.dbd.outv = true)
    (hq : s.env.sink = .refused :: q) : execDecFinish s = .next
      { s with status := 0x01, value := 0, env := { s.env with sink := q }, dbd := { s.dbd with hold := true } } := by
  have hrun : runEngine s = (.overflow, { s with env := { s.env with sink := q } }) := run_stop (microStep_refused ho hq)
  rw [execDecFinish_open hopen, hrun]
  rfl

/-! ## Stored bytes (R179) -/

/-- Where a stored block stands: in its bytes, or past its last one, and in Done past the last block's (R175). -/
def storedNext (last final : Prop) [Decidable last] [Decidable final] : DState :=
  if last then (if final then .done else .readBlockHeader) else .rawBytes

section
variable (last final : Prop) [Decidable last] [Decidable final]

theorem storedNext_noInput : storedNext last final = .done ∨ consumesBits (storedNext last final) = true := by
  unfold storedNext
  split
  · split
    · exact .inl rfl
    · exact .inr rfl
  · exact .inr rfl

theorem storedNext_report :
    (noInputCode (storedNext last final)).word = if last ∧ final then 0x02 else 0x00 := by
  by_cases hl : last <;> by_cases hf : final <;> simp only [storedNext, hl, hf] <;> rfl

end

theorem onRawByte_eq (v : Word) {s : State} (hd : s.dbd.dstate = .rawBytes) : onRawByte v s = .cont (s.setDbd
    { s.dbd with
      outb := BitVec.ofNat 8 v.toNat
      outv := true
      rem := s.dbd.rem - 1
      dstate := if s.dbd.rem = 1 then (if s.dbd.bfinal = true then .done else .readBlockHeader) else .rawBytes
      bitcnt := if s.dbd.rem = 1 ∧ s.dbd.bfinal = true then 0 else s.dbd.bitcnt }) := by
  have hv : v.extractLsb' 0 8 = BitVec.ofNat 8 v.toNat := BitVec.eq_of_toNat_eq (by rw [toNat_extract_low]; simp)
  have hr : s.dbd.rem - 1 = 0 ↔ s.dbd.rem = 1 := sub_eq_zero
  simp only [onRawByte, emit, hv, hr, endOfBlock_eq]
  split <;> rename_i h
  · simp only [h, true_and]
  · simp only [h, false_and, if_false, hd]

/-- The registers once a stored byte is whole and no bit is left, but for OUTV, ACC and ACCN. -/
def Dbd.storedByte (b : Byte) (d : Dbd) : Dbd :=
  { d with
    dstate := if d.rem = 1 then (if d.bfinal = true then .done else .readBlockHeader) else .rawBytes
    rem := d.rem - 1, bitbuf := 0, bitcnt := 0, dictOpen := false, outb := b }

/-- Run on a stored byte: it waits for the sink. -/
theorem run_storedByte {s : State} (b : Byte) (hd : s.dbd.dstate = .rawBytes) (ho : s.dbd.outv = false)
    (ha : s.dbd.acc = 0) (hc : s.dbd.accn = 0) (f : Nat) :
    run (f + 8) (s.setDbd (s.dbd.loaded b)) = run f (s.setDbd { s.dbd.storedByte b with outv := true }) := by
  have hv : BitVec.ofNat 8 (BitVec.ofNat 32 (b.toNat % 2 ^ 8)).toNat = b := by
    apply BitVec.eq_of_toNat_eq
    have := b.isLt
    simp only [BitVec.toNat_ofNat]; omega
  have h0 : (8 : BitVec 4) - BitVec.ofNat 4 8 = 0 := rfl
  have hst : (s.setDbd ((s.dbd.loaded b).bitsTaken 8)).dbd.dstate = .rawBytes := hd
  rw [rawBytes_acts.run_loaded_fresh b (by omega) le_rfl hd ho ha hc f, onRawByte_eq _ hst, hv]
  refine congrArg (fun d => run f (s.setDbd d)) ?_
  simp only [State.setDbd_dbd, Dbd.bitsTaken, Dbd.loaded, Dbd.storedByte, byte_shiftRight_eight, h0, ite_self, ha, hc]

/-- The DEC.ONE of a stored byte the sink accepts. -/
theorem exec_storedByte_accepted {v : Word} {s : State} {q : List SinkAnswer} {b : Byte} (hv : v.toNat ≤ 255)
    (hb : b = BitVec.ofNat 8 v.toNat) (hd : s.dbd.dstate = .rawBytes) (hh : s.dbd.hold = false) (ho : s.dbd.outv = false)
    (ha : s.dbd.acc = 0) (hc : s.dbd.accn = 0) (hq : s.env.sink = .accepted :: q) : exec (.decOne v) s = .next
      { s with
        status := if s.dbd.rem = 1 ∧ s.dbd.bfinal = true then 0x02 else 0x00
        value := 0
        lzm := s.lzm.record b true
        env := { s.env with sink := q, out := s.env.out ++ [b] }
        dbd := s.dbd.storedByte b } := by
  have hout : { s.dbd.storedByte b with outv := false } = s.dbd.storedByte b := by
    rw [← ho]; rfl
  obtain ⟨f, hf⟩ := runEngine_fuel 9 (by decide)
  have hacc := microStep_accepted (s := s.setDbd { s.dbd.storedByte b with outv := true }) rfl hq
  rw [exec_decOne_noInput (n := f)
      { s with
        lzm := s.lzm.record b true
        env := { s.env with sink := q, out := s.env.out ++ [b] }
        dbd := s.dbd.storedByte b } hv (by rw [hd]; rfl) hh ?_ ho rfl (storedNext_noInput _ _) hh]
  · rw [← storedNext_report]
    rfl
  · rw [← hb, hf]
    refine (run_storedByte b hd ho ha hc (f + 2)).trans ((run_cont hacc).trans (congrArg (run (f + 1)) ?_))
    rw [← hout]
    rfl

/-- The DEC.ONE of a stored byte the sink refuses. -/
theorem exec_storedByte_refused {v : Word} {s : State} {q : List SinkAnswer} {b : Byte} (hv : v.toNat ≤ 255)
    (hb : b = BitVec.ofNat 8 v.toNat) (hd : s.dbd.dstate = .rawBytes) (hh : s.dbd.hold = false) (ho : s.dbd.outv = false)
    (ha : s.dbd.acc = 0) (hc : s.dbd.accn = 0) (hq : s.env.sink = .refused :: q) : exec (.decOne v) s = .next
      { s with
        status := 0x01, value := 0
        env := { s.env with sink := q }
        dbd := { s.dbd.storedByte b with outv := true, hold := true } } := by
  have hm := microStep_refused (s := s.setDbd { s.dbd.storedByte b with outv := true }) rfl hq
  obtain ⟨f, hf⟩ := runEngine_fuel 8 (by decide)
  have hrun : runEngine (s.setDbd (s.dbd.loaded b)) = (.overflow,
      { s with env := { s.env with sink := q }, dbd := { s.dbd.storedByte b with outv := true } }) :=
    (hf _).trans ((run_storedByte b hd ho ha hc (f + 1)).trans (run_stop hm))
  rw [exec_decOne_byte hv (by rw [hd]; rfl) hh, ← hb, hrun]
  rfl

end Sys2Proof.Machine

/-! SUPPORT. LEN and NLEN of a stored block (42_decoder.md R178): the check, and the DEC.ONE of each of the four bytes. -/

namespace Sys2Proof.Machine

/-! ## The check -/

/-- NLEN is LEN's complement. -/
theorem isComplement_iff (x y : BitVec 16) : x = ~~~y ↔ x.toNat + y.toNat = 0xFFFF := by
  have hx := x.isLt
  have hy := y.isLt
  rw [← BitVec.toNat_inj, BitVec.toNat_not]
  omega

theorem toNat_len (v : Word) : (v.extractLsb' 0 16).toNat = v.toNat % 2 ^ 16 := by simp [BitVec.extractLsb'_toNat]

theorem toNat_nlen (v : Word) : (v.extractLsb' 16 16).toNat = v.toNat / 2 ^ 16 := by
  have := v.isLt
  simp only [BitVec.extractLsb'_toNat, Nat.shiftRight_eq_div_pow]
  omega

theorem lengthsAgree_iff (v : Word) :
    v.extractLsb' 16 16 = v.extractLsb' 0 16 ^^^ 0xFFFF ↔ v.toNat / 2 ^ 16 + v.toNat % 2 ^ 16 = 0xFFFF := by
  rw [show (0xFFFF : BitVec 16) = BitVec.allOnes 16 from rfl, BitVec.xor_allOnes, isComplement_iff, toNat_len, toNat_nlen]

theorem onRawLength_corrupt {v : Word} (s : State) (h : v.toNat / 2 ^ 16 + v.toNat % 2 ^ 16 ≠ 0xFFFF) :
    onRawLength v s = .stop .corruptLength (fail .corruptLength s) :=
  if_pos (mt (lengthsAgree_iff v).1 h)

theorem onRawLength_ok {v : Word} (s : State) (h : v.toNat / 2 ^ 16 + v.toNat % 2 ^ 16 = 0xFFFF) :
    onRawLength v s = .cont (s.setDbd
      { s.dbd with
        rem := BitVec.ofNat 16 (v.toNat % 2 ^ 16)
        dstate :=
          if v.toNat % 2 ^ 16 = 0 then (if s.dbd.bfinal = true then .done else .readBlockHeader) else .rawBytes
        bitcnt := if v.toNat % 2 ^ 16 = 0 ∧ s.dbd.bfinal = true then 0 else s.dbd.bitcnt }) := by
  have hlen : v.extractLsb' 0 16 = BitVec.ofNat 16 (v.toNat % 2 ^ 16) := by
    rw [← toNat_len, BitVec.ofNat_toNat, BitVec.setWidth_eq]
  have hzero : v.extractLsb' 0 16 = 0 ↔ v.toNat % 2 ^ 16 = 0 := by
    rw [← BitVec.toNat_inj, toNat_len]; rfl
  rw [onRawLength, if_neg (not_not.2 ((lengthsAgree_iff v).2 h))]
  simp only [hzero, endOfBlock_eq]
  split <;> rename_i h0
  · simp only [h0, true_and]; rfl
  · simp only [hlen, h0, false_and, if_false]

/-! ## Byte by byte -/

theorem toNat_byteOperand {v : Word} (hv : v.toNat ≤ 255) : (BitVec.ofNat 8 v.toNat).toNat % 2 ^ 8 = v.toNat := by
  simp only [BitVec.toNat_ofNat]; omega

/-- A byte whose eight bits leave LEN and NLEN pending. -/
theorem exec_rawLength_pending {v : Word} {s : State} {k : Nat} (hv : v.toNat ≤ 255) (hk : k < 3)
    (hd : s.dbd.dstate = .rawLength) (hh : s.dbd.hold = false) (ho : s.dbd.outv = false)
    (hc : s.dbd.accn.toNat = 8 * k) (ha : s.dbd.acc.toNat < 2 ^ (8 * k)) : exec (.decOne v) s = .next
      { s with
        status := 0x00, value := 0
        dbd := { s.dbd with
          acc := BitVec.ofNat 32 (s.dbd.acc.toNat + v.toNat * 2 ^ (8 * k)), accn := BitVec.ofNat 6 (8 * k + 8)
          bitbuf := 0, bitcnt := 0, dictOpen := false } } := by
  have hb : consumesBits s.dbd.dstate = true := by rw [hd]; rfl
  have haccn : s.dbd.accn + BitVec.ofNat 6 8 = BitVec.ofNat 6 (8 * k + 8) := by
    rw [BitVec.ofNat_add, ← hc, BitVec.ofNat_toNat, BitVec.setWidth_eq]
  have h0 : (8 : BitVec 4) - BitVec.ofNat 4 8 = 0 := rfl
  obtain ⟨f, hf⟩ := runEngine_fuel 8 (by decide)
  have hrun := run_pendingBits (n := 32) (s := s.setDbd (s.dbd.loaded (BitVec.ofNat 8 v.toNat))) rawLength_acts le_rfl 8
    hd ho le_rfl (by show s.dbd.accn.toNat + 8 < 32; omega)
    (by show s.dbd.acc.toNat < 2 ^ s.dbd.accn.toNat; rw [hc]; exact ha) (f + 1)
  simp only [State.setDbd_dbd, Dbd.bitsPending, Dbd.loaded, byte_shiftRight_eight, h0, haccn, toNat_byteOperand hv, hc]
    at hrun
  exact exec_decOne_waits _ hv hb hh ((hf _).trans hrun) ho rfl hb hh

/-- LEN and NLEN once the fourth byte stands above the first three. -/
def lengthsField (acc : Word) (v : Word) : Word := BitVec.ofNat 32 (acc.toNat + v.toNat * 2 ^ 24)

theorem lengthsField_toNat {acc v : Word} (ha : acc.toNat < 2 ^ 24) (hv : v.toNat ≤ 255) :
    (lengthsField acc v).toNat = acc.toNat + v.toNat * 2 ^ 24 := by
  rw [lengthsField, BitVec.toNat_ofNat, Nat.mod_eq_of_lt (by omega)]

/-- The check on the four bytes: LEN is the first two, NLEN the fourth above the third. -/
theorem lengthsField_agree_iff {acc v : Word} (ha : acc.toNat < 2 ^ 24) (hv : v.toNat ≤ 255) :
    BitVec.ofNat 8 v.toNat ++ acc.extractLsb' 16 8 = ~~~(acc.extractLsb' 0 16)
      ↔ (lengthsField acc v).toNat / 2 ^ 16 + (lengthsField acc v).toNat % 2 ^ 16 = 0xFFFF := by
  have h8 : (acc.extractLsb' 16 8).toNat = acc.toNat / 2 ^ 16 := by
    simp only [BitVec.extractLsb'_toNat, Nat.shiftRight_eq_div_pow]; omega
  have hn : (BitVec.ofNat 8 v.toNat ++ acc.extractLsb' 16 8).toNat = v.toNat * 2 ^ 8 + acc.toNat / 2 ^ 16 := by
    rw [BitVec.toNat_append, ← Nat.shiftLeft_add_eq_or_of_lt (acc.extractLsb' 16 8).isLt, h8, Nat.shiftLeft_eq,
      BitVec.toNat_ofNat, Nat.mod_eq_of_lt (show v.toNat < 2 ^ 8 by omega)]
  rw [isComplement_iff, hn, toNat_len, lengthsField_toNat ha hv]
  omega

theorem lengthsField_len {acc v : Word} (ha : acc.toNat < 2 ^ 24) (hv : v.toNat ≤ 255) :
    (lengthsField acc v).toNat % 2 ^ 16 = (acc.extractLsb' 0 16).toNat := by
  rw [toNat_len, lengthsField_toNat ha hv]; omega

section
variable {v : Word} {s : State} (hv : v.toNat ≤ 255) (hd : s.dbd.dstate = .rawLength) (hh : s.dbd.hold = false)
  (ho : s.dbd.outv = false) (hc : s.dbd.accn = 24) (ha : s.dbd.acc.toNat < 2 ^ 24)
include hv hd hh ho hc ha

omit hh in
/-- Run on the fourth byte. -/
theorem run_rawLength_fourth : ∃ f, runEngine (s.setDbd (s.dbd.loaded (BitVec.ofNat 8 v.toNat)))
    = (onRawLength (lengthsField s.dbd.acc v)
        (s.setDbd ((s.dbd.loaded (BitVec.ofNat 8 v.toNat)).bitsTaken 8))).thenRun (f + 1) := by
  have hn : s.dbd.accn.toNat = 24 := by rw [hc]; rfl
  obtain ⟨f, hf⟩ := runEngine_fuel 8 (by decide)
  have hrun := rawLength_acts.run_loaded le_rfl (BitVec.ofNat 8 v.toNat) (show 0 < 8 by omega) le_rfl hd ho
    (by rw [hn]) (by rw [hn]; exact ha) (f + 1)
  rw [toNat_byteOperand hv, hn] at hrun
  exact ⟨f, (hf _).trans hrun⟩

theorem exec_rawLength_corrupt (hbad : BitVec.ofNat 8 v.toNat ++ s.dbd.acc.extractLsb' 16 8 ≠ ~~~(s.dbd.acc.extractLsb' 0 16)) :
    exec (.decOne v) s = .next
      { s with
        status := 0x17, value := 0
        dbd := { s.dbd with
          dstate := .error, err := 0x17, acc := 0, accn := 0, bitbuf := 0, bitcnt := 0, dictOpen := false } } := by
  obtain ⟨f, hrun⟩ := run_rawLength_fourth hv hd ho hc ha
  rw [onRawLength_corrupt _ (mt (lengthsField_agree_iff ha hv).2 hbad)] at hrun
  rw [exec_decOne_fails _ _ (by decide) hv (by rw [hd]; rfl) hh hrun]
  simp only [finish, finishBits, fail, State.setDbd, Dbd.failed, Dbd.bitsTaken, Dbd.loaded, byte_shiftRight_eight, ho, hh]
  rfl

theorem exec_rawLength_ok (hok : BitVec.ofNat 8 v.toNat ++ s.dbd.acc.extractLsb' 16 8 = ~~~(s.dbd.acc.extractLsb' 0 16)) :
    exec (.decOne v) s = .next
      { s with
        status := if s.dbd.acc.extractLsb' 0 16 = 0 ∧ s.dbd.bfinal = true then 0x02 else 0x00
        value := 0
        dbd := { s.dbd with
          dstate := if s.dbd.acc.extractLsb' 0 16 = 0 then (if s.dbd.bfinal = true then .done else .readBlockHeader)
            else .rawBytes
          rem := s.dbd.acc.extractLsb' 0 16, acc := 0, accn := 0, bitbuf := 0, bitcnt := 0, dictOpen := false } } := by
  have hzero : (s.dbd.acc.extractLsb' 0 16).toNat = 0 ↔ s.dbd.acc.extractLsb' 0 16 = 0 := by
    rw [← BitVec.toNat_inj]; rfl
  have h0 : (8 : BitVec 4) - BitVec.ofNat 4 8 = 0 := rfl
  obtain ⟨f, hrun⟩ := run_rawLength_fourth hv hd ho hc ha
  rw [onRawLength_ok _ ((lengthsField_agree_iff ha hv).1 hok), lengthsField_len ha hv] at hrun
  simp only [hzero, State.setDbd_dbd, Dbd.bitsTaken, Dbd.loaded, byte_shiftRight_eight, h0, ite_self, BitVec.ofNat_toNat,
    BitVec.setWidth_eq] at hrun
  refine (exec_decOne_noInput _ hv (by rw [hd]; rfl) hh hrun ho rfl (storedNext_noInput _ _) hh).trans ?_
  rw [← storedNext_report]
  rfl
end

end Sys2Proof.Machine

/-! SUPPORT. Block headers (42_decoder.md R177, R180): the transition on each block type, and the DEC.ONE of a block's first
byte, with the five bits after the header. -/

namespace Sys2Proof.Machine

/-! ## The header -/

theorem toNat_blockType (v : Word) : (v.extractLsb' 1 2).toNat = v.toNat / 2 % 4 := by
  simp [BitVec.extractLsb'_toNat, Nat.shiftRight_eq_div_pow]

section
variable {v : Word} (s : State)

theorem onBlockHeader_stored (h : v.toNat / 2 % 4 = 0) : onBlockHeader v s
    = .cont (s.setDbd { s.dbd with bfinal := v.getLsbD 0, bitcnt := 0, dstate := .rawLength }) := by
  simp only [onBlockHeader, toNat_blockType, h]

theorem onBlockHeader_fixed (h : v.toNat / 2 % 4 = 1) : onBlockHeader v s
    = .cont (s.setDbd { s.dbd with bfinal := v.getLsbD 0, setupKind := 1, dstate := .fixedOrDynamicSetup }) := by
  simp only [onBlockHeader, toNat_blockType, h]

theorem onBlockHeader_dynamic (h : v.toNat / 2 % 4 = 2) : onBlockHeader v s
    = .cont (s.setDbd { s.dbd with bfinal := v.getLsbD 0, dstate := .readCodeLengthAlphabetHeader }) := by
  simp only [onBlockHeader, toNat_blockType, h]

theorem onBlockHeader_reserved (h : v.toNat / 2 % 4 = 3) : onBlockHeader v s
    = .stop .badBlockType (fail .badBlockType (s.setDbd { s.dbd with bfinal := v.getLsbD 0 })) := by
  simp only [onBlockHeader, toNat_blockType, h]
  rfl

end

/-- The header in a byte's first three bits. -/
theorem firstHeader_blockType (b : Byte) : (BitVec.ofNat 32 (b.toNat % 2 ^ 3)).toNat / 2 % 4 = (b.extractLsb' 1 2).toNat := by
  simp only [BitVec.toNat_ofNat, BitVec.extractLsb'_toNat, Nat.shiftRight_eq_div_pow]
  omega

theorem firstHeader_final (b : Byte) : (BitVec.ofNat 32 (b.toNat % 2 ^ 3)).getLsbD 0 = b.getLsbD 0 := by
  simp [BitVec.getLsbD]

/-! ## The fixed setup (R180) -/

theorem microStep_setupFixed {s : State} (hd : s.dbd.dstate = .fixedOrDynamicSetup) (ho : s.dbd.outv = false)
    (hk : s.dbd.setupKind = 1) : microStep s = .cont
      { s with
        htg := { s.htg with ll := fixedLl, dist := fixedDist }
        dbd := { s.dbd with setupKind := 0, dstate := .readLiteralOrLength } } := by
  have hm : microStep s = engineStep s := if_neg (by simp [ho])
  have he : engineStep s = stepSetup s := by simp only [engineStep, hd]
  rw [hm, he, stepSetup, if_pos hk]
  rfl

/-! ## Bits of a code of the fixed table -/

theorem fixedLl_len_ge {e : Entry} (he : e ∈ fixedLl) : 7 ≤ e.len.toNat := by
  obtain ⟨i, -, rfl⟩ := List.mem_map.1 he
  have hlen : 7 ≤ fixedLlLen i ∧ fixedLlLen i ≤ 9 := by unfold fixedLlLen; split_ifs <;> omega
  simp only [BitVec.toNat_ofNat]
  omega

/-- No code of the fixed literal/length table is shorter than 7 bits (40_huffman.md R120). -/
theorem lookup_fixedLl_short {k : Nat} (bits : Nat) (hk : k < 7) : lookup fixedLl k bits = none :=
  lookup_eq_none.2 fun _ he ⟨hl, _⟩ => by have := fixedLl_len_ge he; omega

/-- The registers after a bit of a code that leaves it pending. -/
def Dbd.codeBit (d : Dbd) : Dbd :=
  { d with bitbuf := d.bitbuf >>> 1, bitcnt := d.bitcnt - 1, acc := codeAcc (d.bitbuf.getLsbD 0) d, accn := d.accn + 1 }

theorem microStep_fixedLl_pending {s : State} (h : TakesBit .readLiteralOrLength s) (hl : s.htg.ll = fixedLl)
    (hn : s.dbd.accn.toNat + 1 < 7) : microStep s = .cont (s.setDbd s.dbd.codeBit) := by
  have hk : ((dropBit s).dbd.accn + 1).toNat = s.dbd.accn.toNat + 1 := by
    show (s.dbd.accn + 1).toNat = _
    simp [BitVec.toNat_add]; omega
  have hpend : readCode .ll 15 (nextBit s) (dropBit s) = .pending := by
    have ht : (dropBit s).table .ll = fixedLl := hl
    rw [readCode_eq, ht, hk, lookup_fixedLl_short _ hn]
    exact if_neg (by omega)
  rw [(readLiteralOrLength_acts s h).1 hpend]
  simp only [codeState, hpend]
  rfl

/-- Run on `m` bits of a code of the fixed table, none of them its last. -/
theorem run_fixedLl_pending (m : Nat) {s : State} (hd : s.dbd.dstate = .readLiteralOrLength) (ho : s.dbd.outv = false)
    (hl : s.htg.ll = fixedLl) (hb : m ≤ s.dbd.bitcnt.toNat) (hn : s.dbd.accn.toNat + m < 7) (f : Nat) :
    run (f + m) s = run f (s.setDbd (Dbd.codeBit^[m] s.dbd)) := by
  induction m generalizing s with
  | zero => rfl
  | succ m ih =>
    have hbne : s.dbd.bitcnt ≠ 0 := fun h => by rw [h] at hb; simp at hb
    have hbits : s.dbd.codeBit.bitcnt.toNat = s.dbd.bitcnt.toNat - 1 := by
      have := s.dbd.bitcnt.isLt
      show (s.dbd.bitcnt - 1).toNat = _
      simp [BitVec.toNat_sub]; omega
    have hread : s.dbd.codeBit.accn.toNat = s.dbd.accn.toNat + 1 := by
      show (s.dbd.accn + 1).toNat = _
      simp [BitVec.toNat_add]; omega
    rw [← Nat.add_assoc, run_cont (microStep_fixedLl_pending ⟨hd, ho, hbne⟩ hl (by omega)),
      ih (s := s.setDbd s.dbd.codeBit) hd ho hl (by rw [State.setDbd_dbd]; omega) (by rw [State.setDbd_dbd]; omega)]
    rfl

/-- Five bits of a code, first bit first. -/
theorem codeBit_five {d : Dbd} (ha : d.acc = 0) (hc : d.accn = 0) : Dbd.codeBit^[5] d =
    { d with
      bitbuf := d.bitbuf >>> 5, bitcnt := d.bitcnt - 5, accn := 5
      acc := (bitWord (d.bitbuf.getLsbD 0) <<< 4) ||| (bitWord (d.bitbuf.getLsbD 1) <<< 3)
        ||| (bitWord (d.bitbuf.getLsbD 2) <<< 2) ||| (bitWord (d.bitbuf.getLsbD 3) <<< 1)
        ||| bitWord (d.bitbuf.getLsbD 4) } := by
  have hacc : ∀ b0 b1 b2 b3 b4 : Bool,
      (((((0 : Word) <<< 1 ||| bitWord b0) <<< 1 ||| bitWord b1) <<< 1 ||| bitWord b2) <<< 1 ||| bitWord b3) <<< 1
        ||| bitWord b4
      = (bitWord b0 <<< 4) ||| (bitWord b1 <<< 3) ||| (bitWord b2 <<< 2) ||| (bitWord b3 <<< 1) ||| bitWord b4 := by
    decide
  have hcnt : d.bitcnt - 1 - 1 - 1 - 1 - 1 = d.bitcnt - 5 := by simp only [BitVec.sub_sub]; rfl
  have hbuf : d.bitbuf >>> 1 >>> 1 >>> 1 >>> 1 >>> 1 = d.bitbuf >>> 5 := by simp only [← BitVec.shiftRight_add]
  have hn : (0 : BitVec 6) + 1 + 1 + 1 + 1 + 1 = 5 := rfl
  simp only [Function.iterate_succ, Function.iterate_zero, Function.comp, id, Dbd.codeBit, codeAcc,
    BitVec.getLsbD_ushiftRight, Nat.reduceAdd, ha, hc, hacc, hcnt, hbuf, hn]

/-! ## The five bits after a header -/

theorem byte_shiftRight_three_five (b : Byte) : b >>> 3 >>> 5 = 0 := by
  rw [← BitVec.shiftRight_add]
  exact byte_shiftRight_eight b

theorem byte_shiftRight_three_acc (b : Byte) : BitVec.ofNat 32 ((b >>> 3).toNat % 2 ^ 5) = (b >>> 3).zeroExtend 32 := by
  apply BitVec.eq_of_toNat_eq
  have := b.isLt
  simp [Nat.shiftRight_eq_div_pow]
  omega

section
variable {s : State} (ho : s.dbd.outv = false) (hb : s.dbd.bitcnt = 5) (ha : s.dbd.acc = 0) (hc : s.dbd.accn = 0)
include ho hb ha hc

/-- Five bits of a dynamic header. -/
theorem run_dynamicHeader_five (hd : s.dbd.dstate = .readCodeLengthAlphabetHeader) (f : Nat) :
    run (f + 5) s = run f (s.setDbd
      { s.dbd with
        bitbuf := s.dbd.bitbuf >>> 5, bitcnt := 0, accn := 5
        acc := BitVec.ofNat 32 (s.dbd.bitbuf.toNat % 2 ^ 5) }) := by
  have hrun := run_pendingBits readCodeLengthAlphabetHeader_acts (by omega) 5 hd ho (by rw [hb]; decide)
    (by rw [hc]; decide) (by rw [ha, hc]; decide) f
  have h5 : (5 : BitVec 4) - BitVec.ofNat 4 5 = 0 := rfl
  have hacc : ∀ x : Nat, (0 : Word).toNat + x * 2 ^ (0 : BitVec 6).toNat = x := by simp
  have hn : (0 : BitVec 6) + BitVec.ofNat 6 5 = 5 := rfl
  simpa only [Dbd.bitsPending, hb, h5, ha, hc, hacc, hn] using hrun

/-- Five bits of a literal/length code of the fixed table. -/
theorem run_fixedLl_five (hd : s.dbd.dstate = .readLiteralOrLength) (hl : s.htg.ll = fixedLl) (f : Nat) :
    run (f + 5) s = run f (s.setDbd
      { s.dbd with
        bitbuf := s.dbd.bitbuf >>> 5, bitcnt := 0, accn := 5
        acc := (bitWord (s.dbd.bitbuf.getLsbD 0) <<< 4) ||| (bitWord (s.dbd.bitbuf.getLsbD 1) <<< 3)
          ||| (bitWord (s.dbd.bitbuf.getLsbD 2) <<< 2) ||| (bitWord (s.dbd.bitbuf.getLsbD 3) <<< 1)
          ||| bitWord (s.dbd.bitbuf.getLsbD 4) }) := by
  have h5 : (5 : BitVec 4) - 5 = 0 := rfl
  rw [run_fixedLl_pending 5 hd ho hl (by rw [hb]; decide) (by rw [hc]; decide) f, codeBit_five ha hc]
  simp only [hb, h5]

/-- The fixed setup and five bits of the first code. -/
theorem run_fixedBlock_five (hd : s.dbd.dstate = .fixedOrDynamicSetup) (hk : s.dbd.setupKind = 1) (f : Nat) :
    run (f + 5 + 1) s = run f
      { s with
        htg := { s.htg with ll := fixedLl, dist := fixedDist }
        dbd := { s.dbd with
          dstate := .readLiteralOrLength, setupKind := 0, bitbuf := s.dbd.bitbuf >>> 5, bitcnt := 0, accn := 5
          acc := (bitWord (s.dbd.bitbuf.getLsbD 0) <<< 4) ||| (bitWord (s.dbd.bitbuf.getLsbD 1) <<< 3)
            ||| (bitWord (s.dbd.bitbuf.getLsbD 2) <<< 2) ||| (bitWord (s.dbd.bitbuf.getLsbD 3) <<< 1)
            ||| bitWord (s.dbd.bitbuf.getLsbD 4) } } := by
  refine (run_cont (microStep_setupFixed hd ho hk)).trans ((run_fixedLl_five ?_ ?_ ?_ ?_ ?_ ?_ f).trans rfl)
  · exact ho
  · exact hb
  · exact ha
  · exact hc
  · rfl
  · rfl

end

/-! ## The first byte of a block -/

section
variable {v : Word} {s : State} {b : Byte} (hv : v.toNat ≤ 255) (hb : b = BitVec.ofNat 8 v.toNat)
  (hd : s.dbd.dstate = .readBlockHeader) (hh : s.dbd.hold = false) (ho : s.dbd.outv = false) (ha : s.dbd.acc = 0)
  (hc : s.dbd.accn = 0)
include hd ho ha hc

/-- Run on the header of a block's first byte. -/
theorem run_firstHeader (f : Nat) : run (f + 3) (s.setDbd (s.dbd.loaded b))
    = (onBlockHeader (BitVec.ofNat 32 (b.toNat % 2 ^ 3)) (s.setDbd ((s.dbd.loaded b).bitsTaken 3))).thenRun f :=
  readBlockHeader_acts.run_loaded_fresh b (by omega) (by omega) hd ho ha hc f

include hv hb hh

theorem exec_firstByte_stored (ht : b.extractLsb' 1 2 = 0) : exec (.decOne v) s = .next
    { s with
      status := 0x00, value := 0
      dbd := { s.dbd with
        dstate := .rawLength, bfinal := b.getLsbD 0, bitbuf := b >>> 3, bitcnt := 0, dictOpen := false } } := by
  subst hb
  obtain ⟨f, hf⟩ := runEngine_fuel 3 (by decide)
  have hrun := run_firstHeader (b := BitVec.ofNat 8 v.toNat) hd ho ha hc (f + 1)
  rw [onBlockHeader_stored _ (by rw [firstHeader_blockType, ht]; rfl), firstHeader_final] at hrun
  rw [exec_decOne_waits _ hv (by rw [hd]; rfl) hh ((hf _).trans hrun) ho rfl rfl hh]
  simp only [finish, finishBits, State.setDbd, Dbd.bitsTaken, Dbd.loaded, ha, hc]
  rfl

theorem exec_firstByte_reserved (ht : b.extractLsb' 1 2 = 3) : exec (.decOne v) s = .next
    { s with
      status := 0x16, value := 0
      dbd := { s.dbd with
        dstate := .error, err := 0x16, bfinal := b.getLsbD 0, bitbuf := b >>> 3, bitcnt := 0, dictOpen := false } } := by
  subst hb
  obtain ⟨f, hf⟩ := runEngine_fuel 3 (by decide)
  have hrun := run_firstHeader (b := BitVec.ofNat 8 v.toNat) hd ho ha hc (f + 1)
  rw [onBlockHeader_reserved _ (by rw [firstHeader_blockType, ht]; rfl), firstHeader_final] at hrun
  rw [exec_decOne_fails .badBlockType _ (by decide) hv (by rw [hd]; rfl) hh ((hf _).trans hrun)]
  simp only [finish, finishBits, fail, Dbd.failed, State.setDbd, Dbd.bitsTaken, Dbd.loaded, ha, hc, ho, hh]
  rfl

theorem exec_firstByte_dynamic (ht : b.extractLsb' 1 2 = 2) : exec (.decOne v) s = .next
    { s with
      status := 0x00, value := 0
      dbd := { s.dbd with
        dstate := .readCodeLengthAlphabetHeader, bfinal := b.getLsbD 0, bitbuf := 0, bitcnt := 0
        dictOpen := false, accn := 5, acc := (b >>> 3).zeroExtend 32 } } := by
  subst hb
  obtain ⟨f, hf⟩ := runEngine_fuel 8 (by decide)
  have hrun := run_firstHeader (b := BitVec.ofNat 8 v.toNat) hd ho ha hc (f + 6)
  rw [onBlockHeader_dynamic _ (by rw [firstHeader_blockType, ht]; rfl), firstHeader_final] at hrun
  have h5 : (8 : BitVec 4) - BitVec.ofNat 4 3 = 5 := rfl
  have hbits := fun t : State => run_dynamicHeader_five (s := t) (f := f + 1)
  rw [exec_decOne_waits _ hv (by rw [hd]; rfl) hh ((hf _).trans (hrun.trans (hbits _ ho h5 rfl rfl rfl))) ho rfl rfl hh]
  simp only [finish, finishBits, State.setDbd, Dbd.bitsTaken, Dbd.loaded, byte_shiftRight_three_five, byte_shiftRight_three_acc]
  rfl

theorem exec_firstByte_fixed (ht : b.extractLsb' 1 2 = 1) : exec (.decOne v) s = .next
    { s with
      status := 0x00, value := 0
      htg := { s.htg with ll := fixedLl, dist := fixedDist }
      dbd := { s.dbd with
        dstate := .readLiteralOrLength, setupKind := 0, bfinal := b.getLsbD 0, bitbuf := 0, bitcnt := 0
        dictOpen := false, accn := 5
        acc := (bitWord (b.getLsbD 3) <<< 4) ||| (bitWord (b.getLsbD 4) <<< 3) ||| (bitWord (b.getLsbD 5) <<< 2)
          ||| (bitWord (b.getLsbD 6) <<< 1) ||| bitWord (b.getLsbD 7) } } := by
  subst hb
  obtain ⟨f, hf⟩ := runEngine_fuel 9 (by decide)
  have hrun := run_firstHeader (b := BitVec.ofNat 8 v.toNat) hd ho ha hc (f + 7)
  rw [onBlockHeader_fixed _ (by rw [firstHeader_blockType, ht]; rfl), firstHeader_final] at hrun
  have h5 : (8 : BitVec 4) - BitVec.ofNat 4 3 = 5 := rfl
  have hbits := fun t : State => run_fixedBlock_five (s := t) (f := f + 1)
  rw [exec_decOne_waits _ hv (by rw [hd]; rfl) hh ((hf _).trans (hrun.trans (hbits _ ho h5 rfl rfl rfl rfl))) ho rfl rfl hh]
  simp only [finish, finishBits, State.setDbd, Dbd.bitsTaken, Dbd.loaded, byte_shiftRight_three_five,
    BitVec.getLsbD_ushiftRight, Nat.reduceAdd]
  rfl

end

end Sys2Proof.Machine

/-! SUPPORT. The statements of 20_memory.md: the host's accesses, the ring, the order of the bits, and the stored blocks. -/

namespace Sys2Proof.Proofs
open Sys2Proof.Machine

/-- Settles O9: no register of the window answers such an access. -/
theorem undefinedHostAccessIsRefused : Obligations.UndefinedHostAccessIsRefused := by
  intro s rest offset width w h
  have hr := hostReg_none h
  refine ⟨fun hh => ?_, fun hh => ?_⟩
  · rw [step_write hh]; simp only [access, hr]
  · rw [step_read hh]; simp only [access, hr]

/-- Settles O40: Record writes the slot of distance W alone, and moves every other slot one distance further. -/
theorem recordShiftsEveryDistance : Obligations.RecordShiftsEveryDistance := fun l b ins hp _ =>
  ⟨l.get_record_one b ins hp, fun _ h1 hd => l.get_record_succ b ins hp h1 hd⟩

/-- Settles O57: a byte is recorded exactly where the sink accepts it, and nothing else of Run touches the ring or the
output. -/
theorem recordedBytesAreTheOutput : Obligations.RecordedBytesAreTheOutput := by
  rintro i s t (⟨v, rfl⟩ | rfl) h
  · change execDecOne v s = .next t at h
    rcases execDecOne_cases v s with ⟨c, he⟩ | ⟨x, he⟩ <;> rw [he] at h <;> cases h
    · exact RecordsItsOutput.of_same rfl rfl
    · exact oneEnd_records x s
  · change execDecFinish s = .next t at h
    rcases execDecFinish_cases s with ⟨c, he⟩ | he <;> rw [he] at h <;> cases h
    · exact RecordsItsOutput.of_same rfl rfl
    · exact finishEnd_records s

/-- Settles O52, by induction on the number of bits read. -/
theorem fieldsArriveLowBitFirst : Obligations.FieldsArriveLowBitFirst := by
  intro n v s h1 hn ha hc
  obtain ⟨m, rfl⟩ : ∃ m, n = m + 1 := ⟨n - 1, by omega⟩
  have hlast := feedField_take v hn ha hc (show m < m + 1 by omega)
  have hall : feedField (m + 1) (fieldBits (m + 1) v) s = s.setDbd (s.dbd.holding 0 0) := by
    have hb := fieldBits_take_succ v (show m < m + 1 by omega)
    rw [List.take_of_length_le (by simp)] at hb
    rw [hb, feedField_concat, hlast, fieldState_last _ s (by omega)]
  refine ⟨fun k hk => ?_, ⟨BitVec.ofNat 32 (v.toNat % 2 ^ m + (v.getLsbD m).toNat * 2 ^ m), ?_, ?_⟩, ?_, ?_⟩
  · rw [feedField_take v hn ha hc (by omega)]
    exact readField_pending _ s hn hk
  · rw [Nat.add_sub_cancel, hlast]
    exact readField_last _ s (by omega) (Nat.mod_lt _ (Nat.two_pow_pos m))
  · have hp : 2 ^ (m + 1) ≤ 2 ^ 32 := Nat.pow_le_pow_right (by omega) hn
    have hv : v.toNat % 2 ^ m + (v.getLsbD m).toNat * 2 ^ m = v.toNat % 2 ^ (m + 1) :=
      (mod_two_pow_succ_eq v.toNat m).symm
    rw [hv, BitVec.toNat_ofNat, Nat.mod_eq_of_lt ((Nat.mod_lt _ (Nat.two_pow_pos _)).trans_le hp)]
  · rw [hall]; rfl
  · rw [hall]; rfl

/-- Settles O53: by induction on the bits read, and by the transition of each of the three states on its symbol. -/
theorem codesArriveHighBitFirst : Obligations.CodesArriveHighBitFirst := by
  refine ⟨?_, ?_, fun s h hp => ?_, fun s h => ?_, fun s h => ?_⟩
  · intro t m len p sym s hl hlm hm hp ha hc hsym hno
    have hlast : readCode t m (p.getLsbD 0) (feedCode t m ((codeBits len p).take (len - 1)) s) = .symbol sym.toNat := by
      rw [readCode_feedCode_last hlm hm hp ha hc hl hno, hsym]; rfl
    refine ⟨fun k hk => ?_, hlast, feedCode_symbol hl hlast⟩
    exact readCode_feedCode_pending hlm hm hp ha hc hk fun j h1 h2 => hno j h1 (by omega)
  · intro t m p s hl hm hp ha hc hno
    refine ⟨fun k hk => ?_, ?_⟩
    · exact readCode_feedCode_pending le_rfl hm hp ha hc hk fun j h1 h2 => hno j h1 (by omega)
    · have hall : lookup (s.table t) m p.toNat = none := by simpa using hno m hl le_rfl
      rw [readCode_feedCode_last le_rfl hm hp ha hc hl fun j h1 h2 => hno j h1 h2.le, hall]
      exact if_pos le_rfl
  · rw [phaseOk, h.1] at hp
    obtain ⟨-, hlens, hi⟩ := hp
    refine (readCodeLengths_acts s h).imp fun sym hm => ?_
    rw [hm]
    refine ⟨fun hs => ?_, ?_, fun h16 _ hi0 => onLengthSymbol_repeat h16 hi0⟩
    · obtain ⟨t, ht, hlen, hrest⟩ := onLengthSymbol_length (s := s.setDbd s.dbd.bitTaken) hs h.1 hlens hi
      exact ⟨t, ht, fun j _ => hlen j, hrest⟩
    · rintro rfl hi0
      exact onLengthSymbol_nothingToRepeat hi0
  · refine (readLiteralOrLength_acts s h).imp fun sym hm => ?_
    rw [hm]
    refine ⟨fun hs => onLiteralOrLength_literal hs, ?_, fun h1 h2 => onLiteralOrLength_length h1 h2,
      fun hs => onLiteralOrLength_reserved hs⟩
    rintro rfl
    exact onLiteralOrLength_endOfBlock _
  · refine (readDistance_acts s h).imp fun sym hm => ?_
    rw [hm]
    exact ⟨fun hs => onDistance_noExtra hs, fun h1 h2 => onDistance_extra h1 h2, fun hs => onDistance_reserved hs⟩

/-- Settles O49: the offer by the micro-step on a pending byte, and a stored byte by eight bits, the offer and the stop. -/
theorem storedByteIsOutput : Obligations.StoredByteIsOutput := by
  refine ⟨fun s q ho => ⟨microStep_accepted ho, microStep_refused ho⟩, fun v s q hopen ho hq => ⟨fun hv hh => ?_, ?_⟩,
    fun s h => ?_, ?_⟩
  · exact execDecOne_refusedAgain hopen hv hh ho hq
  · exact execDecFinish_refused hopen ho hq
  · refine (rawBytes_acts s h).imp fun v hm => ?_
    rw [hm]
    exact onRawByte_eq v h.1
  · rintro v s q b d hv hb hd hh ho ha hc - rfl
    exact ⟨exec_storedByte_accepted hv hb hd hh ho ha hc, exec_storedByte_refused hv hb hd hh ho ha hc⟩

/-- Settles O51: the field's check as arithmetic on its value, and the four bytes by eight bits each. -/
theorem rawLengthIsChecked : Obligations.RawLengthIsChecked := by
  refine ⟨fun s h => (rawLength_acts s h).imp fun v hm => ?_, fun v s k => exec_rawLength_pending, ?_⟩
  · rw [hm]
    refine ⟨fun hne => onRawLength_corrupt _ hne, fun heq hn => ?_, fun heq hz => ?_⟩
    · rw [onRawLength_ok _ heq]
      simp only [hn, if_false, false_and]
      rfl
    · rw [onRawLength_ok _ heq]
      simp only [hz, if_true, true_and]
      rfl
  · rintro v s len nlen hv rfl rfl hd hh ho hc ha
    exact ⟨exec_rawLength_corrupt hv hd hh ho hc ha, exec_rawLength_ok hv hd hh ho hc ha⟩

/-- Settles O50: the transition by block type, and the first byte by its three header bits and the five after them. -/
theorem headerByteSelectsTheBlock : Obligations.HeaderByteSelectsTheBlock := by
  refine ⟨fun s h => (readBlockHeader_acts s h).imp ?_, fun s => microStep_setupFixed, ?_⟩
  · rintro v hm d rfl
    rw [hm]
    exact ⟨onBlockHeader_stored _, onBlockHeader_fixed _, onBlockHeader_dynamic _, onBlockHeader_reserved _⟩
  · intro v s b hv hb hd hh ho ha hc
    exact ⟨exec_firstByte_stored hv hb hd hh ho ha hc, exec_firstByte_fixed hv hb hd hh ho ha hc,
      exec_firstByte_dynamic hv hb hd hh ho ha hc, exec_firstByte_reserved hv hb hd hh ho ha hc⟩

end Sys2Proof.Proofs

/-! SUPPORT. The command word by its fields (30_encoding.md R81 to R83), the rows of the opcode map by what they build (R87),
and one law for each decode check (R96). -/

namespace Sys2Proof

/-! ## A word by its fields (R81) -/

theorem append_fields (w : Word) : ((rsvOf w ++ idxOf w) ++ tselOf w) ++ opcOf w = w := by
  unfold rsvOf idxOf tselOf opcOf
  rw [BitVec.extractLsb'_append_extractLsb'_eq_extractLsb' (show 26 = 10 + 16 from rfl),
    BitVec.extractLsb'_append_extractLsb'_eq_extractLsb' (show 10 = 8 + 2 from rfl),
    BitVec.extractLsb'_append_extractLsb'_eq_extractLsb' (show 8 = 0 + 8 from rfl)]
  exact BitVec.extractLsb'_eq_self

theorem word_eq_iff {v w : Word} :
    v = w ↔ rsvOf v = rsvOf w ∧ opcOf v = opcOf w ∧ tselOf v = tselOf w ∧ idxOf v = idxOf w := by
  refine ⟨by rintro rfl; exact ⟨rfl, rfl, rfl, rfl⟩, ?_⟩
  rintro ⟨hr, ho, ht, hi⟩
  rw [← append_fields v, hr, ho, ht, hi, append_fields]

@[simp] theorem rsvOf_and (v w : Word) : rsvOf (v &&& w) = rsvOf v &&& rsvOf w := BitVec.extractLsb'_and
@[simp] theorem opcOf_and (v w : Word) : opcOf (v &&& w) = opcOf v &&& opcOf w := BitVec.extractLsb'_and
@[simp] theorem tselOf_and (v w : Word) : tselOf (v &&& w) = tselOf v &&& tselOf w := BitVec.extractLsb'_and
@[simp] theorem idxOf_and (v w : Word) : idxOf (v &&& w) = idxOf v &&& idxOf w := BitVec.extractLsb'_and

theorem setWidth_eq_packCmd (o : BitVec 8) : o.setWidth 32 = packCmd o 0 0 := BitVec.setWidth_eq_append (by decide)

theorem rsvOf_eq_zero_iff (w : Word) : rsvOf w = 0 ↔ w.toNat / 2 ^ 26 = 0 := by
  have hw := w.isLt
  have hr : (rsvOf w).toNat = w.toNat / 2 ^ 26 % 2 ^ 6 := by
    rw [rsvOf, BitVec.extractLsb'_toNat, Nat.shiftRight_eq_div_pow]
  rw [← BitVec.toNat_inj, hr, show (0 : BitVec 6).toNat = 0 from rfl]
  omega

theorem opcOf_toNat (w : Word) : (opcOf w).toNat = w.toNat % 256 := BitVec.extractLsb'_toNat 0 8 w

/-! ## The fields of an encoded command -/

@[simp] theorem rsvOf_encodeCmd (i : Instr) : rsvOf (encodeCmd i) = 0 := rsvOf_packCmd _ _ _
@[simp] theorem opcOf_encodeCmd (i : Instr) : opcOf (encodeCmd i) = i.opc := opcOf_packCmd _ _ _
@[simp] theorem tselOf_encodeCmd (i : Instr) : tselOf (encodeCmd i) = i.tselField := tselOf_packCmd _ _ _
@[simp] theorem idxOf_encodeCmd (i : Instr) : idxOf (encodeCmd i) = i.idxField := idxOf_packCmd _ _ _

theorem Slot.tsel_ne_three (t : Slot) : t.tsel ≠ 3 := by cases t <;> decide

theorem exists_slot_of_ne_three {x : BitVec 2} (h : x ≠ 3) : ∃ t : Slot, t.tsel = x := by
  cases hx : slotOf x with
  | none => exact absurd ((slotOf_none x).1 hx) h
  | some t => exact ⟨t, slotOf_some hx⟩

/-! ## Formats (R83) -/

/-- The check of R89 as three equations. -/
theorem Format.unusedNonzero_eq_false_iff (f : Format) (cmd data : Word) :
    f.unusedNonzero cmd data = false ↔ (f.usesTsel = false → tselOf cmd = 0) ∧ (f.usesIdx = false → idxOf cmd = 0)
      ∧ (f.usesData = false → data = 0) := by
  simp only [Format.unusedNonzero, Bool.or_eq_false_iff, Bool.and_eq_false_imp, Bool.not_eq_true', bne_eq_false_iff_eq,
    and_assoc]

theorem Format.rsvOf_mask (f : Format) : rsvOf f.mask = BitVec.allOnes 6 := by cases f <;> rfl
theorem Format.opcOf_mask (f : Format) : opcOf f.mask = BitVec.allOnes 8 := by cases f <;> rfl

theorem Format.tselOf_mask (f : Format) : tselOf f.mask = if f.usesTsel then 0 else BitVec.allOnes 2 := by cases f <;> rfl
theorem Format.idxOf_mask (f : Format) : idxOf f.mask = if f.usesIdx then 0 else BitVec.allOnes 16 := by cases f <;> rfl

theorem and_ite_allOnes_eq_zero_iff {n : Nat} (b : Bool) (x : BitVec n) :
    x &&& (if b then 0 else BitVec.allOnes n) = 0 ↔ (b = false → x = 0) := by
  cases b <;> simp

/-- The mask covers RSV, OPC and every field the format does not use. -/
theorem Format.and_mask_eq_iff (f : Format) (cmd : Word) (o : BitVec 8) :
    cmd &&& f.mask = o.zeroExtend 32 ↔
      rsvOf cmd = 0 ∧ opcOf cmd = o ∧ (f.usesTsel = false → tselOf cmd = 0) ∧ (f.usesIdx = false → idxOf cmd = 0) := by
  rw [BitVec.zeroExtend_eq_setWidth, setWidth_eq_packCmd, word_eq_iff]
  simp only [rsvOf_and, opcOf_and, tselOf_and, idxOf_and, f.rsvOf_mask, f.opcOf_mask, f.tselOf_mask, f.idxOf_mask,
    BitVec.and_allOnes, rsvOf_packCmd, opcOf_packCmd, tselOf_packCmd, idxOf_packCmd, and_ite_allOnes_eq_zero_iff]

/-! ## The rows by what they build (R87) -/

/-- A row builds commands some word stands for, each with the row's opcode and, in every field the format uses, the operand
it was built from; the slot counts in a format with TSEL alone. -/
structure Row.Lawful (r : Row) : Prop where
  build_wellFormed : ∀ t i d, (r.build t i d).wellFormed = true
  build_opc : ∀ t i d, (r.build t i d).opc = r.opc
  build_tselField : ∀ t i d, (r.build t i d).tselField = if r.format.usesTsel then t.tsel else 0
  build_idxField : ∀ t i d, (r.build t i d).idxField = if r.format.usesIdx then i else 0
  build_dataField : ∀ t i d, (r.build t i d).dataField = if r.format.usesData then d else 0
  build_slot : ∀ t i d, r.build (if r.format.usesTsel then t else .ll) i d = r.build t i d

theorem idxFits_toNat (i : BitVec 16) : idxFits i.toNat = true := decide_eq_true i.isLt

theorem Row.lawful {r : Row} (hr : r ∈ opcodeRows) : r.Lawful := by
  simp only [opcodeRows, htgRows, lzmRows, dbdRows, List.cons_append, List.nil_append, List.mem_cons, List.not_mem_nil,
    or_false] at hr
  rcases hr with rfl | rfl | rfl | rfl | rfl | rfl | rfl | rfl | rfl | rfl | rfl | rfl | rfl | rfl | rfl | rfl | rfl | rfl
    | rfl | rfl | rfl | rfl | rfl <;>
  exact ⟨by simp [Instr.wellFormed, idxFits_toNat], fun _ _ _ => rfl, fun _ _ _ => rfl, by simp [Instr.idxField, Format.usesIdx],
    fun _ _ _ => rfl, fun _ _ _ => rfl⟩

theorem rowOf_eq_none_of_reserved {o : BitVec 8}
    (h : 0x0D ≤ o.toNat ∧ o.toNat ≤ 0x0F ∨ 0x15 ≤ o.toNat ∧ o.toNat ≤ 0x1F ∨ 0x25 ≤ o.toNat) : rowOf o = none := by
  have hfree : ∀ r ∈ opcodeRows, ¬(0x0D ≤ r.opc.toNat ∧ r.opc.toNat ≤ 0x0F
      ∨ 0x15 ≤ r.opc.toNat ∧ r.opc.toNat ≤ 0x1F ∨ 0x25 ≤ r.opc.toNat) := by decide
  cases hr : rowOf o with
  | none => rfl
  | some r =>
    obtain ⟨hm, rfl⟩ := rowOf_some hr
    exact absurd h (hfree r hm)

/-- Every command stands in its row of the map. -/
theorem opcodeRow : ∀ i : Instr, Laws.OpcodeRow.Statement i
  | .nop => Laws.OpcodeRow.nop
  | .htResize t n => Laws.OpcodeRow.htResize t n
  | .htSetlen t i len => Laws.OpcodeRow.htSetlen t i len
  | .htGetent t i => Laws.OpcodeRow.htGetent t i
  | .htSize t => Laws.OpcodeRow.htSize t
  | .htAssign t => Laws.OpcodeRow.htAssign t
  | .htHist t m => Laws.OpcodeRow.htHist t m
  | .htLookup t len bits => Laws.OpcodeRow.htLookup t len bits
  | .htLoadfixed t => Laws.OpcodeRow.htLoadfixed t
  | .histClear => Laws.OpcodeRow.histClear
  | .histSet i f => Laws.OpcodeRow.histSet i f
  | .histInc i => Laws.OpcodeRow.histInc i
  | .histGet i => Laws.OpcodeRow.histGet i
  | .hrConfig wb => Laws.OpcodeRow.hrConfig wb
  | .hrRecord b => Laws.OpcodeRow.hrRecord b
  | .hrRecskip b => Laws.OpcodeRow.hrRecskip b
  | .hrGet d => Laws.OpcodeRow.hrGet d
  | .mhFind x h => Laws.OpcodeRow.mhFind x h
  | .decStart p => Laws.OpcodeRow.decStart p
  | .decDict v => Laws.OpcodeRow.decDict v
  | .decOne v => Laws.OpcodeRow.decOne v
  | .decFinish => Laws.OpcodeRow.decFinish
  | .decStatus => Laws.OpcodeRow.decStatus

/-! ## The decode checks (R96), each on a word that passes the ones before it -/

section
variable {cmd data : Word}

theorem decode_reservedBits (h : rsvOf cmd ≠ 0) : decode cmd data = .error .reservedBits := if_pos h

theorem decode_reservedOpcode (h0 : rsvOf cmd = 0) (hr : rowOf (opcOf cmd) = none) :
    decode cmd data = .error .reservedOpcode := by
  simp [decode, h0, hr]

theorem decode_unusedField {r : Row} (hr : r ∈ opcodeRows) (h0 : rsvOf cmd = 0) (ho : opcOf cmd = r.opc)
    (hu : r.format.unusedNonzero cmd data = true) : decode cmd data = .error .unusedField := by
  simp [decode, h0, ho, rowOf_of_mem r hr, hu]

theorem decode_badTableSelect {r : Row} (hr : r ∈ opcodeRows) (h0 : rsvOf cmd = 0) (ho : opcOf cmd = r.opc)
    (hu : r.format.unusedNonzero cmd data = false) (hf : r.format.usesTsel = true) (ht : tselOf cmd = 3) :
    decode cmd data = .error .badTableSelect := by
  simp [decode, h0, ho, rowOf_of_mem r hr, hu, hf, (slotOf_none _).2 ht]

/-- `decode_of_row` with the slot named by TSEL, or any slot where the format does not use it. -/
theorem decode_of_row_slot {r : Row} (hr : r ∈ opcodeRows) (h0 : rsvOf cmd = 0) (ho : opcOf cmd = r.opc)
    (hu : r.format.unusedNonzero cmd data = false) {t : Slot} (ht : r.format.usesTsel = true → t.tsel = tselOf cmd) :
    decode cmd data = .ok (r.build t (idxOf cmd) data) := by
  rw [decode_of_row hr h0 ho hu (t := t) fun hf => by rw [← ht hf, slotOf_tsel], (Row.lawful hr).build_slot]

end

theorem decode_encodeCmd {i : Instr} (hw : i.wellFormed = true) : decode (encodeCmd i) i.dataField = .ok i := by
  obtain ⟨r, hr, ho, hts, hix, hda, hb⟩ := opcodeRow i
  obtain ⟨t, ht, hbuild⟩ := hb hw
  have hu : r.format.unusedNonzero (encodeCmd i) i.dataField = false :=
    (r.format.unusedNonzero_eq_false_iff _ _).2 ⟨by simpa using hts, by simpa using hix, hda⟩
  rw [decode_of_row_slot hr (rsvOf_encodeCmd i) (by rw [opcOf_encodeCmd, ho]) hu (t := t) (by simpa using ht), idxOf_encodeCmd,
    hbuild]

/-- A field that is 0 where the format does not use it. -/
theorem ite_unused_eq {n : Nat} {b : Bool} {x : BitVec n} (h : b = false → x = 0) : (if b then x else 0) = x := by
  cases b with
  | true => rfl
  | false => exact (h rfl).symm

theorem wellFormed_of_decode {cmd data : Word} {i : Instr} (h : decode cmd data = .ok i) : i.wellFormed = true := by
  obtain ⟨-, r, hr, -, -, t, -, rfl⟩ := decode_ok h
  exact (Row.lawful hr).build_wellFormed t _ _

theorem encode_of_decode {cmd data : Word} {i : Instr} (h : decode cmd data = .ok i) : encode i = (cmd, data) := by
  obtain ⟨h0, r, hr, ho, hu, t, ht, rfl⟩ := decode_ok h
  obtain ⟨hts, hix, hda⟩ := (r.format.unusedNonzero_eq_false_iff _ _).1 hu
  have hL := Row.lawful hr
  have hslot : (if r.format.usesTsel then t.tsel else 0) = tselOf cmd := by
    cases hf : r.format.usesTsel with
    | true => exact slotOf_some (ht hf)
    | false => exact (hts hf).symm
  rw [encode, encodeCmd, hL.build_opc, hL.build_tselField, hL.build_idxField, hL.build_dataField, hslot, ite_unused_eq hix,
    ite_unused_eq hda, ho, packCmd_fields h0]

end Sys2Proof

/-! SUPPORT. The statements of 30_encoding.md: decode against encode, the rows by their masks, the checks in order, and the
write protocol. -/

namespace Sys2Proof.Proofs
open Sys2Proof.Machine

/-- Settles O2, by the row of the command and its fields after packing. -/
theorem encodedCommandDecodes : Obligations.EncodedCommandDecodes := by
  intro i hw
  have hd := decode_encodeCmd hw
  refine ⟨hd, ?_⟩
  rw [decodeWord, wordOf_encodeWord_cmd, wordOf_encodeWord_data, hd]

/-- Settles O3: the row that accepts a word builds a command with the word's own fields. -/
theorem decodedCommandEncodes : Obligations.DecodedCommandEncodes := fun _ _ _ h =>
  ⟨wellFormed_of_decode h, encode_of_decode h⟩

/-- Settles O4: the mask covers exactly the fields a decode checks, and a word that decodes is the encoding of its command. -/
theorem rowMatchesByMask : Obligations.RowMatchesByMask := by
  intro r hr cmd data
  rw [r.format.and_mask_eq_iff]
  constructor
  · rintro ⟨⟨h0, ho, hts, hix⟩, hda, h3⟩
    have hslot : ∃ t : Slot, r.format.usesTsel = true → t.tsel = tselOf cmd := by
      by_cases hf : r.format.usesTsel = true
      · exact (exists_slot_of_ne_three (h3 hf)).imp fun _ ht _ => ht
      · exact ⟨.ll, fun h => absurd h hf⟩
    obtain ⟨t, ht⟩ := hslot
    exact ⟨t, ht, decode_of_row_slot hr h0 ho ((r.format.unusedNonzero_eq_false_iff _ _).2 ⟨hts, hix, hda⟩) ht⟩
  · rintro ⟨t, ht, hd⟩
    have hL := Row.lawful hr
    obtain ⟨hc, hdat⟩ := Prod.mk.inj (encode_of_decode hd)
    rw [hL.build_dataField] at hdat
    refine ⟨⟨?_, ?_, fun hf => ?_, fun hf => ?_⟩, fun hf => ?_, fun hf => ?_⟩
    · rw [← hc, rsvOf_encodeCmd]
    · rw [← hc, opcOf_encodeCmd, hL.build_opc]
    · rw [← hc, tselOf_encodeCmd, hL.build_tselField, hf]; rfl
    · rw [← hc, idxOf_encodeCmd, hL.build_idxField, hf]; rfl
    · rw [← hdat, hf]; rfl
    · rw [← ht hf]; exact t.tsel_ne_three

/-- Settles O5, check by check, and by the meaning of a CMD write whose word is rejected. -/
theorem malformedCommandEndsBadParam : Obligations.MalformedCommandEndsBadParam := by
  refine ⟨fun cmd data => ⟨fun h => ?_, fun h0 h => ?_, fun r hr h0 ho h => ?_, fun r hr h0 ho hf ht hix hda => ?_⟩, ?_⟩
  · exact decode_reservedBits fun h0 => h ((rsvOf_eq_zero_iff cmd).1 h0)
  · rw [← opcOf_toNat] at h
    exact decode_reservedOpcode ((rsvOf_eq_zero_iff cmd).2 h0) (rowOf_eq_none_of_reserved h)
  · refine decode_unusedField hr ((rsvOf_eq_zero_iff cmd).2 h0) ho (Bool.of_not_eq_false fun hu => ?_)
    obtain ⟨hts, hix, hda⟩ := (r.format.unusedNonzero_eq_false_iff cmd data).1 hu
    rcases h with ⟨hf, hne⟩ | ⟨hf, hne⟩ | ⟨hf, hne⟩
    · exact hne (hts hf)
    · exact hne (hix hf)
    · exact hne (hda hf)
  · have hu := (r.format.unusedNonzero_eq_false_iff cmd data).2 ⟨fun h => absurd (hf.symm.trans h) nofun, hix, hda⟩
    exact decode_badTableSelect hr ((rsvOf_eq_zero_iff cmd).2 h0) ho hu hf ht
  · intro s w rest e hh he
    calc step s = access (.write 0x00 4 w) (s.setHost rest) := step_write hh
      _ = issue w (s.setHost rest) := access_cmd w _
      _ = .next (raise .badParam { s.setHost rest with cmd := w }) := issue_error he
      _ = .next { s.setHost rest with cmd := w, status := 0x13, value := 0 } := rfl

/-- Settles O7: the first write stores DATA, and the second issues the word, which decodes to the command. -/
theorem writingDataThenCmdIssuesTheCommand : Obligations.WritingDataThenCmdIssuesTheCommand := by
  intro s i rest hw hh
  refine ⟨{ s.setHost (.write 0x00 4 (encodeCmd i) :: rest) with data := i.dataField }, ?_, ?_⟩
  · exact (step_write hh).trans (access_data _ _)
  · exact stepRunsDecodedCommand _ (encodeCmd i) rest i rfl (decode_encodeCmd hw)

/-- Settles O1, word by word. -/
theorem sampleWordsDecode : Obligations.SampleWordsDecode := by
  unfold Obligations.SampleWordsDecode
  decide

end Sys2Proof.Proofs

/-! SUPPORT. Canonical (40_huffman.md R113, R114): the Kraft sum behind its test, and the pattern it gives each entry. -/

namespace Sys2Proof.Machine

/-! ## The Kraft sum, length by length -/

/-- The Kraft sum over lengths 1 to `n` in units of 2^(-n). -/
def kraftSumTo (lens : List Nat) (n : Nat) : Nat := (lens.map fun l => if 1 ≤ l ∧ l ≤ n then 2 ^ (n - l) else 0).sum

theorem kraftSumTo_zero (lens : List Nat) : kraftSumTo lens 0 = 0 := by
  refine List.sum_eq_zero fun x hx => ?_
  obtain ⟨l, -, rfl⟩ := List.mem_map.1 hx
  exact if_neg (by omega)

theorem kraftSumTo_succ (lens : List Nat) (n : Nat) :
    kraftSumTo lens (n + 1) = 2 * kraftSumTo lens n + codeCount lens (n + 1) := by
  unfold kraftSumTo codeCount
  rw [if_neg n.succ_ne_zero]
  induction lens with
  | nil => rfl
  | cons l ls ih =>
    rw [List.map_cons, List.map_cons, List.sum_cons, List.sum_cons, List.countP_cons, ih]
    rcases Nat.lt_trichotomy l (n + 1) with h | rfl | h
    · by_cases h1 : 1 ≤ l
      · rw [if_pos (by omega), if_pos (by omega), if_neg (by simp; omega), show n + 1 - l = n - l + 1 by omega, Nat.pow_succ]
        omega
      · rw [if_neg (by omega), if_neg (by omega), if_neg (by simp; omega)]
        omega
    · simp
      omega
    · rw [if_neg (by omega), if_neg (by omega), if_neg (by simp; omega)]
      omega

/-- The code after the last one of length `n` is the Kraft sum. -/
theorem firstCode_add_codeCount (lens : List Nat) (n : Nat) :
    firstCode lens n + codeCount lens n = kraftSumTo lens n := by
  induction n with
  | zero => rw [kraftSumTo_zero]; rfl
  | succ n ih => rw [kraftSumTo_succ, firstCode, ih, Nat.mul_comm]

theorem firstCode_succ (lens : List Nat) (n : Nat) : firstCode lens (n + 1) = 2 * kraftSumTo lens n := by
  rw [firstCode, firstCode_add_codeCount, Nat.mul_comm]

theorem kraftSumTo_mul_le (lens : List Nat) (n k : Nat) : kraftSumTo lens n * 2 ^ k ≤ kraftSumTo lens (n + k) := by
  induction k with
  | zero => simp
  | succ k ih => rw [← Nat.add_assoc, kraftSumTo_succ, Nat.pow_succ, ← Nat.mul_assoc]; omega

/-- No code of a greater length begins before the last one of length `n` ends. -/
theorem kraftSumTo_mul_le_firstCode (lens : List Nat) {n k : Nat} (h : n < k) :
    kraftSumTo lens n * 2 ^ (k - n) ≤ firstCode lens k := by
  obtain ⟨d, rfl⟩ := Nat.exists_eq_add_of_lt h
  rw [firstCode_succ, show n + d + 1 - n = d + 1 by omega, Nat.pow_succ, ← Nat.mul_assoc]
  have := kraftSumTo_mul_le lens n d
  omega

/-! ## The two tests -/

/-- The Kraft test fails at some length exactly when it fails at 15. -/
theorem overSubscribed_iff (lens : List Nat) : overSubscribed lens = true ↔ 2 ^ 15 < kraftSum15 lens := by
  simp only [overSubscribed, List.any_eq_true, List.mem_range'_1, decide_eq_true_eq, firstCode_add_codeCount]
  constructor
  · rintro ⟨l, hl, hgt⟩
    have hle : kraftSumTo lens l * 2 ^ (15 - l) ≤ kraftSumTo lens 15 := by
      simpa [show l + (15 - l) = 15 by omega] using kraftSumTo_mul_le lens l (15 - l)
    calc 2 ^ 15 = 2 ^ l * 2 ^ (15 - l) := by rw [← Nat.pow_add, show l + (15 - l) = 15 by omega]
      _ < kraftSumTo lens l * 2 ^ (15 - l) := Nat.mul_lt_mul_of_pos_right hgt (by positivity)
      _ ≤ kraftSum15 lens := hle
  · exact fun h => ⟨15, by omega, h⟩

theorem hasLongLength_iff (lens : List Nat) : hasLongLength lens = true ↔ ∃ l ∈ lens, 15 < l := by
  simp [hasLongLength]

theorem kraftSum15_le_iff (lens : List Nat) : kraftSum15 lens ≤ 2 ^ 15 ↔ overSubscribed lens = false := by
  rw [← not_lt, ← overSubscribed_iff, Bool.not_eq_true]

theorem forall_le_fifteen_iff (lens : List Nat) : (∀ l ∈ lens, l ≤ 15) ↔ hasLongLength lens = false := by
  simp [hasLongLength]

/-! ## The patterns -/

@[simp] theorem firstCodes_length (lens : List Nat) : (firstCodes lens).length = 16 := by simp [firstCodes]

theorem firstCodes_getD (lens : List Nat) {l : Nat} (h : l < 16) : (firstCodes lens).getD l 0 = firstCode lens l := by
  simp [firstCodes, h]

/-- A pattern given out is `next` of its length, stepped once for each earlier entry of that length. -/
theorem assignCodes_getElem? {next lens : List Nat} (hn : ∀ l ∈ lens, l < next.length) {i l : Nat}
    (hi : lens[i]? = some l) :
    (assignCodes next lens)[i]? = some (if l = 0 then 0 else BitVec.ofNat 16 (next.getD l 0 + earlierOfLength lens i l)) := by
  induction lens generalizing next i with
  | nil => cases hi
  | cons x xs ih =>
    obtain ⟨hx, hxs⟩ := List.forall_mem_cons.1 hn
    cases i with
    | zero =>
      obtain rfl : x = l := by simpa using hi
      unfold assignCodes
      split
      case isTrue h => simp
      case isFalse h => simp [earlierOfLength]
    | succ i =>
      have hi : xs[i]? = some l := hi
      unfold assignCodes
      by_cases h0 : x = 0
      · rw [if_pos h0, List.getElem?_cons_succ, ih hxs hi]
        by_cases hl : l = 0
        · rw [if_pos hl, if_pos hl]
        · simp [earlierOfLength, h0, Ne.symm hl]
      · rw [if_neg h0, List.getElem?_cons_succ, ih (by simpa using hxs) hi]
        by_cases hxl : x = l
        · subst hxl
          simp [earlierOfLength, h0, hx, Nat.add_assoc, Nat.add_comm 1]
        · simp [earlierOfLength, hxl]

theorem earlierOfLength_succ {lens : List Nat} {i l : Nat} (hi : lens[i]? = some l) :
    earlierOfLength lens (i + 1) l = earlierOfLength lens i l + 1 := by
  simp [earlierOfLength, List.take_add_one, hi]

/-- Fewer entries of a length come before entry `i` than there are. -/
theorem earlierOfLength_lt {lens : List Nat} {i l : Nat} (hi : lens[i]? = some l) (hl : 0 < l) :
    earlierOfLength lens i l < codeCount lens l := by
  rw [← Nat.succ_le_iff, Nat.succ_eq_add_one, ← earlierOfLength_succ hi, codeCount, if_neg hl.ne']
  exact (List.take_sublist _ _).countP_le

/-- Two entries of a length have different numbers of earlier entries of it. -/
theorem earlierOfLength_lt_of_lt {lens : List Nat} {i j l : Nat} (hi : lens[i]? = some l) (hij : i < j) :
    earlierOfLength lens i l < earlierOfLength lens j l := by
  rw [← Nat.succ_le_iff, Nat.succ_eq_add_one, ← earlierOfLength_succ hi]
  exact (List.take_sublist_take_left hij).countP_le

/-- After a successful Canonical an entry of length `l > 0` has the first code of `l` plus its number among the entries of
that length, all of them within `l` bits. -/
theorem canonical_pattern {lens : List Nat} {ps : List (BitVec 16)} (h : canonical lens = .ok ps) {i l : Nat}
    (hi : lens[i]? = some l) :
    (l = 0 → ps[i]? = some 0) ∧
      (0 < l → ∃ p : BitVec 16, ps[i]? = some p ∧ p.toNat = firstCode lens l + earlierOfLength lens i l ∧ p.toNat < 2 ^ l) := by
  obtain ⟨hover, hlong, rfl⟩ := canonical_ok h
  have hlen := (forall_le_fifteen_iff lens).2 hlong
  have hnext : ∀ x ∈ lens, x < (firstCodes lens).length := fun x hx => by
    have := hlen x hx
    rw [firstCodes_length]
    omega
  have hl := hlen l (List.mem_of_getElem? hi)
  rw [assignCodes_getElem? hnext hi]
  refine ⟨fun h0 => by rw [if_pos h0], fun hpos => ⟨_, by rw [if_neg hpos.ne'], ?_⟩⟩
  have hbound : firstCode lens l + earlierOfLength lens i l < 2 ^ l := by
    have hkraft : kraftSumTo lens 15 ≤ 2 ^ 15 := (kraftSum15_le_iff lens).2 hover
    have hmul := kraftSumTo_mul_le lens l (15 - l)
    rw [show l + (15 - l) = 15 by omega] at hmul
    have hle : kraftSumTo lens l ≤ 2 ^ l := by
      refine Nat.le_of_mul_le_mul_right (hmul.trans (hkraft.trans_eq ?_)) (Nat.two_pow_pos (15 - l))
      rw [← Nat.pow_add, show l + (15 - l) = 15 by omega]
    have := earlierOfLength_lt hi hpos
    have := firstCode_add_codeCount lens l
    omega
  have hpow : 2 ^ l < 2 ^ 16 := Nat.pow_lt_pow_right (by omega) (by omega)
  rw [firstCodes_getD lens (by omega), BitVec.toNat_ofNat, Nat.mod_eq_of_lt (by omega)]
  exact ⟨rfl, hbound⟩

/-- R123, by the numbers of the two codes: those of the shorter length end before the longer one's begin. -/
theorem code_ne_of_ne {lens : List Nat} {i j li lj : Nat} (hij : i ≠ j) (hi : lens[i]? = some li) (hj : lens[j]? = some lj)
    (hpos : 0 < li) (hle : li ≤ lj) :
    (firstCode lens lj + earlierOfLength lens j lj) / 2 ^ (lj - li) ≠ firstCode lens li + earlierOfLength lens i li := by
  rcases Nat.lt_or_eq_of_le hle with hlt | rfl
  · have hend : kraftSumTo lens li ≤ (firstCode lens lj + earlierOfLength lens j lj) / 2 ^ (lj - li) :=
      (Nat.le_div_iff_mul_le (Nat.two_pow_pos _)).2 ((kraftSumTo_mul_le_firstCode lens hlt).trans (Nat.le_add_right _ _))
    have := earlierOfLength_lt hi hpos
    have := firstCode_add_codeCount lens li
    omega
  · rw [Nat.sub_self, Nat.pow_zero, Nat.div_one]
    rcases Nat.lt_or_gt_of_ne hij with h | h
    · have := earlierOfLength_lt_of_lt hi h
      omega
    · have := earlierOfLength_lt_of_lt hj h
      omega

end Sys2Proof.Machine

/-! SUPPORT. The fixed tables (40_huffman.md R120 to R122), band by band. -/

namespace Sys2Proof.Machine

theorem fixedLl_getElem? {i : Nat} (h : i < 288) :
    fixedLl[i]? = some ⟨BitVec.ofNat 5 (fixedLlLen i), BitVec.ofNat 16 (fixedLlPat i), BitVec.ofNat 9 i⟩ := by
  simp [fixedLl, h]

theorem fixedDist_getElem? {i : Nat} (h : i < 32) : fixedDist[i]? = some ⟨5, BitVec.ofNat 16 i, BitVec.ofNat 9 i⟩ := by
  simp [fixedDist, h]

/-! ## The length and the pattern of each band (R120) -/

theorem fixedLl_band_low {i : Nat} (h : i < 144) : fixedLlLen i = 8 ∧ fixedLlPat i = 0x30 + i :=
  ⟨if_pos (by omega), if_pos (by omega)⟩

theorem fixedLl_band_nine {i : Nat} (h : i < 112) : fixedLlLen (144 + i) = 9 ∧ fixedLlPat (144 + i) = 0x190 + i := by
  simp only [fixedLlLen, fixedLlPat]
  rw [if_neg (by omega), if_pos (by omega), if_neg (by omega), if_pos (by omega)]
  omega

theorem fixedLl_band_seven {i : Nat} (h : i < 24) : fixedLlLen (256 + i) = 7 ∧ fixedLlPat (256 + i) = i := by
  simp only [fixedLlLen, fixedLlPat]
  rw [if_neg (by omega), if_neg (by omega), if_pos (by omega), if_neg (by omega), if_neg (by omega), if_pos (by omega)]
  omega

theorem fixedLl_band_high (i : Nat) : fixedLlLen (280 + i) = 8 ∧ fixedLlPat (280 + i) = 0xC0 + i := by
  simp only [fixedLlLen, fixedLlPat]
  rw [if_neg (by omega), if_neg (by omega), if_neg (by omega), if_neg (by omega), if_neg (by omega), if_neg (by omega)]
  omega

/-- `n` entries from index `k` up, of length `l` and with consecutive patterns from `p`. -/
def fixedBand (k n l p : Nat) : Table :=
  (List.range n).map fun i => ⟨BitVec.ofNat 5 l, BitVec.ofNat 16 (p + i), BitVec.ofNat 9 (k + i)⟩

/-- `n` consecutive patterns from `p`. -/
def consecutivePats (p n : Nat) : List (BitVec 16) := (List.range n).map fun i => BitVec.ofNat 16 (p + i)

theorem lengthsOf_fixedBand (k n p : Nat) {l : Nat} (hl : l < 32) : lengthsOf (fixedBand k n l p) = List.replicate n l := by
  simp [lengthsOf, fixedBand, Function.comp_def, List.map_const', Nat.mod_eq_of_lt hl]

theorem lengthsOf_append (es es' : Table) : lengthsOf (es ++ es') = lengthsOf es ++ lengthsOf es' := List.map_append

theorem pats_fixedBand (k n l p : Nat) : (fixedBand k n l p).map (fun e => e.pat) = consecutivePats p n := by
  simp [fixedBand, consecutivePats, Function.comp_def]

theorem map_range_add {α : Type} (g : Nat → α) (n m : Nat) :
    (List.range (n + m)).map g = (List.range n).map g ++ (List.range m).map fun i => g (n + i) := by
  rw [List.range_add, List.map_append, List.map_map]
  rfl

theorem fixedLl_eq_bands :
    fixedLl = fixedBand 0 144 8 0x30 ++ (fixedBand 144 112 9 0x190 ++ (fixedBand 256 24 7 0 ++ fixedBand 280 8 8 0xC0)) := by
  have split (g : Nat → Entry) : (List.range 288).map g = (List.range 144).map g ++ ((List.range 112).map (fun i => g (144 + i))
      ++ ((List.range 24).map (fun i => g (256 + i)) ++ (List.range 8).map fun i => g (280 + i))) := by
    refine (map_range_add g 144 144).trans (congrArg (List.map g (List.range 144) ++ ·) ?_)
    rw [map_range_add _ 112 32, map_range_add _ 24 8]
    simp only [← Nat.add_assoc]
  rw [fixedLl, split]
  refine congrArg₂ (· ++ ·) (List.map_congr_left fun i hi => ?_) (congrArg₂ (· ++ ·) (List.map_congr_left fun i hi => ?_)
    (congrArg₂ (· ++ ·) (List.map_congr_left fun i hi => ?_) (List.map_congr_left fun i hi => ?_)))
  · obtain ⟨hl, hp⟩ := fixedLl_band_low (List.mem_range.1 hi)
    rw [hl, hp, Nat.zero_add]
  · obtain ⟨hl, hp⟩ := fixedLl_band_nine (List.mem_range.1 hi)
    rw [hl, hp]
  · obtain ⟨hl, hp⟩ := fixedLl_band_seven (List.mem_range.1 hi)
    rw [hl, hp, Nat.zero_add]
  · obtain ⟨hl, hp⟩ := fixedLl_band_high i
    rw [hl, hp]

theorem fixedDist_eq_band : fixedDist = fixedBand 0 32 5 0 := by
  simp [fixedDist, fixedBand]

/-! ## Canonical of their lengths (R122) -/

theorem canonical_eq_ok {lens : List Nat} (hk : kraftSum15 lens ≤ 2 ^ 15) (hl : ∀ l ∈ lens, l ≤ 15) :
    canonical lens = .ok (assignCodes (firstCodes lens) lens) := by
  rw [canonical, (kraftSum15_le_iff lens).1 hk, (forall_le_fifteen_iff lens).1 hl]
  rfl

/-- Entries of one length in a row get consecutive patterns. -/
theorem assignCodes_replicate_append {next : List Nat} {l : Nat} (hl : 0 < l) (hn : l < next.length) (n : Nat)
    (ls : List Nat) :
    assignCodes next (List.replicate n l ++ ls) =
      consecutivePats (next.getD l 0) n ++ assignCodes (next.set l (next.getD l 0 + n)) ls := by
  induction n generalizing next with
  | zero => simp [consecutivePats, hn]
  | succ n ih =>
    rw [List.replicate_succ, List.cons_append, assignCodes, if_neg hl.ne', ih (by simpa using hn)]
    simp [consecutivePats, List.range_succ_eq_map, Function.comp_def, hn, Nat.add_comm 1, Nat.add_assoc]

theorem assignCodes_replicate {next : List Nat} {l : Nat} (hl : 0 < l) (hn : l < next.length) (n : Nat) :
    assignCodes next (List.replicate n l) = consecutivePats (next.getD l 0) n := by
  have h := assignCodes_replicate_append hl hn n []
  rwa [List.append_nil, assignCodes, List.append_nil] at h

/-- The lengths of FIXED_LL. -/
def fixedLlLens : List Nat :=
  List.replicate 144 8 ++ (List.replicate 112 9 ++ (List.replicate 24 7 ++ List.replicate 8 8))

theorem lengthsOf_fixedLl : lengthsOf fixedLl = fixedLlLens := by
  simp only [fixedLl_eq_bands, lengthsOf_append, fixedLlLens]
  rw [lengthsOf_fixedBand, lengthsOf_fixedBand, lengthsOf_fixedBand, lengthsOf_fixedBand] <;> omega

theorem codeCount_fixedLlLens (l : Nat) :
    codeCount fixedLlLens l = (if l = 8 then 152 else 0) + (if l = 9 then 112 else 0) + (if l = 7 then 24 else 0) := by
  simp only [codeCount, fixedLlLens, List.countP_append, List.countP_replicate, beq_iff_eq]
  split_ifs <;> omega

theorem firstCode_fixedLlLens :
    firstCode fixedLlLens 7 = 0 ∧ firstCode fixedLlLens 8 = 0x30 ∧ firstCode fixedLlLens 9 = 0x190 := by
  simp [firstCode, codeCount_fixedLlLens]

theorem canonical_fixedLlLens :
    canonical fixedLlLens = .ok (consecutivePats 0x30 144 ++ (consecutivePats 0x190 112 ++
      (consecutivePats 0 24 ++ consecutivePats 0xC0 8))) := by
  have hkraft : kraftSum15 fixedLlLens ≤ 2 ^ 15 := by
    simp only [kraftSum15, fixedLlLens, List.map_append, List.map_replicate, List.sum_append, List.sum_replicate]
    decide
  have hshort : ∀ l ∈ fixedLlLens, l ≤ 15 := fun l hl => by
    simp only [fixedLlLens, List.mem_append, List.mem_replicate] at hl
    omega
  obtain ⟨h7, h8, h9⟩ := firstCode_fixedLlLens
  rw [canonical_eq_ok hkraft hshort]
  rw [← firstCodes_getD _ (by omega)] at h7 h8 h9
  generalize hf : firstCodes fixedLlLens = next at h7 h8 h9
  have hn : next.length = 16 := hf ▸ firstCodes_length _
  rw [fixedLlLens, assignCodes_replicate_append, assignCodes_replicate_append, assignCodes_replicate_append,
    assignCodes_replicate]
  · rw [List.getD_eq_getElem _ _ (by omega)] at h7 h8 h9
    simp [h7, h8, h9, hn]
  all_goals simp [hn]

theorem canonical_fixedLl : canonical (lengthsOf fixedLl) = .ok (fixedLl.map fun e => e.pat) := by
  rw [lengthsOf_fixedLl, canonical_fixedLlLens, fixedLl_eq_bands]
  simp only [List.map_append, pats_fixedBand]

theorem canonical_fixedDist : canonical (lengthsOf fixedDist) = .ok (fixedDist.map fun e => e.pat) := by
  rw [fixedDist_eq_band, lengthsOf_fixedBand 0 32 0 (by omega), pats_fixedBand]
  rw [canonical_eq_ok (by decide) (fun l hl => by simp at hl; omega),
    assignCodes_replicate (by omega) (by rw [firstCodes_length]; omega), firstCodes_getD _ (by omega)]
  rfl

end Sys2Proof.Machine

/-! SUPPORT. Package and merge (40_huffman.md R117): the lists it builds, and the two halves of the package-merge theorem. The
lengths read off a selection cover the width of its items, and any lengths that cover the width of `n` items weigh at least
as much as the first `n`. -/

namespace Sys2Proof.Machine

/-! ## Sums over lists -/

theorem sum_eq_sum_range (l : List Nat) : l.sum = ∑ i ∈ Finset.range l.length, l.getD i 0 := by
  rw [Finset.sum_range, ← Fin.sum_univ_getElem]
  exact Finset.sum_congr rfl fun i _ => by simp

/-- In a rising list no sublist of `n` numbers is lighter than the first `n`. -/
theorem sum_take_length_le {s l : List Nat} (hs : s.Sublist l) (hl : l.Pairwise (· ≤ ·)) :
    (l.take s.length).sum ≤ s.sum := by
  induction hs with
  | slnil => exact le_rfl
  | @cons s l a hs ih =>
    have ih := ih hl.of_cons
    rcases h : s.length with _ | n
    · exact Nat.zero_le _
    · have hn : n < l.length := by have := hs.length_le; omega
      have ha : a ≤ l[n] := List.rel_of_pairwise_cons hl (List.getElem_mem hn)
      rw [h, List.sum_take_succ l n hn] at ih
      rw [List.take_succ_cons, List.sum_cons]
      omega
  | @cons_cons s l a hs ih =>
    have ih := ih hl.of_cons
    simpa using ih

/-! ## Items -/

/-- The total weight of a list of items. -/
def itemsWeight (xs : List Item) : Nat := (xs.map fun x => x.w).sum

/-- The symbols under a list of items, each as often as it occurs. -/
def itemsSymbols (xs : List Item) : List Nat := xs.flatMap fun x => x.syms

/-- The leaf of symbol `i` under the frequencies `f`. -/
def leafOf (f : Nat → Nat) (i : Nat) : Item := ⟨f i, [i]⟩

/-- Items by rising weight. -/
def ByWeight (xs : List Item) : Prop := xs.Pairwise fun x y => x.w ≤ y.w

@[simp] theorem itemsWeight_cons (x : Item) (xs : List Item) : itemsWeight (x :: xs) = x.w + itemsWeight xs := by
  simp [itemsWeight]

@[simp] theorem itemsSymbols_cons (x : Item) (xs : List Item) : itemsSymbols (x :: xs) = x.syms ++ itemsSymbols xs := by
  simp [itemsSymbols]

@[simp] theorem itemsWeight_append (xs ys : List Item) :
    itemsWeight (xs ++ ys) = itemsWeight xs + itemsWeight ys := by simp [itemsWeight]

@[simp] theorem itemsSymbols_append (xs ys : List Item) :
    itemsSymbols (xs ++ ys) = itemsSymbols xs ++ itemsSymbols ys := by simp [itemsSymbols]

@[simp] theorem itemsSymbols_map_leafOf (f : Nat → Nat) (is : List Nat) : itemsSymbols (is.map (leafOf f)) = is := by
  induction is with
  | nil => rfl
  | cons i is ih => exact congrArg (i :: ·) ih

@[simp] theorem itemsWeight_map_leafOf (f : Nat → Nat) (is : List Nat) :
    itemsWeight (is.map (leafOf f)) = (is.map f).sum := by
  simp [itemsWeight, leafOf, Function.comp_def]

theorem itemsSymbols_perm {xs ys : List Item} (h : xs.Perm ys) : (itemsSymbols xs).Perm (itemsSymbols ys) :=
  h.flatMap_right _

theorem itemsWeight_perm {xs ys : List Item} (h : xs.Perm ys) : itemsWeight xs = itemsWeight ys := (h.map _).sum_eq

/-- The first items of a list by weight are its lightest selection. -/
theorem itemsWeight_take_le {xs ys : List Item} {n : Nat} (hx : ByWeight xs) (hy : ys.Subperm xs) (hn : n ≤ ys.length) :
    itemsWeight (xs.take n) ≤ itemsWeight ys := by
  obtain ⟨zs, hz, hs⟩ := hy
  have hrise : (xs.map fun x => x.w).Pairwise (· ≤ ·) := List.pairwise_map.2 hx
  have htake : (xs.take n).Sublist (xs.take zs.length) := List.take_sublist_take_left (hz.length_eq ▸ hn)
  calc itemsWeight (xs.take n) ≤ itemsWeight (xs.take zs.length) :=
        (htake.map _).sum_le_sum fun _ _ => Nat.zero_le _
    _ ≤ itemsWeight zs := by simpa [itemsWeight] using sum_take_length_le (hs.map fun x => x.w) hrise
    _ = itemsWeight ys := itemsWeight_perm hz

/-! ## Merging -/

/-- The stable merge is the library's, by weight. -/
theorem mergeItems_eq_merge (xs ys : List Item) : mergeItems xs ys = xs.merge ys fun x y => decide (x.w ≤ y.w) := by
  induction xs generalizing ys with
  | nil => simp [mergeItems]
  | cons x xs ih =>
    induction ys with
    | nil => simp [mergeItems, mergeLeaf, ih]
    | cons y ys ihy =>
      rw [mergeItems] at ihy
      rw [mergeItems, mergeLeaf, List.cons_merge_cons, ih, ihy]
      simp

theorem mergeItems_perm (xs ys : List Item) : (mergeItems xs ys).Perm (xs ++ ys) :=
  mergeItems_eq_merge xs ys ▸ List.merge_perm_append _

theorem mergeItems_byWeight {xs ys : List Item} (hx : ByWeight xs) (hy : ByWeight ys) : ByWeight (mergeItems xs ys) := by
  have h := List.pairwise_merge (le := fun x y : Item => decide (x.w ≤ y.w)) (by simp; omega) (by simp; omega) xs ys
    (hx.imp decide_eq_true) (hy.imp decide_eq_true)
  rw [← mergeItems_eq_merge] at h
  exact h.imp of_decide_eq_true

theorem mergeItems_nil (xs : List Item) : mergeItems xs [] = xs := by simp [mergeItems_eq_merge]

/-- To insert one item is to merge it in. -/
theorem insertItem_eq_mergeItems (x : Item) (ys : List Item) : insertItem x ys = mergeItems [x] ys := by
  induction ys with
  | nil => rfl
  | cons y ys ih => rw [insertItem, ih]; rfl

/-! ## Packages -/

theorem packages_length : ∀ xs : List Item, (packages xs).length = xs.length / 2
  | [] => rfl
  | [_] => by simp [packages]
  | a :: b :: rest => by
    have ih := packages_length rest
    simp only [packages, List.length_cons, ih]
    omega

/-- A package is made of two items of the list. -/
theorem mem_packages {p : Item} :
    ∀ {xs : List Item}, p ∈ packages xs → ∃ a ∈ xs, ∃ b ∈ xs, p = ⟨a.w + b.w, a.syms ++ b.syms⟩
  | a :: b :: rest, h => by
    rcases List.mem_cons.1 h with rfl | h
    · exact ⟨a, by simp, b, by simp, rfl⟩
    · obtain ⟨c, hc, d, hd, rfl⟩ := mem_packages h
      exact ⟨c, by simp [hc], d, by simp [hd], rfl⟩

theorem packages_byWeight : ∀ {xs : List Item}, ByWeight xs → ByWeight (packages xs)
  | [], _ => List.Pairwise.nil
  | [_], _ => List.Pairwise.nil
  | a :: b :: rest, h => by
    obtain ⟨ha, h⟩ := List.pairwise_cons.1 h
    obtain ⟨hb, hr⟩ := List.pairwise_cons.1 h
    refine List.pairwise_cons.2 ⟨fun p hp => ?_, packages_byWeight hr⟩
    obtain ⟨c, hc, d, hd, rfl⟩ := mem_packages hp
    exact Nat.add_le_add (ha c (by simp [hc])) (hb d hd)

/-- The first packages weigh what the items in them weigh. -/
theorem itemsWeight_take_packages :
    ∀ {xs : List Item} {n : Nat}, 2 * n ≤ xs.length → itemsWeight ((packages xs).take n) = itemsWeight (xs.take (2 * n))
  | _, 0, _ => rfl
  | [_], n + 1, h => by simp at h; omega
  | a :: b :: rest, n + 1, h => by
    have ih := itemsWeight_take_packages (xs := rest) (n := n) (by simp at h; omega)
    rw [Nat.mul_succ, packages]
    simp only [List.take_succ_cons, itemsWeight_cons, ih, Nat.add_assoc]

/-- Any packages hold the symbols of twice as many items. -/
theorem exists_sublist_of_packages :
    ∀ {xs ps : List Item}, ps.Sublist (packages xs) →
      ∃ zs : List Item, zs.Sublist xs ∧ zs.length = 2 * ps.length ∧ itemsSymbols zs = itemsSymbols ps
  | [], _, h => ⟨[], List.nil_sublist _, by simp [List.sublist_nil.1 h], by rw [List.sublist_nil.1 h]⟩
  | [_], _, h => ⟨[], List.nil_sublist _, by simp [List.sublist_nil.1 h], by rw [List.sublist_nil.1 h]⟩
  | a :: b :: rest, _, h => by
    rcases List.sublist_cons_iff.1 h with hr | ⟨qs, rfl, hr⟩
    · obtain ⟨zs, hz, hl, hs⟩ := exists_sublist_of_packages hr
      exact ⟨zs, (hz.cons b).cons a, hl, hs⟩
    · obtain ⟨zs, hz, hl, hs⟩ := exists_sublist_of_packages hr
      refine ⟨a :: b :: zs, (hz.cons_cons b).cons_cons a, by simp [hl]; omega, ?_⟩
      simp only [itemsSymbols_cons, hs, List.append_assoc]

/-! ## The leaves -/

theorem leafItems_byWeight (i : Nat) (fs : List Nat) : ByWeight (leafItems i fs) := by
  induction fs generalizing i with
  | nil => exact List.Pairwise.nil
  | cons f fs ih =>
    unfold leafItems
    split
    · exact ih (i + 1)
    · rw [insertItem_eq_mergeItems]
      exact mergeItems_byWeight (List.pairwise_singleton _ _) (ih (i + 1))

/-- The leaves are those of the symbols with a nonzero frequency, in some order. -/
theorem leafItems_perm {g : Nat → Nat} {i : Nat} {fs : List Nat} (hg : ∀ j < fs.length, g (i + j) = fs.getD j 0) :
    (leafItems i fs).Perm (((List.range' i fs.length).filter fun j => g j != 0).map (leafOf g)) := by
  induction fs generalizing i with
  | nil => exact List.Perm.nil
  | cons f fs ih =>
    have ih := ih (i := i + 1) fun j hj => by
      have := hg (j + 1) (by simpa using hj)
      simpa [Nat.add_assoc, Nat.add_comm 1 j] using this
    have hf : g i = f := hg 0 (by simp)
    rw [leafItems, List.length_cons, List.range'_succ]
    by_cases h : f = 0
    · rw [if_pos h, List.filter_cons_of_neg (by simp [hf, h])]
      exact ih
    · rw [if_neg h, List.filter_cons_of_pos (by simpa [hf] using h), List.map_cons, leafOf, hf, insertItem_eq_mergeItems]
      exact (mergeItems_perm _ _).trans (ih.cons _)

theorem leafItems_length (i : Nat) (fs : List Nat) : (leafItems i fs).length = usedSymbols fs := by
  induction fs generalizing i with
  | nil => rfl
  | cons f fs ih =>
    unfold usedSymbols at ih ⊢
    rw [leafItems]
    by_cases h : f = 0
    · simpa [h] using ih (i + 1)
    · simp [h, insertItem_eq_mergeItems, (mergeItems_perm _ _).length_eq, ih]

/-- The symbols with a nonzero frequency. -/
def usedSet (fs : List Nat) : Finset Nat := (Finset.range fs.length).filter fun i => fs.getD i 0 ≠ 0

theorem leafItems_perm_usedSet (fs : List Nat) :
    (leafItems 0 fs).Perm ((usedSet fs).toList.map (leafOf fun i => fs.getD i 0)) := by
  refine (leafItems_perm (g := fun i => fs.getD i 0) fun j _ => by simp).trans (List.Perm.map _ ?_)
  rw [List.perm_ext_iff_of_nodup ((List.nodup_range' _).filter _) (Finset.nodup_toList _)]
  intro i
  simp [usedSet]

theorem usedSet_card (fs : List Nat) : (usedSet fs).card = usedSymbols fs := by
  rw [← leafItems_length 0 fs, (leafItems_perm_usedSet fs).length_eq, List.length_map, Finset.length_toList]

/-! ## The two halves of the package-merge theorem -/

/-- Each used symbol has a coin of each of the widths `2^r, ..., 4, 2`. The `d i` widest coins of every symbol `i` are
together `2 * (2^r - 2^(r - d i))` wide, and `n` items of width `2^r` take no more than that. -/
def Fits (u : Finset Nat) (r n : Nat) (d : Nat → Nat) : Prop :=
  n * 2 ^ r + 2 * ∑ i ∈ u, 2 ^ (r - d i) ≤ 2 * (u.card * 2 ^ r)

/-- Whatever items are selected, no symbol occurs more than `r` times, and as many of its widest coins as it occurs cover the
items' width. -/
def SelectionsFit (u : Finset Nat) (r : Nat) (xs : List Item) : Prop :=
  ∀ ys : List Item, ys.Sublist xs →
    (∀ i, (itemsSymbols ys).count i ≤ r) ∧ Fits u r ys.length fun i => (itemsSymbols ys).count i

/-- Whatever lengths `d` cover the width of `n` items, the list has `n` items, and its first `n` weigh no more than `d` does. -/
def FirstAreLightest (u : Finset Nat) (f : Nat → Nat) (r : Nat) (xs : List Item) : Prop :=
  ∀ (n : Nat) (d : Nat → Nat), (∀ i ∈ u, d i ≤ r) → Fits u r n d →
    n ≤ xs.length ∧ itemsWeight (xs.take n) ≤ ∑ i ∈ u, f i * d i

/-- Of `n` items of the next list, a leaf for each length above 0 and the packages of `2 * b` items make up the width. -/
theorem Fits.of_succ {u : Finset Nat} {r n : Nat} {d : Nat → Nat} (h : Fits u (r + 1) n d) :
    ∃ b, Fits u r (2 * b) (fun i => d i - 1) ∧ n ≤ (u.filter fun i => 0 < d i).card + b := by
  have hrest : ∑ i ∈ u, 2 ^ (r - (d i - 1)) ≤ u.card * 2 ^ r :=
    (Finset.sum_le_card_nsmul _ _ (2 ^ r) fun i _ => Nat.pow_le_pow_right (by omega) (by omega)).trans_eq (smul_eq_mul _ _)
  have hterm : ∀ i ∈ u, 2 ^ (r + 1 - d i) + (if 0 < d i then 2 ^ r else 0) = 2 ^ r + 2 ^ (r - (d i - 1)) := by
    intro i _
    by_cases h0 : 0 < d i
    · rw [if_pos h0, show r + 1 - d i = r - (d i - 1) by omega, Nat.add_comm]
    · rw [if_neg h0, show r + 1 - d i = r + 1 by omega, show r - (d i - 1) = r by omega, Nat.pow_succ]
      omega
  have hsum := Finset.sum_congr rfl hterm
  rw [Finset.sum_add_distrib, Finset.sum_add_distrib, ← Finset.sum_filter, Finset.sum_const, Finset.sum_const, smul_eq_mul,
    smul_eq_mul] at hsum
  have hmul := Nat.div_mul_le_self (u.card * 2 ^ r - ∑ i ∈ u, 2 ^ (r - (d i - 1))) (2 ^ r)
  unfold Fits at h
  rw [show n * 2 ^ (r + 1) = 2 * (n * 2 ^ r) by ring, show u.card * 2 ^ (r + 1) = 2 * (u.card * 2 ^ r) by ring] at h
  refine ⟨(u.card * 2 ^ r - ∑ i ∈ u, 2 ^ (r - (d i - 1))) / 2 ^ r, ?_, ?_⟩
  · rw [Fits, Nat.mul_assoc]
    omega
  · rw [Nat.add_comm, ← Nat.sub_le_iff_le_add, Nat.le_div_iff_mul_le (by positivity), Nat.sub_mul]
    omega

/-- A leaf for each length above 0, and the lengths less 1 for the lists below, weigh what the lengths weigh. -/
theorem sum_filter_add_sum_pred (u : Finset Nat) (f d : Nat → Nat) :
    ∑ i ∈ u.filter (fun i => 0 < d i), f i + ∑ i ∈ u, f i * (d i - 1) = ∑ i ∈ u, f i * d i := by
  rw [Finset.sum_filter, ← Finset.sum_add_distrib]
  refine Finset.sum_congr rfl fun i _ => ?_
  cases d i with
  | zero => rfl
  | succ k => rw [if_pos (Nat.succ_pos k), Nat.add_sub_cancel, Nat.mul_succ, Nat.add_comm]

section
variable {u : Finset Nat} {f : Nat → Nat} {leaves xs : List Item} (hl : leaves.Perm (u.toList.map (leafOf f)))

include hl in
/-- A selection of the next list is a set of leaves and the contents of some packages. -/
theorem exists_of_sublist_mergeItems {ys : List Item} (h : ys.Sublist (mergeItems leaves (packages xs))) :
    ∃ (v : Finset Nat) (zs : List Item) (n : Nat), v ⊆ u ∧ zs.Sublist xs ∧ zs.length = 2 * n ∧ ys.length = v.card + n ∧
      ∀ i, (itemsSymbols ys).count i = (if i ∈ v then 1 else 0) + (itemsSymbols zs).count i := by
  have hp : ys.Subperm (u.toList.map (leafOf f) ++ packages xs) :=
    h.subperm.trans ((mergeItems_perm _ _).trans (hl.append_right _)).subperm
  obtain ⟨ys', hy, hs⟩ := hp
  obtain ⟨as, ps, rfl, ha, hps⟩ := List.sublist_append_iff.1 hs
  obtain ⟨vs, hv, rfl⟩ := List.sublist_map_iff.1 ha
  obtain ⟨zs, hz, hzl, hzs⟩ := exists_sublist_of_packages hps
  have hnd : vs.Nodup := hv.nodup u.nodup_toList
  refine ⟨vs.toFinset, zs, ps.length, fun i hi => ?_, hz, hzl, ?_, fun i => ?_⟩
  · exact Finset.mem_toList.1 (hv.subset (List.mem_toFinset.1 hi))
  · rw [← hy.length_eq, List.length_append, List.length_map, List.toFinset_card_of_nodup hnd]
  · rw [← (itemsSymbols_perm hy).count_eq, itemsSymbols_append, itemsSymbols_map_leafOf, List.count_append, hzs, hnd.count]
    simp

include hl in
theorem mergeItems_selectionsFit {r : Nat} (h : SelectionsFit u r xs) :
    SelectionsFit u (r + 1) (mergeItems leaves (packages xs)) := by
  intro ys hy
  obtain ⟨v, zs, n, hv, hz, hzl, hyl, hc⟩ := exists_of_sublist_mergeItems hl hy
  obtain ⟨hle, hfit⟩ := h zs hz
  refine ⟨fun i => ?_, ?_⟩
  · have := hle i
    rw [hc]
    split <;> omega
  · have hterm : ∀ i ∈ u, (if i ∈ v then 2 ^ r else 0) + 2 ^ (r + 1 - (itemsSymbols ys).count i)
        ≤ 2 ^ r + 2 ^ (r - (itemsSymbols zs).count i) := by
      intro i _
      have hi := hle i
      rw [hc]
      by_cases hiv : i ∈ v
      · rw [if_pos hiv, if_pos hiv, show r + 1 - (1 + (itemsSymbols zs).count i) = r - (itemsSymbols zs).count i by omega]
      · have hpow : 2 ^ (r - (itemsSymbols zs).count i) ≤ 2 ^ r := Nat.pow_le_pow_right (by omega) (by omega)
        rw [if_neg hiv, if_neg hiv, show r + 1 - (0 + (itemsSymbols zs).count i) = r - (itemsSymbols zs).count i + 1 by omega,
          Nat.pow_succ]
        omega
    have hsum := Finset.sum_le_sum hterm
    rw [Finset.sum_add_distrib, Finset.sum_add_distrib, Finset.sum_ite_mem, Finset.inter_eq_right.2 hv, Finset.sum_const,
      Finset.sum_const, smul_eq_mul, smul_eq_mul] at hsum
    rw [Fits, hzl, Nat.mul_assoc] at hfit
    rw [Fits, hyl, show (v.card + n) * 2 ^ (r + 1) = 2 * (v.card * 2 ^ r) + 2 * (n * 2 ^ r) by ring,
      show u.card * 2 ^ (r + 1) = 2 * (u.card * 2 ^ r) by ring]
    omega

include hl in
theorem mergeItems_firstAreLightest {r : Nat} (hw : ByWeight leaves) (hx : ByWeight xs) (h : FirstAreLightest u f r xs) :
    FirstAreLightest u f (r + 1) (mergeItems leaves (packages xs)) := by
  intro n d hd hfit
  obtain ⟨b, hb, hn⟩ := hfit.of_succ
  obtain ⟨hlen, hweight⟩ := h (2 * b) (fun i => d i - 1) (fun i hi => by have := hd i hi; omega) hb
  set v := u.filter fun i => 0 < d i with hv
  have hsel : (v.toList.map (leafOf f) ++ (packages xs).take b).Subperm (mergeItems leaves (packages xs)) := by
    obtain ⟨ws, hp, hs⟩ : v.toList.Subperm u.toList :=
      List.subperm_of_subset v.nodup_toList fun i hi => Finset.mem_toList.2 (Finset.mem_of_mem_filter i (Finset.mem_toList.1 hi))
    exact List.Subperm.trans ⟨_, (hp.map _).append_right _, (hs.map _).append (List.take_sublist _ _)⟩
      ((mergeItems_perm _ _).trans (hl.append_right _)).symm.subperm
  have hsize : (v.toList.map (leafOf f) ++ (packages xs).take b).length = v.card + b := by
    rw [List.length_append, List.length_map, Finset.length_toList, List.length_take, packages_length]
    omega
  refine ⟨hn.trans (hsize.symm.trans_le hsel.length_le), ?_⟩
  calc itemsWeight ((mergeItems leaves (packages xs)).take n)
      ≤ itemsWeight (v.toList.map (leafOf f) ++ (packages xs).take b) :=
        itemsWeight_take_le (mergeItems_byWeight hw (packages_byWeight hx)) hsel (hsize ▸ hn)
    _ ≤ ∑ i ∈ v, f i + ∑ i ∈ u, f i * (d i - 1) := by
        rw [itemsWeight_append, itemsWeight_map_leafOf, Finset.sum_map_toList, itemsWeight_take_packages hlen]
        exact Nat.add_le_add_left hweight _
    _ = ∑ i ∈ u, f i * d i := sum_filter_add_sum_pred u f d

end

/-! ## Every round -/

/-- What holds of no items, and of the merge of the leaves with the packages of a list it holds of, holds of every round. -/
theorem mergeRounds_induction {P : Nat → List Item → Prop} {leaves : List Item} (nil : P 0 [])
    (step : ∀ r xs, P r xs → P (r + 1) (mergeItems leaves (packages xs))) (r : Nat) : P (r + 1) (mergeRounds leaves r) := by
  induction r with
  | zero =>
    rw [mergeRounds, ← mergeItems_nil leaves]
    exact step 0 [] nil
  | succ r ih => exact step (r + 1) _ ih

/-- An item weighs what its symbols weigh, and each of them is in `u`. -/
def Item.Sound (u : Finset Nat) (f : Nat → Nat) (x : Item) : Prop := x.w = (x.syms.map f).sum ∧ ∀ i ∈ x.syms, i ∈ u

section
variable {u : Finset Nat} {f : Nat → Nat} {leaves : List Item} (hl : leaves.Perm (u.toList.map (leafOf f)))

include hl in
theorem mergeRounds_sound (r : Nat) : ∀ x ∈ mergeRounds leaves r, x.Sound u f := by
  refine mergeRounds_induction (P := fun _ xs => ∀ x ∈ xs, x.Sound u f) nofun (fun _ xs h x hx => ?_) r
  rcases List.mem_append.1 ((mergeItems_perm _ _).subset hx) with hx | hx
  · obtain ⟨i, hi, rfl⟩ := List.mem_map.1 (hl.subset hx)
    exact ⟨by simp [leafOf], by simpa [leafOf] using hi⟩
  · obtain ⟨a, ha, b, hb, rfl⟩ := mem_packages hx
    obtain ⟨haw, hau⟩ := h a ha
    obtain ⟨hbw, hbu⟩ := h b hb
    refine ⟨by simp [haw, hbw], fun i hi => ?_⟩
    exact (List.mem_append.1 hi).elim (hau i) (hbu i)

include hl in
theorem mergeRounds_selectionsFit (r : Nat) : SelectionsFit u (r + 1) (mergeRounds leaves r) := by
  refine mergeRounds_induction (fun ys hy => ?_) (fun _ _ => mergeItems_selectionsFit hl) r
  obtain rfl := List.sublist_nil.1 hy
  exact ⟨fun _ => le_rfl, by simp [Fits, itemsSymbols]⟩

include hl in
theorem mergeRounds_firstAreLightest (hw : ByWeight leaves) (r : Nat) :
    FirstAreLightest u f (r + 1) (mergeRounds leaves r) := by
  refine (mergeRounds_induction (P := fun r xs => ByWeight xs ∧ FirstAreLightest u f r xs)
    ⟨List.Pairwise.nil, fun n d hd hfit => ?_⟩ (fun _ _ ⟨hx, h⟩ => ?_) r).2
  · have hz : ∀ i ∈ u, 2 ^ (0 - d i) = 1 := fun i _ => by rw [Nat.zero_sub]; rfl
    rw [Fits, Finset.sum_congr rfl hz] at hfit
    obtain rfl : n = 0 := by simp at hfit; omega
    exact ⟨le_rfl, Nat.zero_le _⟩
  · exact ⟨mergeItems_byWeight hw (packages_byWeight hx), mergeItems_firstAreLightest hl hw hx h⟩

end

/-- The symbols of sound items, all together, weigh what the items weigh. -/
theorem itemsWeight_eq_sum_count {u : Finset Nat} {f : Nat → Nat} {xs : List Item} (h : ∀ x ∈ xs, x.Sound u f) :
    itemsWeight xs = ∑ i ∈ u, f i * (itemsSymbols xs).count i := by
  have hw : itemsWeight xs = ((itemsSymbols xs).map f).sum := by
    induction xs with
    | nil => rfl
    | cons x xs ih =>
      obtain ⟨hx, -⟩ := h x (by simp)
      simp [hx, ih fun y hy => h y (by simp [hy])]
  have hu : (itemsSymbols xs).toFinset ⊆ u := fun i hi => by
    obtain ⟨x, hx, hi⟩ := List.mem_flatMap.1 (List.mem_toFinset.1 hi)
    exact (h x hx).2 i hi
  rw [hw, Finset.sum_list_map_count]
  refine (Finset.sum_subset hu fun i _ hi => ?_).trans (Finset.sum_congr rfl fun i _ => Nat.mul_comm _ _)
  rw [List.count_eq_zero_of_not_mem fun hc => hi (List.mem_toFinset.2 hc), zero_smul]

/-! ## Sums over the used symbols -/

/-- A sum over positions that is 0 wherever the frequency is 0. -/
theorem sum_range_eq_sum_usedSet {fs : List Nat} {g : Nat → Nat} (h : ∀ i, fs.getD i 0 = 0 → g i = 0) :
    ∑ i ∈ Finset.range fs.length, g i = ∑ i ∈ usedSet fs, g i :=
  (Finset.sum_filter_of_ne (p := fun i => fs.getD i 0 ≠ 0) fun i _ hi hf => hi (h i hf)).symm

theorem weightedLength_eq_sum {fs ls : List Nat} (hn : ls.length = fs.length) :
    weightedLength fs ls = ∑ i ∈ usedSet fs, fs.getD i 0 * ls.getD i 0 := by
  rw [weightedLength, sum_eq_sum_range, ← sum_range_eq_sum_usedSet fun i hi => by rw [hi, Nat.zero_mul]]
  rw [List.length_map, List.length_zip, hn, Nat.min_self]
  refine Finset.sum_congr rfl fun i hi => ?_
  have hi := Finset.mem_range.1 hi
  have hi' : i < ls.length := hn ▸ hi
  simp [hi, hi']

/-- Lengths that are 0 exactly where the frequency is 0 have the Kraft sum of the used symbols. -/
theorem kraftUnits_eq_sum {fs ls : List Nat} (m : Nat) (hn : ls.length = fs.length)
    (hz : ∀ i < fs.length, ls.getD i 0 = 0 ↔ fs.getD i 0 = 0) :
    kraftUnits m ls = ∑ i ∈ usedSet fs, 2 ^ (m - ls.getD i 0) := by
  rw [kraftUnits, sum_eq_sum_range, List.length_map, hn, usedSet, Finset.sum_filter]
  refine Finset.sum_congr rfl fun i hi => ?_
  have hi := Finset.mem_range.1 hi
  have hi' : i < ls.length := hn ▸ hi
  have hz := hz i hi
  by_cases h0 : fs.getD i 0 = 0
  · rw [if_neg (not_not.2 h0)]
    have := hz.2 h0
    simp_all
  · rw [if_pos h0]
    have : ls.getD i 0 ≠ 0 := fun h => h0 (hz.1 h)
    simp_all

/-- A conforming vector, position by position. -/
theorem conforming_iff {fs ls : List Nat} {m : Nat} :
    Conforming fs m ls ↔ ls.length = fs.length ∧ (∀ i < fs.length, ls.getD i 0 = 0 ↔ fs.getD i 0 = 0) ∧
      (∀ i < fs.length, ls.getD i 0 ≤ m) ∧ ∑ i ∈ usedSet fs, 2 ^ (m - ls.getD i 0) ≤ 2 ^ m := by
  refine and_congr_right fun hn => ?_
  have hz : (∀ p ∈ fs.zip ls, (p.2 = 0 ↔ p.1 = 0)) ↔ ∀ i < fs.length, ls.getD i 0 = 0 ↔ fs.getD i 0 = 0 := by
    rw [List.forall_mem_iff_getElem]
    refine ⟨fun h i hi => ?_, fun h i hi => ?_⟩
    · have := h i (by simp [hn, hi])
      simpa [hi, hn ▸ hi] using this
    · have hi' : i < fs.length := by simp at hi; omega
      have := h i hi'
      simpa [hi', hn ▸ hi'] using this
  have hm : (∀ l ∈ ls, l ≤ m) ↔ ∀ i < fs.length, ls.getD i 0 ≤ m := by
    rw [List.forall_mem_iff_getElem, ← hn]
    exact forall₂_congr fun i hi => by simp [hi]
  rw [hz, hm]
  refine and_congr_right fun hz => and_congr_right fun _ => ?_
  rw [kraftUnits_eq_sum m hn hz]

/-! ## The reference construction (R117) -/

section
variable {fs : List Nat} {m : Nat}

/-- The items the reference construction selects. -/
def selectedItems (fs : List Nat) (m : Nat) : List Item :=
  (mergeRounds (leafItems 0 fs) (m - 1)).take (2 * usedSymbols fs - 2)

theorem packageMerge_length : (packageMerge fs m).length = fs.length := by simp [packageMerge]

theorem packageMerge_getD {i : Nat} (hi : i < fs.length) :
    (packageMerge fs m).getD i 0 = (itemsSymbols (selectedItems fs m)).count i := by
  rw [List.getD_eq_getElem _ _ (packageMerge_length.symm ▸ hi)]
  simp [packageMerge, selectedSymbols, selectedItems, itemsSymbols, List.count]

theorem selectedItems_sound : ∀ x ∈ selectedItems fs m, x.Sound (usedSet fs) fun i => fs.getD i 0 :=
  fun x hx => mergeRounds_sound (leafItems_perm_usedSet fs) (m - 1) x (List.mem_of_mem_take hx)

theorem weightedLength_packageMerge : weightedLength fs (packageMerge fs m) = itemsWeight (selectedItems fs m) := by
  rw [weightedLength_eq_sum packageMerge_length, itemsWeight_eq_sum_count selectedItems_sound]
  refine Finset.sum_congr rfl fun i hi => ?_
  rw [packageMerge_getD (Finset.mem_range.1 (Finset.mem_of_mem_filter i hi))]

variable (hk : 2 < usedSymbols fs) (hm : usedSymbols fs ≤ 2 ^ m)

include hk hm in
theorem limit_sub_one_add_one : m - 1 + 1 = m := Nat.succ_pred fun h => by subst h; omega

include hk in
/-- The width the selection takes, against the width of all coins. -/
theorem selection_width : (2 * usedSymbols fs - 2) * 2 ^ m + 2 * 2 ^ m = 2 * (usedSymbols fs * 2 ^ m) := by
  rw [← Nat.add_mul, Nat.sub_add_cancel (by omega), Nat.mul_assoc]

include hk hm in
/-- Lengths of at most `m` with Kraft's inequality cover the width of `2k - 2` items, so these weigh no more. -/
theorem selectedItems_lightest {d : Nat → Nat} (hd : ∀ i ∈ usedSet fs, d i ≤ m)
    (hkraft : ∑ i ∈ usedSet fs, 2 ^ (m - d i) ≤ 2 ^ m) :
    (selectedItems fs m).length = 2 * usedSymbols fs - 2 ∧
      itemsWeight (selectedItems fs m) ≤ ∑ i ∈ usedSet fs, fs.getD i 0 * d i := by
  have hfit : Fits (usedSet fs) m (2 * usedSymbols fs - 2) d := by
    have := selection_width (m := m) hk
    rw [Fits, usedSet_card]
    omega
  have hround := mergeRounds_firstAreLightest (leafItems_perm_usedSet fs) (leafItems_byWeight 0 fs) (m - 1)
  rw [limit_sub_one_add_one hk hm] at hround
  obtain ⟨hlen, hw⟩ := hround _ d hd hfit
  exact ⟨List.length_take_of_le hlen, hw⟩

include hk hm in
/-- The selection's lengths are at most `m` and cover the width of `2k - 2` items, which is Kraft's inequality. -/
theorem selectedItems_kraft :
    (∀ i, (itemsSymbols (selectedItems fs m)).count i ≤ m) ∧
      ∑ i ∈ usedSet fs, 2 ^ (m - (itemsSymbols (selectedItems fs m)).count i) ≤ 2 ^ m := by
  obtain ⟨hlen, -⟩ := selectedItems_lightest hk hm (d := fun _ => m) (fun _ _ => le_rfl)
    (by simpa [usedSet_card] using hm)
  obtain ⟨hle, hfit⟩ :=
    mergeRounds_selectionsFit (leafItems_perm_usedSet fs) (m - 1) (selectedItems fs m) (List.take_sublist _ _)
  rw [limit_sub_one_add_one hk hm] at hle hfit
  refine ⟨hle, ?_⟩
  have := selection_width (m := m) hk
  rw [Fits, usedSet_card, hlen] at hfit
  omega

include hk hm in
/-- P1 of R116: a used symbol of length 0 would take the whole Kraft sum and leave nothing for the others. -/
theorem selectedItems_count_eq_zero_iff {i : Nat} (hi : i < fs.length) :
    (itemsSymbols (selectedItems fs m)).count i = 0 ↔ fs.getD i 0 = 0 := by
  constructor
  · intro h0
    by_contra hf
    have hiu : i ∈ usedSet fs := Finset.mem_filter.2 ⟨Finset.mem_range.2 hi, hf⟩
    obtain ⟨j, hj, hji⟩ := Finset.exists_mem_ne (by rw [usedSet_card]; omega : 1 < (usedSet fs).card) i
    obtain ⟨-, hkraft⟩ := selectedItems_kraft hk hm
    have hlt := Finset.single_lt_sum (f := fun j => 2 ^ (m - (itemsSymbols (selectedItems fs m)).count j)) hji hiu hj
      (by positivity) fun _ _ _ => Nat.zero_le _
    rw [h0, Nat.sub_zero] at hlt
    omega
  · intro hf
    rw [List.count_eq_zero]
    intro hc
    obtain ⟨x, hx, hix⟩ := List.mem_flatMap.1 hc
    exact (Finset.mem_filter.1 ((selectedItems_sound x hx).2 i hix)).2 hf

include hk hm in
theorem packageMerge_conforming : Conforming fs m (packageMerge fs m) := by
  obtain ⟨hle, hkraft⟩ := selectedItems_kraft hk hm
  refine conforming_iff.2 ⟨packageMerge_length, fun i hi => ?_, fun i hi => ?_, ?_⟩
  · rw [packageMerge_getD hi]
    exact selectedItems_count_eq_zero_iff hk hm hi
  · rw [packageMerge_getD hi]
    exact hle i
  · rwa [Finset.sum_congr rfl fun i hi => by
      rw [packageMerge_getD (Finset.mem_range.1 (Finset.mem_of_mem_filter i hi))]]

include hk hm in
theorem packageMerge_optimal {ls : List Nat} (h : Conforming fs m ls) :
    weightedLength fs (packageMerge fs m) ≤ weightedLength fs ls := by
  obtain ⟨hn, -, hle, hkraft⟩ := conforming_iff.1 h
  rw [weightedLength_packageMerge, weightedLength_eq_sum hn]
  exact (selectedItems_lightest hk hm
    (fun i hi => hle i (Finset.mem_range.1 (Finset.mem_of_mem_filter i hi))) hkraft).2

end

/-- Under either policy the long case answers a conforming vector. -/
theorem longLengths_conforming (policy : LengthPolicy) (k : Nat) {fs : List Nat} {m : Nat} (hk : 2 < usedSymbols fs)
    (hm : usedSymbols fs ≤ 2 ^ m) : Conforming fs m (longLengths policy k fs m) := by
  cases policy with
  | reference => exact packageMerge_conforming hk hm
  | anyConforming =>
    show Conforming fs m (conformingLengths k fs m)
    unfold conformingLengths
    split
    case isTrue h => exact h
    case isFalse => exact packageMerge_conforming hk hm

end Sys2Proof.Machine

/-! SUPPORT. The table and histogram commands (40_huffman.md R101 to R112), each by what it does where no session is open, and the
commands that leave every pattern (R124). -/

namespace Sys2Proof.Machine

/-! ## Open sessions (R125) -/

/-- Every HTG and LZM command tests the session before anything else. -/
theorem exec_of_open {i : Instr} {s : State} (hd : isDirect i = true) (ho : sessionOpen s = true) :
    exec i s = .next (raise .badState s) := by
  have test : ∀ t : State, Host.Outcome.next (φ := Fault) (ρ := Refusal) (if sessionOpen s then raise .badState s else t)
      = .next (raise .badState s) := fun t => by rw [if_pos ho]
  cases i with
  | nop | decStart _ | decDict _ | decOne _ | decFinish | decStatus => cases hd
  | _ => exact test _

/-- A command that tests the session first answers BadState in an open one, and otherwise what follows the test. -/
theorem exec_by_session {i : Instr} {s t : State} (h : exec i s = .next (if sessionOpen s then raise .badState s else t)) :
    ∃ s', exec i s = .next s' ∧ (sessionOpen s = true → OnlyReports 0x12 0 s s') ∧ (sessionOpen s = false → s' = t) := by
  refine ⟨_, h, fun ho => ?_, fun ho => by rw [ho]; rfl⟩
  rw [if_pos ho]
  exact raise_onlyReports .badState s

/-! ## Patterns (R124) -/

/-- The patterns of slot `u`. -/
def State.pats (s : State) (u : Slot) : List (BitVec 16) := (s.table u).map fun e => e.pat

section
variable {s x y : State} {u : Slot}

theorem pats_ite {c : Prop} [Decidable c] (hx : x.pats u = s.pats u) (hy : y.pats u = s.pats u) :
    (if c then x else y).pats u = s.pats u := by
  split
  · exact hx
  · exact hy

theorem pats_finish_setTable {t : Slot} {es : Table} (c : Code) (v : Word)
    (h : es.map (fun e => e.pat) = (s.table t).map fun e => e.pat) : (finish c v (s.setTable t es)).pats u = s.pats u := by
  unfold State.pats
  by_cases hu : u = t
  · subst hu
    rw [finish_table, State.table_setTable_same, h]
  · rw [finish_table, State.table_setTable_other s es hu]

theorem pats_finish_setHist (c : Code) (v : Word) (h : Vector Word Config.htCap) :
    (finish c v (s.setHist h)).pats u = s.pats u := by
  rw [State.pats, finish_table, State.setHist_table]
  rfl

end

/-- The commands that may write a pattern. -/
def writesPats : Instr → Bool
  | .htResize _ _ | .htAssign _ | .htLoadfixed _ | .decOne _ | .decFinish => true
  | _ => false

theorem exec_pats {i : Instr} {s t : State} (h : exec i s = .next t) (hi : writesPats i = false) (u : Slot) :
    t.pats u = s.pats u := by
  cases i with
  | htResize _ _ | htAssign _ | htLoadfixed _ | decOne _ | decFinish => cases hi
  | nop | decStatus => cases h; rfl
  | htSetlen t k len =>
    cases h
    exact pats_ite rfl (pats_ite rfl (pats_ite rfl (pats_finish_setTable _ _ (setLen_pats _ _ _))))
  | htGetent t k =>
    cases h
    exact pats_ite rfl (by cases (s.table t)[k]? <;> rfl)
  | htSize _ | hrGet _ =>
    cases h
    exact pats_ite rfl rfl
  | htHist t maxLen =>
    cases h
    refine pats_ite rfl (pats_ite rfl ?_)
    cases lengthsUnder Config.lengthPolicy s.env.draws (histInput t s) (histLimit maxLen) with
    | error c => rfl
    | ok ls => exact pats_finish_setTable _ _ (setLens_pats _ _)
  | htLookup t length bits =>
    cases h
    exact pats_ite rfl (pats_ite rfl (by cases lookup (s.table t) (readU32 length) bits.toNat <;> rfl))
  | histClear =>
    cases h
    exact pats_ite rfl (pats_finish_setHist _ _ _)
  | histSet _ _ | histInc _ =>
    cases h
    exact pats_ite rfl (pats_ite rfl (pats_finish_setHist _ _ _))
  | histGet _ | hrConfig _ =>
    cases h
    exact pats_ite rfl (pats_ite rfl rfl)
  | hrRecord b | hrRecskip b =>
    cases h
    exact pats_ite rfl (by cases readByte b <;> rfl)
  | mhFind triple hint =>
    cases h
    exact pats_ite rfl (by cases readTriple triple <;> rfl)
  | decStart params =>
    cases h
    cases readStart params with
    | none => rfl
    | some p => exact pats_ite rfl rfl
  | decDict v =>
    cases h
    refine pats_ite rfl ?_
    rcases readBm1 v with _ | (_ | b)
    · rfl
    · rfl
    · exact pats_ite rfl (pats_ite rfl rfl)

/-! ## Lengths under the reference policy (R106, R115) -/

theorem lengthsUnder_badParam {policy : LengthPolicy} {k m : Nat} {fs : List Nat} (hk : 2 < usedSymbols fs)
    (hm : 2 ^ m < usedSymbols fs) : lengthsUnder policy k fs m = .error .badParam := by
  rcases lengthsUnder_cases policy k fs m with ⟨h0, -⟩ | ⟨h2, -⟩ | ⟨-, -, he⟩ | ⟨-, hle, -⟩
  · omega
  · omega
  · exact he
  · omega

/-- Where the used symbols fit, position by position: 1 for up to two used symbols, and the package-merge length for more. -/
theorem lengthsUnder_reference {m : Nat} {fs : List Nat} (k : Nat)
    (h : usedSymbols fs ≤ 2 ∨ usedSymbols fs ≤ 2 ^ m) :
    ∃ ls, lengthsUnder .reference k fs m = .ok ls ∧ ∀ (i f : Nat), fs[i]? = some f →
      ls[i]? = some (if usedSymbols fs ≤ 2 then (if f = 0 then 0 else 1) else (packageMerge fs m).getD i 0) := by
  rcases lengthsUnder_cases .reference k fs m with ⟨h0, he⟩ | ⟨h2, he⟩ | ⟨hgt, hm, -⟩ | ⟨hgt, -, he⟩
  · refine ⟨_, he, fun i f hf => ?_⟩
    have hzero : f = 0 := by simpa using List.countP_eq_zero.1 h0 f (List.mem_of_getElem? hf)
    rw [if_pos (by omega), if_pos hzero, List.getElem?_map, hf]
    rfl
  · refine ⟨_, he, fun i f hf => ?_⟩
    rw [if_pos (by omega), List.getElem?_map, hf]
    rfl
  · omega
  · refine ⟨_, he, fun i f hf => ?_⟩
    have hi : i < (packageMerge fs m).length := by
      rw [packageMerge_length]
      exact (List.getElem?_eq_some_iff.1 hf).1
    rw [if_neg (by omega), List.getD_eq_getElem _ _ hi]
    exact List.getElem?_eq_getElem hi

/-! ## Histogram entries -/

theorem histAt_of_getElem? {h : Htg} {i : Nat} {x : Word} (hx : h.hist[i]? = some x) : i < 288 ∧ h.histAt i = x := by
  refine ⟨(Vector.getElem?_eq_some_iff.1 hx).1, ?_⟩
  rw [Htg.histAt, hx]
  rfl

/-! ## Lookup (R119) -/

/-- Lookup answers the symbol of the lowest matching index. -/
theorem lookup_eq_some {t : Table} {n bits i : Nat} {e : Entry} (hi : t[i]? = some e) (hl : e.len.toNat = n)
    (hp : e.pat.toNat = bits)
    (hlow : ∀ (j : Nat) (e' : Entry), j < i → t[j]? = some e' → ¬(e'.len.toNat = n ∧ e'.pat.toNat = bits)) :
    lookup t n bits = some e.sym := by
  obtain ⟨hlt, rfl⟩ := List.getElem?_eq_some_iff.1 hi
  rw [lookup, List.find?_eq_some_iff_getElem.2 ⟨by simp [hl, hp], i, hlt, rfl, fun j hj => ?_⟩]
  · rfl
  · have := hlow j (t[j]) hj (List.getElem?_eq_getElem (hj.trans hlt))
    simpa [imp_iff_not_or] using this

/-! ## HT.GETENT's VALUE (30_encoding.md R92) -/

theorem entryValue_fields (e : Entry) :
    (entryValue e).extractLsb' 0 16 = e.pat ∧ (entryValue e).extractLsb' 16 5 = e.len ∧
      (entryValue e).extractLsb' 21 9 = e.sym ∧ (entryValue e).extractLsb' 30 2 = 0 := by
  unfold entryValue
  refine ⟨?_, ?_, ?_, ?_⟩ <;> refine BitVec.eq_of_getLsbD_eq fun j hj => ?_ <;>
    simp only [BitVec.getLsbD_extractLsb', BitVec.getLsbD_append, hj, decide_true, Bool.true_and]
  · rw [if_pos (by omega), Nat.zero_add]
  · rw [if_neg (by omega), if_pos (by omega), Nat.add_sub_cancel_left]
  · rw [if_neg (by omega), if_neg (by omega), if_pos (by omega), show 21 + j - 16 - 5 = j by omega]
  · rw [if_neg (by omega), if_neg (by omega), if_neg (by omega)]
    simp

end Sys2Proof.Machine

/-! SUPPORT. The statements of 40_huffman.md: the table and histogram commands, Canonical, and the derived lengths. -/

namespace Sys2Proof.Proofs
open Sys2Proof.Machine

/-- Settles O17: the session is tested before anything else. -/
theorem openSessionOwnsTablesAndHistory : Obligations.OpenSessionOwnsTablesAndHistory := fun _ _ => exec_of_open

/-- Settles O18, command by command. -/
theorem otherCommandsLeavePatterns : Obligations.OtherCommandsLeavePatterns := by
  intro i s t h hi
  refine exec_pats h ?_
  cases i with
  | htResize _ _ | htAssign _ | htLoadfixed _ | decOne _ | decFinish => exact hi.elim
  | _ => rfl

/-- Settles O22, by the entries of the resized slot. -/
theorem htResizeSetsTableLength : Obligations.HtResizeSetsTableLength := by
  intro t n s
  obtain ⟨s', hx, ho, hc⟩ := exec_by_session (i := .htResize t n) (s := s) rfl
  refine ⟨s', hx, ho, fun h hn => ?_, fun h h0 hn => ?_⟩
  · obtain rfl := (hc h).trans (if_pos hn)
    exact raise_onlyReports .outOfMemory s
  · obtain rfl := (hc h).trans (if_neg (not_or.2 ⟨not_lt.2 h0, not_lt.2 hn⟩))
    rw [finish_table, State.table_setTable_same, readS32]
    refine ⟨rfl, rfl, resized_length _ _, fun i hi hin => ?_, fun i hi hin => ?_, setTable_onlySlot .ok 0 s t _⟩
    · rw [resized_getElem?, if_pos hin, if_pos hi]
    · rw [resized_getElem?, if_pos hin, if_neg (not_lt.2 hi)]
      rfl

/-- Settles O23, by the entries of the slot after one length is written. -/
theorem htSetlenWritesOneLength : Obligations.HtSetlenWritesOneLength := by
  intro t i len s
  obtain ⟨s', hx, ho, hc⟩ := exec_by_session (i := .htSetlen t i len) (s := s) rfl
  refine ⟨s', hx, ho, fun h hbad => ?_, fun e h he hl => ?_⟩
  · have hs : s' = raise .badParam s := by
      by_cases hi : i ≥ (s.table t).length
      · exact (hc h).trans (if_pos hi)
      · exact (hc h).trans ((if_neg hi).trans (if_pos (hbad.resolve_left hi)))
    exact hs ▸ raise_onlyReports .badParam s
  · have hi : ¬i ≥ (s.table t).length := not_le.2 (List.getElem?_eq_some_iff.1 he).1
    obtain rfl := (hc h).trans ((if_neg hi).trans (if_neg (not_lt.2 hl)))
    rw [finish_table, State.table_setTable_same]
    refine ⟨rfl, rfl, ?_, fun j hj => ?_, setTable_onlySlot .ok 0 s t _⟩
    · rw [setLen_getElem?, if_pos rfl, he]
      rfl
    · rw [setLen_getElem?, if_neg hj]

/-- Settles O24, by the fields of the entry's VALUE. -/
theorem htGetentReadsOneEntry : Obligations.HtGetentReadsOneEntry := by
  intro t i s
  obtain ⟨s', hx, ho, hc⟩ := exec_by_session (i := .htGetent t i) (s := s) rfl
  refine ⟨s', hx, ho, fun h hi => ?_, fun e h he => ?_⟩
  · rw [hc h, List.getElem?_eq_none hi]
    exact raise_onlyReports .badParam s
  · rw [hc h, he]
    exact ⟨finish_onlyReports .ok _ s, entryValue_fields e⟩

/-- Settles O25. -/
theorem htSizeReadsTableLength : Obligations.HtSizeReadsTableLength := by
  intro t s
  obtain ⟨s', hx, ho, hc⟩ := exec_by_session (i := .htSize t) (s := s) rfl
  exact ⟨s', hx, ho, fun h => hc h ▸ finish_onlyReports .ok _ s⟩

/-- Settles O26: where Canonical answers patterns there is one for each entry. -/
theorem htAssignWritesCanonicalPatterns : Obligations.HtAssignWritesCanonicalPatterns := by
  intro t s
  obtain ⟨s', hx, ho, hc⟩ := exec_by_session (i := .htAssign t) (s := s) rfl
  refine ⟨s', hx, ho, fun h he => ?_, fun h he => ?_, fun ps h hok => ?_⟩
  · rw [hc h, he]
    exact raise_onlyReports .codeExcess s
  · rw [hc h, he]
    exact raise_onlyReports .badCodeLength s
  · rw [hc h, hok]
    dsimp only
    rw [finish_table, State.table_setTable_same]
    refine ⟨rfl, rfl, setPats_length _ _, fun i e he => ?_, setTable_onlySlot .ok 0 s t _⟩
    have hi : i < ps.length := by
      obtain ⟨-, -, rfl⟩ := canonical_ok hok
      rw [assignCodes_length, lengthsOf, List.length_map]
      exact (List.getElem?_eq_some_iff.1 he).1
    rw [setPats_getElem?, he, List.getElem?_eq_getElem hi, List.getD_eq_getElem _ _ hi]
    rfl

/-- Settles O27: the Kraft test first, then the range test. -/
theorem canonicalFailuresAndTheirOrder : Obligations.CanonicalFailuresAndTheirOrder := by
  intro lens
  rw [← overSubscribed_iff, kraftSum15_le_iff, ← hasLongLength_iff, forall_le_fifteen_iff, canonical]
  cases overSubscribed lens with
  | true => simp
  | false =>
    cases hasLongLength lens with
    | true => simp
    | false => simp

/-- Settles O28, entry by entry. -/
theorem canonicalPatternsAreConsecutive : Obligations.CanonicalPatternsAreConsecutive := by
  intro lens ps h
  obtain ⟨-, -, hps⟩ := canonical_ok h
  exact ⟨hps ▸ assignCodes_length _ _, fun _ _ hi => canonical_pattern h hi⟩

/-- Settles O29, from the numbers of the two codes. -/
theorem canonicalCodesArePrefixFree : Obligations.CanonicalCodesArePrefixFree := by
  intro lens ps h i j li lj pi pj hij hi hj hpi hpj hpos hle
  obtain ⟨qi, hqi, hni, -⟩ := (canonical_pattern h hi).2 hpos
  obtain ⟨qj, hqj, hnj, -⟩ := (canonical_pattern h hj).2 (hpos.trans_le hle)
  rw [hpi] at hqi
  rw [hpj] at hqj
  cases hqi
  cases hqj
  rw [hni, hnj]
  exact code_ne_of_ne hij hi hj hpos hle

/-- Settles O30: each band has one length, so its patterns follow one another from the first code of that length. -/
theorem fixedTablesMatchCanonical : Obligations.FixedTablesMatchCanonical := by
  refine ⟨by simp [fixedLl], by simp [fixedDist], fun i hi => ?_, fun i hi => ?_, fun i hi => ?_, fun i hi => ?_,
    fun i => fixedDist_getElem?, canonical_fixedLl, canonical_fixedDist⟩
  · rw [fixedLl_getElem? (by omega), (fixedLl_band_low hi).1, (fixedLl_band_low hi).2]
    rfl
  · rw [fixedLl_getElem? (by omega), (fixedLl_band_nine hi).1, (fixedLl_band_nine hi).2]
    rfl
  · rw [fixedLl_getElem? (by omega), (fixedLl_band_seven hi).1, (fixedLl_band_seven hi).2]
    rfl
  · rw [fixedLl_getElem? (by omega), (fixedLl_band_high i).1, (fixedLl_band_high i).2]
    rfl

/-- Settles O31, case by case of what Lengths answers. -/
theorem htHistDerivesLengths : Obligations.HtHistDerivesLengths := by
  intro t maxLen s m fs hm hfs
  obtain ⟨s', hx, ho, hc⟩ := exec_by_session (i := .htHist t maxLen) (s := s) rfl
  have hlim : histLimit maxLen = m := hm.symm
  have hin : histInput t s = fs := hfs.symm
  rw [hlim, hin] at hc
  refine ⟨s', hx, ho, fun h h15 => ?_, fun h h15 hk hcap => ?_, fun h h15 hfit => ?_⟩
  · obtain rfl := (hc h).trans (if_pos h15)
    exact raise_onlyReports .badParam s
  · have hs := (hc h).trans (if_neg (not_lt.2 h15))
    rw [lengthsUnder_badParam hk hcap] at hs
    exact hs ▸ raise_onlyReports .badParam s
  · have hs := (hc h).trans (if_neg (not_lt.2 h15))
    obtain ⟨ls, hok, hls⟩ := lengthsUnder_reference s.env.draws hfit
    rw [hok] at hs
    obtain rfl := hs.trans (congrArg (finish .ok 0) (withDraws_zero _))
    rw [finish_table, State.table_setTable_same]
    refine ⟨rfl, rfl, setLens_length _ _, fun i e f he hf => ?_, setTable_onlySlot .ok 0 s t _⟩
    rw [setLens_getElem?, he, hls i f hf]
    rfl

/-- Settles O32: with more than 2 used symbols Lengths answers in its long case alone. -/
theorem derivedLengthsConform : Obligations.DerivedLengthsConform := by
  intro policy k fs m ls h hk
  rcases lengthsUnder_cases policy k fs m with ⟨h0, -⟩ | ⟨h2, -⟩ | ⟨-, -, he⟩ | ⟨-, hm, hl⟩
  · omega
  · omega
  · rw [he] at h; cases h
  · rw [hl] at h
    cases h
    exact longLengths_conforming policy k hk hm

/-- Settles O33: the lengths of a conforming vector cover the width of the items the construction selects. -/
theorem referenceLengthsAreOptimal : Obligations.ReferenceLengthsAreOptimal := fun _ _ _ hk hm h =>
  packageMerge_optimal hk hm h

/-- Settles O34, by the lowest matching index. -/
theorem htLookupFindsLowestMatch : Obligations.HtLookupFindsLowestMatch := by
  intro t length bits s
  obtain ⟨s', hx, ho, hc⟩ := exec_by_session (i := .htLookup t length bits) (s := s) rfl
  have hpat : ∀ e : Entry, e.pat.toNat = bits.toNat ↔ e.pat = bits := fun e => BitVec.toNat_inj
  refine ⟨s', hx, ho, fun h hl => ?_, fun h h1 h15 hno => ?_, fun i e h h1 h15 he hel hep hlow => ?_⟩
  · obtain rfl := (hc h).trans (if_pos hl)
    exact raise_onlyReports .badBitLength s
  · have hs := (hc h).trans (if_neg (not_or.2 ⟨not_lt.2 h1, not_lt.2 h15⟩))
    have hnone : lookup (s.table t) (readU32 length) bits.toNat = none :=
      lookup_eq_none.2 fun e he => by rw [hpat]; exact hno e he
    rw [hnone] at hs
    exact hs ▸ finish_onlyReports .notFound 0 s
  · have hs := (hc h).trans (if_neg (not_or.2 ⟨not_lt.2 h1, not_lt.2 h15⟩))
    have hsome : lookup (s.table t) (readU32 length) bits.toNat = some e.sym :=
      lookup_eq_some he hel ((hpat e).2 hep) fun j e' hj he' => by rw [hpat]; exact hlow j e' hj he'
    rw [hsome] at hs
    exact hs ▸ finish_onlyReports .ok _ s

/-- Settles O35, slot by slot. -/
theorem htLoadfixedReplacesTheSlot : Obligations.HtLoadfixedReplacesTheSlot := by
  intro t s
  obtain ⟨s', hx, ho, hc⟩ := exec_by_session (i := .htLoadfixed t) (s := s) rfl
  refine ⟨s', hx, ho, fun h ht => ?_, fun h ht => ?_⟩
  · subst ht
    rw [hc h]
    exact raise_onlyReports .badParam s
  · rw [hc h]
    cases t with
    | cl => exact absurd rfl ht
    | ll => exact ⟨rfl, rfl, rfl, setTable_onlySlot .ok 0 s .ll _⟩
    | dist => exact ⟨rfl, rfl, rfl, setTable_onlySlot .ok 0 s .dist _⟩

/-- Settles O36, command by command. -/
theorem histogramWrites : Obligations.HistogramWrites := by
  intro i f s
  refine ⟨?_, ?_, ?_⟩
  · obtain ⟨s', hx, ho, hc⟩ := exec_by_session (i := .histClear) (s := s) rfl
    refine ⟨s', hx, ho, fun h => ?_⟩
    rw [hc h]
    refine ⟨rfl, rfl, fun j hj => ?_, setHist_onlyHist .ok 0 s _⟩
    rw [finish_htg, State.setHist_hist, Vector.getElem?_eq_getElem hj, Vector.getElem_replicate]
  · obtain ⟨s', hx, ho, hc⟩ := exec_by_session (i := .histSet i f) (s := s) rfl
    refine ⟨s', hx, ho, fun h hi => ?_, fun h hi => ?_⟩
    · rw [hc h, if_pos hi]
      exact raise_onlyReports .badParam s
    · rw [hc h, if_neg (not_le.2 hi), finish_htg, State.setHist_hist]
      refine ⟨rfl, rfl, ?_, fun j hj => ?_, setHist_onlyHist .ok 0 s _⟩
      · rw [hist_set_getElem? _ hi, if_pos rfl]
      · rw [hist_set_getElem? _ hi, if_neg hj]
  · obtain ⟨s', hx, ho, hc⟩ := exec_by_session (i := .histInc i) (s := s) rfl
    refine ⟨s', hx, ho, fun h hi => ?_, fun x h hxi => ?_⟩
    · rw [hc h, if_pos hi]
      exact raise_onlyReports .badParam s
    · obtain ⟨hi, hat⟩ := histAt_of_getElem? hxi
      have hadd : x + 1 = BitVec.ofNat 32 ((x.toNat + 1) % 2 ^ 32) := BitVec.eq_of_toNat_eq (by simp)
      rw [hc h, if_neg (not_le.2 hi), hat, hadd, finish_htg, State.setHist_hist]
      refine ⟨rfl, rfl, ?_, fun j hj => ?_, setHist_onlyHist .ok 0 s _⟩
      · rw [hist_set_getElem? _ hi, if_pos rfl]
      · rw [hist_set_getElem? _ hi, if_neg hj]

/-- Settles O37. -/
theorem histGetReadsOneFrequency : Obligations.HistGetReadsOneFrequency := by
  intro i s
  obtain ⟨s', hx, ho, hc⟩ := exec_by_session (i := .histGet i) (s := s) rfl
  refine ⟨s', hx, ho, fun h hi => ?_, fun x h hxi => ?_⟩
  · rw [hc h, if_pos hi]
    exact raise_onlyReports .badParam s
  · obtain ⟨hi, hat⟩ := histAt_of_getElem? hxi
    rw [hc h, if_neg (not_le.2 hi), hat]
    exact finish_onlyReports .ok _ s

end Sys2Proof.Proofs

/-! SUPPORT. The match finder (41_history_match.md R146, R148): what `Lzm.find` and `Lzm.chainedFind` answer, in terms of the
set D and of the distances past the hint; the slot of a distance, the flag of a completed triple, and the record commands. -/

namespace Sys2Proof.Machine

/-! ## MH.FIND and the set D (R146) -/

theorem inD_iff {l : Lzm} {t : Triple} {h d : Nat} : InD l t h d ↔ d ∈ l.candidates h ∧ l.matchesAt t d = true := by
  rw [Lzm.mem_candidates, Lzm.matchesAt_iff, InD, and_assoc]

/-- What the search answers: 0 where D is empty, and otherwise the least distance of D. -/
theorem Lzm.find_cases (l : Lzm) (t : Triple) (h : Nat) :
    (l.find t h = 0 ∧ ∀ d, ¬InD l t h d) ∨ (InD l t h (l.find t h) ∧ ∀ d, InD l t h d → l.find t h ≤ d) := by
  unfold Lzm.find
  cases hf : (l.candidates h).find? (l.matchesAt t) with
  | none =>
    have hnone := List.find?_eq_none.1 hf
    exact .inl ⟨rfl, fun d hd => hnone d (inD_iff.1 hd).1 (inD_iff.1 hd).2⟩
  | some e =>
    obtain ⟨he, hmem, hbefore⟩ := List.find?_range'_eq_some.1 hf
    refine .inr ⟨inD_iff.2 ⟨hmem, he⟩, fun d hd => not_lt.1 fun hlt => ?_⟩
    have hno := hbefore d hd.1 hlt
    rw [(inD_iff.1 hd).2] at hno
    cases hno

theorem Lzm.find_eq_zero {l : Lzm} {t : Triple} {h : Nat} (hD : ∀ d, ¬InD l t h d) : l.find t h = 0 := by
  obtain ⟨h0, -⟩ | ⟨hin, -⟩ := l.find_cases t h
  · exact h0
  · exact absurd hin (hD _)

theorem Lzm.find_eq_least {l : Lzm} {t : Triple} {h d : Nat} (hd : InD l t h d) (hleast : ∀ e, InD l t h e → d ≤ e) :
    l.find t h = d := by
  obtain ⟨-, hno⟩ | ⟨hin, hle⟩ := l.find_cases t h
  · exact absurd hd (hno d)
  · exact le_antisymm (hle d hd) (hleast _ hin)

/-- No search answers a nonzero distance outside D. -/
theorem Lzm.find_ne_of_not_inD {l : Lzm} {t : Triple} {h d : Nat} (h0 : d ≠ 0) (hd : ¬InD l t h d) : l.find t h ≠ d := by
  rintro rfl
  obtain ⟨hz, -⟩ | ⟨hin, -⟩ := l.find_cases t h
  · exact h0 hz
  · exact hd hin

theorem readTriple_some {v : Word} (h : v.extractLsb' 24 8 = 0) :
    readTriple v = some ⟨v.extractLsb' 0 8, v.extractLsb' 8 8, v.extractLsb' 16 8⟩ := if_pos h

theorem readTriple_none {v : Word} (h : v.extractLsb' 24 8 ≠ 0) : readTriple v = none := if_neg h

/-! ## The chained hash (R148) -/

theorem Lzm.candidates_pairwise (l : Lzm) (h : Nat) : (l.candidates h).Pairwise (· < ·) := List.pairwise_lt_range'

theorem Lzm.matchesAt_eq (l : Lzm) (t : Triple) (d : Nat) :
    l.matchesAt t d = (l.insAt (l.slotAt d) && l.tripleAt d == t) := by
  obtain ⟨b0, b1, b2⟩ := t
  rw [Bool.eq_iff_iff, Lzm.matchesAt_iff]
  simp [Lzm.tripleAt]

/-- Skipping the entries at distance ≤ h of a rising chain leaves those past h. -/
theorem dropWhile_le_eq_filter_lt {xs : List Nat} (hx : xs.Pairwise (· < ·)) (h : Nat) :
    xs.dropWhile (fun d => decide (d ≤ h)) = xs.filter fun d => decide (h < d) := by
  induction hx with
  | nil => rfl
  | @cons x xs hlt _ ih =>
    by_cases hxh : x ≤ h
    · simp [hxh, not_lt.2 hxh, ih]
    · have hall : ∀ d ∈ x :: xs, decide (h < d) = true := fun d hd => by
        rcases List.mem_cons.1 hd with rfl | hd
        · simpa using hxh
        · have := hlt d hd
          simp; omega
      rw [List.dropWhile_cons_of_neg (by simpa using hxh), List.filter_eq_self.2 hall]

/-- The distances MH.FIND looks at are those of the window's triples past the hint. -/
theorem Lzm.candidates_eq_filter (l : Lzm) (h : Nat) :
    l.candidates h = (List.range' 3 (l.fill.toNat - 2)).filter fun d => decide (h < d) := by
  refine (l.candidates_pairwise h).eq_of_mem_iff (.filter _ List.pairwise_lt_range') fun d => ?_
  rw [Lzm.mem_candidates, List.mem_filter, List.mem_range'_1, decide_eq_true_iff]
  omega

/-- The walk and the search look for the same triple at the same distances: a live entry with the triple's bytes has its
hash, so the chain drops none of them. -/
theorem Lzm.chainedFind_eq_find (hash : Triple → Nat) (l : Lzm) (t : Triple) (h : Nat) :
    l.chainedFind hash t h = l.find t h := by
  have hchain : (l.chain hash (hash t)).Pairwise (· < ·) := .filter _ List.pairwise_lt_range'
  rw [Lzm.chainedFind, Lzm.find, dropWhile_le_eq_filter_lt hchain, Lzm.candidates_eq_filter, Lzm.chain, List.filter_comm,
    List.find?_filter]
  congr 2
  funext d
  rw [Lzm.matchesAt_eq]
  by_cases ht : l.tripleAt d = t <;> simp [ht]

/-! ## Slots and flags (R141, R142) -/

/-- The slot of a distance within the window, by adding W before the distance is taken off. -/
theorem Lzm.slotBehind_window (l : Lzm) (p : Nat) {d : Nat} (hd : d ≤ l.window) :
    slotBehind l.window p d = (p + l.window - d) % l.window := by
  obtain ⟨k, hk, hw⟩ := l.window_dvd
  obtain ⟨j, rfl⟩ : ∃ j, k = j + 1 := ⟨k - 1, by omega⟩
  rw [Nat.mul_succ] at hw
  rw [slotBehind, show p + 65536 - d = p + l.window - d + l.window * j by omega, Nat.add_mul_mod_self_left]

/-- The slot of a distance as the spec writes it, `(POS - d) mod W` over the integers. -/
theorem Lzm.slotAt_eq_emod (l : Lzm) {d : Nat} (hd : d ≤ 65536) :
    (((l.pos.toNat : Int) - (d : Int)) % ((l.window : Nat) : Int)).toNat = l.slotAt d := by
  obtain ⟨k, -, hw⟩ := l.window_dvd
  have hsub : ((l.pos.toNat + 65536 - d : Nat) : Int) = (l.pos.toNat : Int) - d + (l.window : Int) * k := by
    have hc : (65536 : Int) = (l.window : Int) * k := by exact_mod_cast hw
    omega
  rw [← Int.add_mul_emod_self_left _ _ (k : Int), ← hsub, ← Int.natCast_emod, Int.toNat_natCast]
  rfl

theorem Lzm.get_unrecorded (l : Lzm) {d : Nat} (h : d = 0 ∨ l.fill.toNat < d) : l.get d = 0 := if_neg (by omega)

/-- The triple a record completes is flagged exactly when insertion is asked for: its slot held no flag before. -/
theorem Lzm.record_insAt_completed (b : Byte) (ins : Bool) {l : Lzm} (hl : l.wf) (h2 : 2 ≤ l.fill.toNat) :
    (l.record b ins).insAt ((l.record b ins).slotAt 3) = ins := by
  obtain ⟨hp, hf, -, -, ho⟩ := hl
  have hw := l.window_ge
  have hslot : (l.record b ins).slotAt 3 = slotBehind l.window l.nextPos 3 := by
    rw [Lzm.slotAt, Lzm.record_window, Lzm.record_pos]
  rw [Lzm.record_insAt]
  cases ins with
  | true => exact if_pos ⟨rfl, le_min (by omega) (by omega), hslot⟩
  | false =>
    rw [l.record_slotAt_succ b false hp (by omega), if_neg (by simp), if_neg (l.slotAt_ne_pos hp (by omega) (by omega))]
    refine Bool.eq_false_iff.2 fun hflag => ?_
    obtain ⟨d, hd3, hdf, hd⟩ := ho _ hflag
    have := l.slotAt_inj hp (by omega) (by omega) (by omega) (by omega) hd
    omega

/-- The completed triple is in its own set D with hint 0 exactly when insertion is asked for. -/
theorem Lzm.record_inD_completed (b : Byte) (ins : Bool) {l : Lzm} (hl : l.wf) (h2 : 2 ≤ l.fill.toNat) :
    InD (l.record b ins) ((l.record b ins).tripleAt 3) 0 3 ↔ ins = true := by
  have hf : 3 ≤ (l.record b ins).fill.toNat := by
    rw [Lzm.record_fill]
    have := l.window_ge
    exact le_min (by omega) (by omega)
  rw [inD_iff, Lzm.mem_candidates, Lzm.matchesAt_eq, Lzm.record_insAt_completed b ins hl h2, beq_self_eq_true, Bool.and_true]
  exact and_iff_right ⟨le_rfl, hf⟩

/-! ## The record commands (R144, R145) -/

/-- HR.RECORD and HR.RECSKIP differ in the insertion alone. -/
theorem exec_record (b : Word) (skip : Bool) (s : State) :
    exec (if skip then .hrRecskip b else .hrRecord b) s = .next (if sessionOpen s then raise .badState s
      else (readByte b).elim (raise .badParam s) fun x => finish .ok 0 (s.setLzm (s.lzm.record x !skip))) := by
  cases skip with
  | false =>
    show execHrRecord b s = _
    unfold execHrRecord
    cases readByte b <;> rfl
  | true =>
    show execHrRecskip b s = _
    unfold execHrRecskip
    cases readByte b <;> rfl

end Sys2Proof.Machine

/-! SUPPORT. The statements of 41_history_match.md: the window, the record commands, Get, and the match finder. -/

namespace Sys2Proof.Proofs
open Sys2Proof.Machine

/-- Settles O38. -/
theorem hrConfigEmptiesTheWindow : Obligations.HrConfigEmptiesTheWindow := by
  intro wb s
  obtain ⟨s', hx, ho, hc⟩ := exec_by_session (i := .hrConfig wb) (s := s) rfl
  refine ⟨s', hx, ho, fun h hwb => ?_, fun h hwb => ?_⟩
  · obtain rfl := (hc h).trans (if_pos hwb)
    exact raise_onlyReports .unsupported s
  · have hlow : (wb.extractLsb' 0 3).toNat = wb.toNat := by
      rw [BitVec.extractLsb'_toNat, Nat.shiftRight_zero, Nat.mod_eq_of_lt (by omega)]
    obtain rfl := (hc h).trans (if_neg (not_lt.2 hwb))
    exact ⟨rfl, rfl, hlow, rfl, rfl, fun _ => rfl, fun _ => rfl, setLzm_onlyLzm .ok 0 s _⟩

/-- Settles O39, by the fields of the LZM after Record. -/
theorem recordWritesOneByte : Obligations.RecordWritesOneByte := by
  intro b skip s w hw
  obtain rfl : w = s.lzm.window := hw
  obtain ⟨s', hx, ho, hc⟩ := exec_by_session (exec_record b skip s)
  refine ⟨s', hx, ho, fun h hb => ?_, fun h hb => ?_⟩
  · rw [hc h, readByte_none hb]
    exact raise_onlyReports .badParam s
  · obtain rfl : s' = finish .ok 0 (s.setLzm (s.lzm.record (BitVec.ofNat 8 b.toNat) !skip)) := by
      rw [hc h, readByte_some hb, Option.elim_some]
    refine ⟨rfl, rfl, Lzm.record_ringAt_same _ _ _, fun k hk => Lzm.record_ringAt_other _ _ _ hk, rfl,
      Lzm.record_pos _ _ _, Lzm.record_fill _ _ _, fun k => ?_, setLzm_onlyLzm .ok 0 s _⟩
    have h3 : 3 ≤ s.lzm.window := le_trans (by decide) s.lzm.window_ge
    simp only [finish_lzm, State.setLzm_lzm, Lzm.record_pos, Lzm.record_fill, Lzm.record_insAt, s.lzm.slotBehind_window _ h3,
      Bool.not_eq_true']

/-- Settles O41. -/
theorem hrGetReadsByDistance : Obligations.HrGetReadsByDistance := by
  intro d s
  obtain ⟨s', hx, ho, hc⟩ := exec_by_session (i := .hrGet d) (s := s) rfl
  refine ⟨s', hx, ho, fun h h1 hf => ?_, fun h hd => ?_⟩
  · have hfill := s.lzm.fill.isLt
    rw [hc h, ← Lzm.window, s.lzm.slotAt_eq_emod (by omega), ← s.lzm.get_recorded h1 hf]
    exact finish_onlyReports .ok _ s
  · rw [hc h, s.lzm.get_unrecorded hd]
    exact finish_onlyReports .ok 0 s

/-- Settles O42: the search answers the least distance of D. -/
theorem mhFindAnswersNearestMatch : Obligations.MhFindAnswersNearestMatch := by
  rintro triple h s t rfl
  obtain ⟨s', hx, ho, hc⟩ := exec_by_session (i := .mhFind triple h) (s := s) rfl
  refine ⟨s', hx, ho, fun hs hb => ?_, fun hs hb hD => ?_, fun d hs hb hd hleast => ?_⟩
  · rw [hc hs, readTriple_none hb]
    exact raise_onlyReports .badParam s
  · rw [hc hs, readTriple_some hb]
    dsimp only
    rw [Lzm.find_eq_zero hD]
    exact finish_onlyReports .ok _ s
  · rw [hc hs, readTriple_some hb]
    dsimp only
    rw [Lzm.find_eq_least hd hleast]
    exact finish_onlyReports .ok _ s

/-- Settles O43: the chain keeps every live entry with the triple's bytes. -/
theorem chainedHashAnswersAsMhFind : Obligations.ChainedHashAnswersAsMhFind := Lzm.chainedFind_eq_find

/-- Settles O44: D holds no distance below 3, and holds 3 exactly when the completed triple was inserted. -/
theorem recordedTripleIsFound : Obligations.RecordedTripleIsFound := by
  intro l b hl h2
  refine ⟨Lzm.find_eq_least ((Lzm.record_inD_completed b true hl h2).2 rfl) fun e he => ?_, ?_⟩
  · exact (le_max_right _ _).trans he.1
  · exact Lzm.find_ne_of_not_inD (by decide) fun hin => Bool.false_ne_true ((Lzm.record_inD_completed b false hl h2).1 hin)

end Sys2Proof.Proofs

/-! SUPPORT. The decoder's commands outside Run (42_decoder.md R161 to R165): what DEC.START's operand holds, the outcomes of
DEC.DICT in their order, the registers DEC.STATUS packs, and the byte DEC.ONE loads. -/

namespace Sys2Proof.Machine

/-! ## DEC.STATUS (R165) -/

/-- The fields of DEC.STATUS's VALUE (30_encoding.md R92). -/
theorem engineValue_fields (d : Dbd) :
    (engineValue d).extractLsb' 0 5 = d.dstate.code ∧ (engineValue d).getLsbD 5 = d.hold ∧
      (engineValue d).getLsbD 6 = d.bfinal ∧ (engineValue d).getLsbD 7 = d.outv ∧
      (engineValue d).extractLsb' 8 8 = d.err ∧ (engineValue d).extractLsb' 16 4 = d.bitcnt ∧
      (engineValue d).extractLsb' 20 12 = 0 := by
  unfold engineValue
  refine ⟨?_, ?_, ?_, ?_, ?_, ?_, ?_⟩
  case refine_2 | refine_3 | refine_4 =>
    simp only [BitVec.getLsbD_append]
    simp
  all_goals
    refine BitVec.eq_of_getLsbD_eq fun j hj => ?_
    simp only [BitVec.getLsbD_extractLsb', BitVec.getLsbD_append, hj, decide_true, Bool.true_and]
  · rw [if_pos (by omega), Nat.zero_add]
  · rw [if_neg (by omega), if_neg (by omega), if_neg (by omega), if_neg (by omega), if_pos (by omega),
      show 8 + j - 5 - 1 - 1 - 1 = j by omega]
  · rw [if_neg (by omega), if_neg (by omega), if_neg (by omega), if_neg (by omega), if_neg (by omega), if_pos (by omega),
      show 16 + j - 5 - 1 - 1 - 1 - 8 = j by omega]
  · rw [if_neg (by omega), if_neg (by omega), if_neg (by omega), if_neg (by omega), if_neg (by omega), if_neg (by omega)]
    simp

/-! ## DEC.START (R161) -/

theorem execDecStart_badParam {p : Word} (s : State) (h : p.extractLsb' 11 21 ≠ 0) :
    execDecStart p s = .next (raise .badParam s) := by
  rw [execDecStart, readStart, if_neg h]

/-- The fields of a START operand whose high bits are 0. -/
def startParams (p : Word) : StartParams := ⟨p.extractLsb' 0 4, p.extractLsb' 4 4, p.extractLsb' 8 2, p.getLsbD 10⟩

theorem execDecStart_fields {p : Word} (s : State) (h : p.extractLsb' 11 21 = 0) :
    execDecStart p s = .next (if p.extractLsb' 0 4 = 8 ∧ (p.extractLsb' 4 4).toNat ≤ 7
      then finish .ok 0 (startSession (startParams p) s) else raise .unsupported s) := by
  rw [execDecStart, readStart, if_pos h]
  simp [StartParams.supported, startParams]

/-- WB takes the low three bits of the window size. -/
theorem windowBits_low (p : Word) : (p.extractLsb' 4 4).setWidth 3 = p.extractLsb' 4 3 := by
  refine BitVec.eq_of_getLsbD_eq fun j hj => ?_
  simp [hj, show j < 4 by omega]

/-! ## DEC.DICT (R162) -/

theorem execDecDict_closed (v : Word) {s : State} (ho : sessionOpen s = false) :
    execDecDict v s = .next (raise .badState s) := by
  simp [execDecDict, ho]

theorem execDecDict_open {v : Word} {s : State} (ho : sessionOpen s = true) :
    execDecDict v s = .next (match readBm1 v with
      | some .minusOne => finish .ok 0 s
      | none => raise .badParam s
      | some (.byte b) =>
        if !s.dbd.preset then raise .unsupported s
        else if !s.dbd.dictOpen then raise .badState s
        else finish .ok 0 (s.setLzm (s.lzm.record b true))) := by
  simp only [execDecDict, ho]
  rfl

theorem execDecDict_minusOne {s : State} (ho : sessionOpen s = true) :
    execDecDict 0xFFFFFFFF s = .next (finish .ok 0 s) := by
  rw [execDecDict_open ho, readBm1_minusOne]

theorem execDecDict_badParam {v : Word} {s : State} (ho : sessionOpen s = true) (hv : ¬IsBm1 v) :
    execDecDict v s = .next (raise .badParam s) := by
  rw [execDecDict_open ho, readBm1_none hv]

theorem execDecDict_byte {v : Word} {s : State} (ho : sessionOpen s = true) (hv : v.toNat ≤ 255) :
    execDecDict v s = .next (if s.dbd.preset = false then raise .unsupported s
      else if s.dbd.dictOpen = false then raise .badState s
      else finish .ok 0 (s.setLzm (s.lzm.record (BitVec.ofNat 8 v.toNat) true))) := by
  rw [execDecDict_open ho, readBm1_byte hv]
  simp only [Bool.not_eq_true']

/-! ## DEC.ONE (R163) -/

/-- What DEC.ONE loads, by its operand's word. -/
theorem exists_loadByte {v : Word} (hv : IsBm1 v) : ∃ x, readBm1 v = some x ∧ ∀ s : State, loadByte x s =
    if s.dbd.hold = false ∧ v ≠ 0xFFFFFFFF ∧ s.dbd.dstate ≠ .done then
      { s with dbd := { s.dbd with bitbuf := BitVec.ofNat 8 v.toNat, bitcnt := 8, dictOpen := false } }
    else s := by
  rcases hv with rfl | hv
  · exact ⟨_, readBm1_minusOne, fun s => (if_neg (by simp)).symm⟩
  · refine ⟨_, readBm1_byte hv, fun s => ?_⟩
    have hne : v ≠ 0xFFFFFFFF := by rintro rfl; exact absurd hv (by decide)
    simp only [loadByte, Bool.not_eq_true', ne_eq, hne, not_false_eq_true, true_and]
    rfl

/-! ## DEC.FINISH (R164) -/

/-- Done stops Run (R170). -/
theorem microStep_done {s : State} (hd : s.dbd.dstate = .done) (ho : s.dbd.outv = false) : microStep s = .stop .done s := by
  simp [microStep, ho, engineStep, hd]

theorem finishEnd_htg (r : Code × State) : (finishEnd r).htg = r.2.htg := by
  obtain ⟨c, t⟩ := r
  cases c <;> rfl

end Sys2Proof.Machine

/-! SUPPORT. The statements of 42_decoder.md §1: each command of the decoder, case by case. -/

namespace Sys2Proof.Proofs
open Sys2Proof.Machine

/-- Settles O16, by the fields of VALUE. -/
theorem nopAndStatusOnlyReport : Obligations.NopAndStatusOnlyReport := fun s =>
  ⟨⟨_, rfl, finish_onlyReports .ok 0 s⟩, _, rfl, finish_onlyReports .ok _ s, engineValue_fields s.dbd⟩

/-- Settles O45: the operand's fields decide. -/
theorem decStartOpensASession : Obligations.DecStartOpensASession := by
  intro p s
  by_cases hp : p.extractLsb' 11 21 = 0
  · refine ⟨_, execDecStart_fields s hp, fun h => absurd hp h, fun _ h => ?_, fun _ hm hw => ?_⟩
    · rw [if_neg fun ⟨h1, h2⟩ => h.elim (absurd h1) (not_lt.2 h2)]
      exact raise_onlyReports .unsupported s
    · rw [if_pos ⟨hm, hw⟩]
      exact ⟨rfl, rfl, windowBits_low p, rfl, rfl, fun _ => rfl, fun _ => rfl, rfl, rfl, rfl, rfl, rfl⟩
  · exact ⟨_, execDecStart_badParam s hp, fun _ => raise_onlyReports .badParam s, fun h => absurd h hp, fun h => absurd h hp⟩

/-- Settles O46, check by check. -/
theorem decDictPreloadsTheRing : Obligations.DecDictPreloadsTheRing := by
  intro v s
  obtain ⟨t, ht⟩ : ∃ t, execDecDict v s = .next t := ⟨_, rfl⟩
  have answer : ∀ {u}, execDecDict v s = .next u → t = u := fun hu => Host.Outcome.next.inj (ht.symm.trans hu)
  refine ⟨t, ht, fun ho => ?_, fun ho hv => ?_, fun ho hv => ?_, fun ho hv hp => ?_, fun ho hv hp hd => ?_,
    fun ho hv hp hd => ?_⟩
  · rw [answer (execDecDict_closed v ho)]
    exact raise_onlyReports .badState s
  · subst hv
    rw [answer (execDecDict_minusOne ho)]
    exact finish_onlyReports .ok 0 s
  · rw [answer (execDecDict_badParam ho hv)]
    exact raise_onlyReports .badParam s
  · rw [answer (execDecDict_byte ho hv), if_pos hp]
    exact raise_onlyReports .unsupported s
  · rw [answer (execDecDict_byte ho hv), hp, if_neg nofun, if_pos hd]
    exact raise_onlyReports .badState s
  · rw [answer (execDecDict_byte ho hv), hp, hd, if_neg nofun, if_neg nofun]
    exact ⟨rfl, rfl, rfl, setLzm_onlyLzm .ok 0 s _⟩

/-- Settles O47, case by case of the decoder's state and of the operand. -/
theorem decOneRunsTheEngine : Obligations.DecOneRunsTheEngine := by
  intro v s
  refine ⟨?_, fun hd => ⟨_, execDecOne_error v hd, finishBits_onlyReports _ _ _⟩, fun ho hv => ?_, ?_⟩
  · rintro (hd | hd)
    · exact ⟨_, execDecOne_idle v hd, raise_onlyReports .badState s⟩
    · exact ⟨_, execDecOne_closed v hd, raise_onlyReports .badState s⟩
  · exact ⟨_, execDecOne_badParam ho (readBm1_none hv), raise_onlyReports .badParam s⟩
  · rintro r _ s2 ho hv rfl hrun
    obtain ⟨x, hx, hload⟩ := exists_loadByte hv
    refine (execDecOne_open ho hx).trans ?_
    rw [hload, runEngine, hrun]
    rfl

/-- Settles O48, by what Run returned. -/
theorem decFinishClosesTheSession : Obligations.DecFinishClosesTheSession := by
  intro s
  refine ⟨fun hd => ⟨_, execDecFinish_idle hd, raise_onlyReports .badState s⟩,
    fun hd => ⟨_, execDecFinish_closed hd, finish_onlyReports .done 0 s⟩,
    fun hd => ⟨_, execDecFinish_error hd, finishBits_onlyReports _ _ _⟩, fun r s2 ho hrun => ?_, fun hd ho => ?_⟩
  · refine ⟨finishEnd (r, s2), by rw [← hrun]; exact execDecFinish_open ho, ?_⟩
    obtain ⟨hcmd, hdata, hlzm, hvalue⟩ := finishEnd_frame (r, s2)
    refine ⟨hvalue, finishEnd_htg _, hlzm, ⟨hcmd, hdata, finishEnd_env _⟩, ?_, ?_, ?_, fun h1 h2 h3 => ?_⟩
    · rintro rfl
      exact ⟨rfl, rfl⟩
    · rintro rfl
      exact ⟨rfl, rfl⟩
    · rintro rfl
      exact ⟨rfl, rfl⟩
    · rw [finishEnd_other _ h1 h2 h3]
      exact ⟨rfl, rfl⟩
  · have hopen : sessionOpen s = true := (sessionOpen_iff s).2 (by simp [hd])
    have hrun : runEngine s = (.done, s) := run_stop (microStep_done hd ho)
    refine ⟨finishEnd (.done, s), by rw [← hrun]; exact execDecFinish_open hopen, rfl, rfl, rfl, rfl, rfl, rfl, rfl, rfl⟩

/-- Settles O20: in Error no session is open, so no command runs the engine. -/
theorem errorIsSticky : Obligations.ErrorIsSticky := by
  intro s hd
  have hclosed : sessionOpen s = false := by rw [sessionOpen, hd]; rfl
  have hno : sessionOpen s ≠ true := by simp [hclosed]
  refine ⟨fun i t hi h => ?_, fun v => ⟨_, execDecOne_error v hd, finishBits_onlyReports _ _ _⟩,
    ⟨_, execDecFinish_error hd, finishBits_onlyReports _ _ _⟩,
    fun v => ⟨_, execDecDict_closed v hclosed, raise_onlyReports .badState s⟩⟩
  refine exec_next_satisfies (P := fun t => t.dbd = s.dbd) h (fun e he => ?_) (fun _ ho => absurd ho hno)
    (fun ho => absurd ho hno)
  cases e with
  | start p =>
    obtain ⟨w, hw⟩ := he
    exact absurd hw (hi w)
  | report c v => rfl
  | sticky => rfl
  | table t es => rfl
  | hist v => rfl
  | ring l => rfl

end Sys2Proof.Proofs

/-! SUPPORT. How a micro-step ends, and how many of them Run takes (42_decoder.md R170, R176, R198): every failure has gone
through Fail, and a cost that each micro-step lowers bounds their number. -/

namespace Sys2Proof.Machine

/-! ## The ends of a micro-step -/

theorem Micro.Satisfies.imp {P P' : State → Prop} {Q Q' : Code → State → Prop} {m : Micro} (h : m.Satisfies P Q)
    (hP : ∀ t, P t → P' t) (hQ : ∀ c t, Q c t → Q' c t) : m.Satisfies P' Q' := by
  cases m with
  | cont t => exact hP t h
  | stop c t => exact hQ c t h

/-- What a micro-step with no byte pending stops with: Ok, Done, or a failure Fail has entered, never LoopedState. -/
def EngineEnd (c : Code) (t : State) : Prop :=
  c = .ok ∨ c = .done ∨ (c ∈ [Code.badCodeLength, .codeExcess, .badBlockType, .corruptLength] ∧ ∃ u, t = fail c u)

/-- What Run stops with before its last micro-step: a refused byte as well. -/
def RunEnd (c : Code) (t : State) : Prop := c = .overflow ∨ EngineEnd c t

theorem EngineEnd.failed {c : Code} (s : State) (h : c ∈ [Code.badCodeLength, .codeExcess, .badBlockType, .corruptLength]) :
    EngineEnd c (fail c s) :=
  .inr (.inr ⟨h, s, rfl⟩)

theorem EngineEnd.ne_overflow {c : Code} {t : State} (h : EngineEnd c t) : c ≠ .overflow := by
  rcases h with rfl | rfl | ⟨hc, -⟩
  · decide
  · decide
  · rintro rfl; exact absurd hc (by decide)

theorem RunEnd.ne_loopedState {c : Code} {t : State} (h : RunEnd c t) : c ≠ .loopedState := by
  rcases h with rfl | rfl | rfl | ⟨hc, -⟩
  · decide
  · decide
  · decide
  · rintro rfl; exact absurd hc (by decide)

/-! ## What a transition does to BITCNT and DSTATE -/

/-- `t` holds no more bits than `s`, and copies from the history only where `s` reads a distance. -/
def Advances (s t : State) : Prop :=
  t.dbd.bitcnt.toNat ≤ s.dbd.bitcnt.toNat ∧
    (t.dbd.dstate = .copyFromHistory → s.dbd.dstate = .readDistance ∨ s.dbd.dstate = .readDistanceExtra)

/-- What a transition of `s` may answer. -/
abbrev Runs (s : State) : Micro → Prop := Micro.Satisfies (Advances s) EngineEnd

/-- `t` holds the bits of `s` and stands in its state. -/
def SamePhase (s t : State) : Prop := t.dbd.bitcnt = s.dbd.bitcnt ∧ t.dbd.dstate = s.dbd.dstate

theorem SamePhase.advances {s t : State} (h : SamePhase s t) (hd : s.dbd.dstate ≠ .copyFromHistory) : Advances s t :=
  ⟨le_of_eq (congrArg BitVec.toNat h.1), fun hc => absurd (h.2.symm.trans hc) hd⟩

theorem SamePhase.runs {s t : State} (h : SamePhase s t) {m : Micro} (hm : Runs t m) : Runs s m := by
  refine hm.imp (fun u hu => ?_) fun _ _ hc => hc
  obtain ⟨hb, hd⟩ := hu
  exact ⟨by rw [← h.1]; exact hb, fun hc => by rw [← h.2]; exact hd hc⟩

theorem fieldState_samePhase (n : Nat) (bit : Bool) (s : State) : SamePhase s (fieldState n bit s) := by
  unfold fieldState; split <;> exact ⟨rfl, rfl⟩

theorem codeState_samePhase (t : Slot) (m : Nat) (bit : Bool) (s : State) : SamePhase s (codeState t m bit s) := by
  unfold codeState; split <;> exact ⟨rfl, rfl⟩

theorem appendLens_samePhase (v n : Nat) (s : State) : SamePhase s (appendLens v n s) := by
  induction n generalizing s with
  | zero => exact ⟨rfl, rfl⟩
  | succ n ih => rw [appendLens_succ]; exact ih _

theorem endOfBlock_advances (s : State) {d : Dbd} (hb : d.bitcnt = s.dbd.bitcnt) : Advances s (s.setDbd (endOfBlock d)) := by
  unfold endOfBlock
  split
  · exact ⟨Nat.zero_le _, nofun⟩
  · exact ⟨le_of_eq (congrArg BitVec.toNat hb), nofun⟩

theorem lensDone_advances {s t : State} (h : Advances s t) : Advances s (lensDone t) := by
  unfold lensDone
  split
  · exact ⟨h.1, nofun⟩
  · exact h

theorem assignSlot_cases (t : Slot) (n : Nat) (s : State) :
    (∃ c, assignSlot t n s = .error c ∧ (c = .codeExcess ∨ c = .badCodeLength))
      ∨ ∃ es, assignSlot t n s = .ok (s.setTable t es) := by
  unfold assignSlot
  split
  · rename_i c hc; exact .inl ⟨c, rfl, canonical_error hc⟩
  · exact .inr ⟨_, rfl⟩

theorem EngineEnd.canonical {c : Code} (h : c = .codeExcess ∨ c = .badCodeLength) (s : State) : EngineEnd c (fail c s) :=
  .failed s (by rcases h with rfl | rfl <;> decide)

theorem onBlockHeader_runs (v : Word) (s : State) : Runs s (onBlockHeader v s) := by
  unfold onBlockHeader
  split
  · exact ⟨Nat.zero_le _, nofun⟩
  · exact ⟨le_rfl, nofun⟩
  · exact ⟨le_rfl, nofun⟩
  · exact .failed _ (by decide)

theorem onRawLength_runs (v : Word) (s : State) : Runs s (onRawLength v s) := by
  unfold onRawLength
  split
  · exact .failed _ (by decide)
  · split
    · exact endOfBlock_advances s rfl
    · exact ⟨le_rfl, nofun⟩

theorem onRawByte_runs (v : Word) {s : State} (hd : s.dbd.dstate ≠ .copyFromHistory) : Runs s (onRawByte v s) := by
  unfold onRawByte
  dsimp only
  show Advances s _
  split
  · exact endOfBlock_advances s rfl
  · exact ⟨le_rfl, fun h => absurd h hd⟩

theorem onAlphabetHeader_runs (v : Word) (s : State) : Runs s (onAlphabetHeader v s) := by
  unfold onAlphabetHeader
  dsimp only
  split
  · exact .failed _ (by decide)
  · exact ⟨le_rfl, nofun⟩

theorem finishAlphabet_runs (s : State) : Runs s (finishAlphabet s) := by
  unfold finishAlphabet
  rcases assignSlot_cases .cl 19 s with ⟨c, h, hc⟩ | ⟨es, h⟩ <;> rw [h]
  · exact .canonical hc s
  · exact ⟨le_rfl, nofun⟩

theorem onAlphabetLength_runs (v : Word) {s : State} (hd : s.dbd.dstate ≠ .copyFromHistory) :
    Runs s (onAlphabetLength v s) := by
  unfold onAlphabetLength
  dsimp only
  split
  · exact finishAlphabet_runs _
  · exact ⟨le_rfl, fun h => absurd h hd⟩

theorem onLengthSymbol_runs (sym : Nat) {s : State} (hd : s.dbd.dstate ≠ .copyFromHistory) :
    Runs s (onLengthSymbol sym s) := by
  unfold onLengthSymbol
  split
  · exact lensDone_advances ((appendLens_samePhase sym 1 s).advances hd)
  · split
    · exact .failed _ (by decide)
    · exact ⟨le_rfl, nofun⟩

theorem onRepeat_runs (v : Word) (s : State) : Runs s (onRepeat v s) := by
  unfold onRepeat
  dsimp only
  split
  · exact .failed _ (by decide)
  · exact lensDone_advances ⟨le_of_eq (congrArg BitVec.toNat (appendLens_samePhase _ _ s).1), nofun⟩

theorem onLiteralOrLength_runs (sym : Nat) {s : State} (hd : s.dbd.dstate ≠ .copyFromHistory) :
    Runs s (onLiteralOrLength sym s) := by
  unfold onLiteralOrLength
  split
  · exact ⟨le_rfl, fun h => absurd h hd⟩
  · split
    · exact endOfBlock_advances s rfl
    · split
      · generalize sym - 257 = k
        refine ⟨le_rfl, fun h => ?_⟩
        dsimp only [State.setDbd_dbd] at h
        split at h <;> cases h
      · exact .failed _ (by decide)

theorem onDistance_runs (sym : Nat) {s : State} (hd : s.dbd.dstate = .readDistance) : Runs s (onDistance sym s) := by
  unfold onDistance
  split
  · exact .failed _ (by decide)
  · refine ⟨?_, fun _ => .inl hd⟩
    dsimp only [State.setDbd_dbd]
    split <;> exact le_rfl

/-- The micro-step of a state that reads a field of `n` bits and takes the transition `act` on the whole of it (R172). -/
def fieldStep (n : Nat) (act : Word → State → Micro) (bit : Bool) (s : State) : Micro :=
  match readField n bit s with
  | none => .cont (fieldState n bit s)
  | some v => act v (fieldState n bit s)

/-- The micro-step of a state that reads a code of slot `t` and takes the transition `act` on its symbol (R173). -/
def codeStep (t : Slot) (m : Nat) (act : Nat → State → Micro) (bit : Bool) (s : State) : Micro :=
  match readCode t m bit s with
  | .pending => .cont (codeState t m bit s)
  | .symbol n => act n (codeState t m bit s)
  | .bad => failStep .badCodeLength (codeState t m bit s)

/-- The transition on the extra bits of a length (R189). -/
def onLengthExtra (v : Word) (s : State) : Micro :=
  .cont (s.setDbd { s.dbd with length := s.dbd.length + v.setWidth 9, dstate := .readDistance })

/-- The transition on the extra bits of a distance (R192). -/
def onDistanceExtra (v : Word) (s : State) : Micro :=
  .cont (s.setDbd (startCopy { s.dbd with dist := s.dbd.dist + v.setWidth 16 }))

/-- The micro-step of each state that takes a bit is that of a field or of a code. -/
theorem bitStep_eq (bit : Bool) (s : State) : bitStep bit s =
    match s.dbd.dstate with
    | .readBlockHeader => fieldStep 3 onBlockHeader bit s
    | .rawLength => fieldStep 32 onRawLength bit s
    | .rawBytes => fieldStep 8 onRawByte bit s
    | .readCodeLengthAlphabetHeader => fieldStep 14 onAlphabetHeader bit s
    | .readCodeLengthAlphabet => fieldStep 3 onAlphabetLength bit s
    | .readCodeLengths => codeStep .cl 7 onLengthSymbol bit s
    | .readCodeLengthExtra => fieldStep (repExtra s.dbd.rep.toNat) onRepeat bit s
    | .readLiteralOrLength => codeStep .ll 15 onLiteralOrLength bit s
    | .readLengthExtra => fieldStep (lenExtra.getD s.dbd.lsym.toNat 0) onLengthExtra bit s
    | .readDistance => codeStep .dist 15 onDistance bit s
    | .readDistanceExtra => fieldStep (distExtra.getD s.dbd.dsym.toNat 0) onDistanceExtra bit s
    | .idle | .fixedOrDynamicSetup | .copyFromHistory | .done | .error | .closed => .cont s := by
  unfold bitStep
  cases s.dbd.dstate <;> rfl

theorem fieldStep_runs {n : Nat} {bit : Bool} {s : State} {act : Word → State → Micro}
    (hd : s.dbd.dstate ≠ .copyFromHistory) (h : ∀ v t, t.dbd.dstate = s.dbd.dstate → Runs t (act v t)) :
    Runs s (fieldStep n act bit s) := by
  have hs := fieldState_samePhase n bit s
  unfold fieldStep
  split
  · exact hs.advances hd
  · exact hs.runs (h _ _ hs.2)

theorem codeStep_runs {t : Slot} {m : Nat} {bit : Bool} {s : State} {act : Nat → State → Micro}
    (hd : s.dbd.dstate ≠ .copyFromHistory) (h : ∀ n u, u.dbd.dstate = s.dbd.dstate → Runs u (act n u)) :
    Runs s (codeStep t m act bit s) := by
  have hs := codeState_samePhase t m bit s
  unfold codeStep
  split
  · exact hs.advances hd
  · exact hs.runs (h _ _ hs.2)
  · exact .failed _ (by decide)

theorem bitStep_runs (bit : Bool) {s : State} (hn : s.dbd.dstate ≠ .copyFromHistory) : Runs s (bitStep bit s) := by
  rw [bitStep_eq]
  split <;> rename_i hd
  · exact fieldStep_runs hn fun v t _ => onBlockHeader_runs v t
  · exact fieldStep_runs hn fun v t _ => onRawLength_runs v t
  · exact fieldStep_runs hn fun v t ht => onRawByte_runs v (ht.trans_ne hn)
  · exact fieldStep_runs hn fun v t _ => onAlphabetHeader_runs v t
  · exact fieldStep_runs hn fun v t ht => onAlphabetLength_runs v (ht.trans_ne hn)
  · exact codeStep_runs hn fun n t ht => onLengthSymbol_runs n (ht.trans_ne hn)
  · exact fieldStep_runs hn fun v t _ => onRepeat_runs v t
  · exact codeStep_runs hn fun n t ht => onLiteralOrLength_runs n (ht.trans_ne hn)
  · exact fieldStep_runs hn fun _ _ _ => ⟨le_rfl, nofun⟩
  · exact codeStep_runs hn fun n t ht => onDistance_runs n (ht.trans hd)
  · exact fieldStep_runs hn fun _ _ ht => ⟨le_rfl, fun _ => .inr (ht.trans hd)⟩
  all_goals exact ⟨le_rfl, fun h => absurd h hn⟩

/-- The setup goes on to the compressed data with the bits it found, or fails. -/
theorem stepSetup_runs (s : State) : (stepSetup s).Satisfies
    (fun t => t.dbd.bitcnt = s.dbd.bitcnt ∧ t.dbd.outv = s.dbd.outv ∧ t.dbd.dstate = .readLiteralOrLength) EngineEnd := by
  unfold stepSetup
  split
  · exact ⟨rfl, rfl, rfl⟩
  · unfold setupDynamic
    rcases assignSlot_cases .ll s.dbd.hlit.toNat s with ⟨c, h, hc⟩ | ⟨es, h⟩ <;> rw [h] <;> dsimp only
    · exact .canonical hc s
    · rcases assignSlot_cases .dist s.dbd.hdist.toNat (s.setTable .ll es) with ⟨c, h, hc⟩ | ⟨es', h⟩ <;> rw [h]
      · exact .canonical hc _
      · exact ⟨rfl, rfl, rfl⟩

/-- How a micro-step with no byte pending ends, from any state. -/
theorem engineStep_ends (s : State) : (engineStep s).Satisfies (fun _ => True) EngineEnd := by
  have hi : s.dbd.dstate ≠ .copyFromHistory → (inputStep s).Satisfies (fun _ => True) EngineEnd := by
    intro hd
    unfold inputStep
    split
    · exact .inl rfl
    · exact (bitStep_runs (nextBit s) (s := dropBit s) hd).imp (fun _ _ => trivial) fun _ _ h => h
  unfold engineStep
  split <;> rename_i hd
  · exact .inr (.inl rfl)
  · trivial
  · exact (stepSetup_runs s).imp (fun _ _ => trivial) fun _ _ h => h
  all_goals exact hi (by simp [hd])

theorem microStep_ends (s : State) : (microStep s).Satisfies (fun _ => True) RunEnd := by
  unfold microStep
  split
  · rcases drainStep_cases s with ⟨-, h⟩ | ⟨-, h⟩ <;> rw [h]
    · exact .inl rfl
    · trivial
  · exact (engineStep_ends s).imp (fun _ h => h) fun _ _ h => .inr h

/-- Run ends with Overflow, Ok or Done, or with a failure Fail has entered. -/
theorem run_ends (n : Nat) (s : State) :
    ((run n s).1 = .overflow ∨ (run n s).1 = .ok ∨ (run n s).1 = .done) ∨ ∃ u, (run n s).2 = fail (run n s).1 u := by
  refine run_induct (P := fun _ => True)
    (Q := fun c t => (c = .overflow ∨ c = .ok ∨ c = .done) ∨ ∃ u, t = fail c u) (fun t _ => ?_)
    (fun t _ => .inr ⟨t, rfl⟩) n s trivial
  refine (microStep_ends t).imp (fun _ h => h) fun c u h => ?_
  rcases h with h | h | h | ⟨-, h⟩
  · exact .inl (.inl h)
  · exact .inl (.inr (.inl h))
  · exact .inl (.inr (.inr h))
  · exact .inr h

/-! ## The error entry (R176) -/

/-- The state of a session that has failed with the code in STATUS. -/
def EnteredError (t : State) : Prop :=
  t.dbd.dstate = .error ∧ t.dbd.err.zeroExtend 32 = t.status ∧ t.dbd.bitcnt = 0 ∧ t.dbd.outv = false ∧ t.dbd.hold = false

/-- STATUS holds one of the codes Fail is called with. -/
def ReportsFailure (t : State) : Prop := 0x14 ≤ t.status.toNat ∧ t.status.toNat ≤ 0x19

theorem finish_fail_entered (c : Code) (v : Word) (s : State) : EnteredError (finish c v (fail c s)) :=
  ⟨rfl, rfl, rfl, rfl, rfl⟩

/-- The codes a command may end with outside Fail are no failures of R232. -/
theorem not_reportsFailure {c : Code} (hc : c = .overflow ∨ c = .ok ∨ c = .done ∨ c = .badParam) (v : Word) (s : State) :
    ¬ReportsFailure (finish c v s) := by
  show ¬(0x14 ≤ c.word.toNat ∧ c.word.toNat ≤ 0x19)
  rcases hc with rfl | rfl | rfl | rfl <;> decide

theorem oneEnd_enteredError {n : Nat} {s : State} (h : ReportsFailure (oneEnd (run n s))) :
    EnteredError (oneEnd (run n s)) := by
  have hno : ¬((run n s).1 = .overflow ∨ (run n s).1 = .ok ∨ (run n s).1 = .done) := fun hc =>
    not_reportsFailure (hc.imp_right (Or.imp_right .inl)) 0 _ h
  obtain ⟨u, hu⟩ := (run_ends n s).resolve_left hno
  have hhold : ((run n s).1 == Code.overflow) = false := beq_false_of_ne fun hc => hno (.inl hc)
  rw [oneEnd, hhold, hu, setHold_fail]
  exact finish_fail_entered _ 0 u

theorem finishEnd_enteredError {n : Nat} {s : State} (h : ReportsFailure (finishEnd (run n s))) :
    EnteredError (finishEnd (run n s)) := by
  have hends := run_ends n s
  generalize run n s = r at h hends
  obtain ⟨c, t⟩ := r
  change (c = .overflow ∨ c = .ok ∨ c = .done) ∨ ∃ u, t = fail c u at hends
  by_cases h1 : c = .overflow
  · subst h1; exact absurd h (not_reportsFailure (.inl rfl) 0 _)
  · by_cases h2 : c = .done
    · subst h2; exact absurd h (not_reportsFailure (.inr (.inr (.inl rfl))) 0 _)
    · by_cases h3 : c = .ok
      · subst h3; exact finish_fail_entered .eof 0 _
      · obtain ⟨u, rfl⟩ := hends.resolve_left fun hc => hc.elim h1 fun hc => hc.elim h3 h2
        rw [finishEnd_other _ h1 h2 h3, setHold_fail]
        exact finish_fail_entered c 0 u

/-! ## The number of micro-steps (R198) -/

/-- The micro-steps a decoder state still owes before it needs a bit: two for each byte of a copy, one for a setup. Where
the distance of a length is read, half of the longest copy is owed ahead, so that the copy is paid by two bits. -/
def Dbd.owed (d : Dbd) : Nat :=
  match d.dstate with
  | .copyFromHistory => 2 * d.rem.toNat
  | .readLengthExtra | .readDistance | .readDistanceExtra => 258
  | .fixedOrDynamicSetup => 1
  | .idle | .readBlockHeader | .rawLength | .rawBytes | .readCodeLengthAlphabetHeader | .readCodeLengthAlphabet
  | .readCodeLengths | .readCodeLengthExtra | .readLiteralOrLength | .done | .error | .closed => 0

/-- A bound on the micro-steps Run takes: 260 for each bit held, one for a byte pending, and what the state owes. -/
def Dbd.cost (d : Dbd) : Nat := 260 * d.bitcnt.toNat + d.outv.toNat + d.owed

theorem Dbd.owed_le_of_ne_copy {d : Dbd} (hd : d.dstate ≠ .copyFromHistory) : d.owed ≤ 258 := by
  unfold Dbd.owed
  split
  · contradiction
  all_goals omega

theorem Dbd.owed_of_distance {d : Dbd} (hd : d.dstate = .readDistance ∨ d.dstate = .readDistanceExtra) : d.owed = 258 := by
  rcases hd with hd | hd <;> simp only [Dbd.owed, hd]

theorem EngInv.rem_le {s : State} (h : EngInv s) (hd : s.dbd.dstate = .copyFromHistory) :
    1 ≤ s.dbd.rem.toNat ∧ s.dbd.rem.toNat ≤ 258 := by
  have hp := h.phase
  simp only [phaseOk, hd] at hp
  exact hp.2.1

/-- No state owes more than the longest copy. -/
theorem EngInv.owed_le {s : State} (h : EngInv s) : s.dbd.owed ≤ 516 := by
  by_cases hd : s.dbd.dstate = .copyFromHistory
  · have := (h.rem_le hd).2
    simp only [Dbd.owed, hd]; omega
  · exact (Dbd.owed_le_of_ne_copy hd).trans (by omega)

/-- From the invariant Run takes fewer than 2700 micro-steps. -/
theorem EngInv.cost_lt {s : State} (h : EngInv s) : s.dbd.cost < 2700 := by
  have hb := h.bits
  have ho := h.owed_le
  have hv := s.dbd.outv.toNat_le
  unfold Dbd.cost
  omega

/-- A micro-step that takes a bit costs at most what the bit pays. -/
theorem Advances.cost_lt {s t : State} (h : Advances s t) (ht : EngInv t) :
    t.dbd.cost < 260 * (s.dbd.bitcnt.toNat + 1) + s.dbd.owed := by
  have hv := t.dbd.outv.toNat_le
  have hb := h.1
  unfold Dbd.cost
  by_cases hd : t.dbd.dstate = .copyFromHistory
  · have ho := ht.owed_le
    have hs := Dbd.owed_of_distance (h.2 hd)
    omega
  · have ho := Dbd.owed_le_of_ne_copy hd
    omega

theorem inputStep_cost {s : State} (h : EngInv s) (hd : s.dbd.dstate ≠ .done)
    (hn : s.dbd.dstate ≠ .copyFromHistory) : (inputStep s).Satisfies (fun t => t.dbd.cost < s.dbd.cost) fun _ _ => True := by
  unfold inputStep
  split
  · trivial
  · rename_i hb
    have hgood := bitStep_good (nextBit s) (dropBit_good h hb hd)
    have hruns := bitStep_runs (nextBit s) (s := dropBit s) hn
    have hbits : (s.dbd.bitcnt - 1).toNat + 1 = s.dbd.bitcnt.toNat := by bv_omega
    cases hm : bitStep (nextBit s) (dropBit s) with
    | stop c t => trivial
    | cont t =>
      rw [hm] at hgood hruns
      have hlt := Advances.cost_lt hruns hgood
      have howed : (dropBit s).dbd.owed = s.dbd.owed := rfl
      change t.dbd.cost < 260 * ((s.dbd.bitcnt - 1).toNat + 1) + (dropBit s).dbd.owed at hlt
      rw [howed, hbits] at hlt
      show t.dbd.cost < s.dbd.cost
      unfold Dbd.cost at hlt ⊢
      omega

/-- Every micro-step after which the loop goes on lowers the cost. -/
theorem microStep_cost {s : State} (h : EngInv s) :
    (microStep s).Satisfies (fun t => t.dbd.cost < s.dbd.cost) fun _ _ => True := by
  unfold microStep
  split <;> rename_i ho
  · rcases drainStep_cases s with ⟨-, e⟩ | ⟨-, e⟩ <;> rw [e]
    · trivial
    · show Dbd.cost { s.dbd with outv := false } < s.dbd.cost
      have howed : Dbd.owed { s.dbd with outv := false } = s.dbd.owed := rfl
      simp only [Dbd.cost, howed, ho, Bool.toNat_true, Bool.toNat_false]
      omega
  · have ho : s.dbd.outv = false := by simpa using ho
    unfold engineStep
    split <;> rename_i hd
    · trivial
    · have hrem := h.rem_le hd
      have e : (s.dbd.rem - 1).toNat = s.dbd.rem.toNat - 1 := by bv_omega
      have hs : s.dbd.cost = 260 * s.dbd.bitcnt.toNat + 2 * s.dbd.rem.toNat := by
        simp only [Dbd.cost, Dbd.owed, ho, hd, Bool.toNat_false, Nat.add_zero]
      unfold copyStep
      dsimp only
      show Dbd.cost (if _ then _ else _) < _
      rw [hs]
      split
      · simp only [Dbd.cost, Dbd.owed, emit, Bool.toNat_true]
        omega
      · simp only [Dbd.cost, Dbd.owed, emit, hd, Bool.toNat_true, e]
        omega
    · refine (stepSetup_runs s).imp (fun t ht => ?_) fun _ _ _ => trivial
      obtain ⟨hb, hv, hl⟩ := ht
      simp only [Dbd.cost, Dbd.owed, hb, hv, hl, hd]
      omega
    all_goals exact inputStep_cost h (by simp [hd]) (by simp [hd])

/-- With fuel for its cost Run ends before the last micro-step. -/
theorem run_runEnd {n : Nat} {s : State} (h : EngInv s) (hn : s.dbd.cost < n) : RunEnd (run n s).1 (run n s).2 := by
  induction n generalizing s with
  | zero => omega
  | succ n ih =>
    have hcost := microStep_cost h
    have hends := microStep_ends s
    have hinv := microStep_stopped h
    cases hm : microStep s with
    | cont t =>
      rw [hm] at hcost hinv
      rw [run_cont hm]
      exact ih hinv (Nat.lt_of_lt_of_le hcost (Nat.le_of_lt_succ hn))
    | stop c t =>
      rw [hm] at hends
      rw [run_stop hm]
      exact hends

/-- R198 and R244, for any fuel from 2700 up. -/
theorem run_2700 {s : State} (h : EngInv s) :
    (run 2700 s).1 ≠ .loopedState ∧ ∀ k, run (2700 + k) s = run 2700 s := by
  have hne := (run_runEnd h h.cost_lt).ne_loopedState
  exact ⟨hne, run_mono hne⟩

end Sys2Proof.Machine

/-! SUPPORT. The statements of 42_decoder.md R176 and R198: the error entry, and the bound on Run. -/

namespace Sys2Proof.Proofs
open Sys2Proof.Machine

/-- Settles O58: Run ends with a failure's code only where Fail has entered it, and DEC.FINISH's Eof is Fail's. -/
theorem failureEntersError : Obligations.FailureEntersError := by
  refine ⟨fun c s => rfl, ?_⟩
  rintro i s t (⟨v, rfl⟩ | rfl) ho hx hs
  · cases hv : readBm1 v with
    | none =>
      obtain rfl := Host.Outcome.next.inj ((execDecOne_badParam ho hv).symm.trans hx)
      exact absurd hs (not_reportsFailure (.inr (.inr (.inr rfl))) 0 s)
    | some x =>
      obtain rfl := Host.Outcome.next.inj ((execDecOne_open ho hv).symm.trans hx)
      exact oneEnd_enteredError hs
  · obtain rfl := Host.Outcome.next.inj ((execDecFinish_open ho).symm.trans hx)
    exact finishEnd_enteredError hs

/-- Settles O60: a cost below 2700 that each micro-step lowers. -/
theorem loopedStateIsUnreachable : Obligations.LoopedStateIsUnreachable := by
  intro s x hi ho
  obtain ⟨h1, e1⟩ := run_2700 (engInv_of_inv hi ho)
  obtain ⟨h2, e2⟩ := run_2700 (loadByte_engInv x (engInv_of_inv hi ho))
  exact ⟨h2, h1, e2 128372, e1 128372⟩

end Sys2Proof.Proofs

/-! SUPPORT. No micro-step with no byte pending reads HOLD, STATUS, VALUE or the environment: two machines that differ there
alone answer alike, so Run goes on after a refused byte as if the refusal had not been (42_decoder.md R197). -/

namespace Sys2Proof.Machine

/-! ## What a micro-step reads -/

/-- The machine with HOLD, STATUS, VALUE and the environment cleared: what a micro-step with no byte pending reads. -/
def State.core (s : State) : State :=
  { s with status := 0, value := 0, env := Env.reset, dbd := { s.dbd with hold := false } }

/-- The micro-step's answer, its state cleared. -/
def Micro.core : Micro → Micro
  | .cont s => .cont s.core
  | .stop c s => .stop c s.core

/-- `ite_eq_map` for a micro-step. -/
theorem Micro.ite_core {c c' : Prop} [Decidable c] [Decidable c'] {x y x' y' : Micro} (hc : c' = c)
    (hx : x' = x.core) (hy : y' = y.core) : (if c' then x' else y') = (if c then x else y).core :=
  ite_eq_map Micro.core hc hx hy

/-- `ite_eq_map` for a state. -/
theorem State.ite_core {c c' : Prop} [Decidable c] [Decidable c'] {x y x' y' : State} (hc : c' = c)
    (hx : x' = x.core) (hy : y' = y.core) : (if c' then x' else y') = (if c then x else y).core :=
  ite_eq_map State.core hc hx hy

/-- The decoder's registers with HOLD cleared. -/
def Dbd.unheld (d : Dbd) : Dbd := { d with hold := false }

/-- `ite_eq_map` for the decoder's registers. -/
theorem Dbd.ite_unheld {c c' : Prop} [Decidable c] [Decidable c'] {x y x' y' : Dbd} (hc : c' = c)
    (hx : x' = x.unheld) (hy : y' = y.unheld) : (if c' then x' else y') = (if c then x else y).unheld :=
  ite_eq_map Dbd.unheld hc hx hy

theorem cont_setDbd_core {s : State} {d d' : Dbd} (h : d' = d.unheld) :
    .cont (s.core.setDbd d') = Micro.core (.cont (s.setDbd d)) := by
  rw [h]; rfl

theorem endOfBlock_unheld (d : Dbd) : endOfBlock d.unheld = (endOfBlock d).unheld := Dbd.ite_unheld rfl rfl rfl

theorem fieldState_core (n : Nat) (bit : Bool) (s : State) : fieldState n bit s.core = (fieldState n bit s).core :=
  State.ite_core rfl rfl rfl

theorem codeState_core (t : Slot) (m : Nat) (bit : Bool) (s : State) :
    codeState t m bit s.core = (codeState t m bit s).core := by
  have hr : readCode t m bit s.core = readCode t m bit s := rfl
  unfold codeState
  rw [hr]
  split <;> rfl

/-! ## Transitions -/

theorem onBlockHeader_core (v : Word) (s : State) : onBlockHeader v s.core = (onBlockHeader v s).core := by
  unfold onBlockHeader
  dsimp only
  split <;> rfl

theorem onRawLength_core (v : Word) (s : State) : onRawLength v s.core = (onRawLength v s).core :=
  Micro.ite_core rfl rfl (Micro.ite_core rfl (cont_setDbd_core (endOfBlock_unheld { s.dbd with rem := 0 })) rfl)

theorem onRawByte_core (v : Word) (s : State) : onRawByte v s.core = (onRawByte v s).core :=
  cont_setDbd_core (Dbd.ite_unheld rfl
    (endOfBlock_unheld { emit (v.extractLsb' 0 8) s.dbd with rem := s.dbd.rem - 1 }) rfl)

theorem assignSlot_core (t : Slot) (n : Nat) (s : State) :
    assignSlot t n s.core = (assignSlot t n s).map State.core := by
  have ht : s.core.table t = s.table t := rfl
  unfold assignSlot
  rw [ht]
  split <;> rfl

theorem setupDynamic_core (s : State) : setupDynamic s.core = (setupDynamic s).core := by
  have hl : s.core.dbd.hlit = s.dbd.hlit := rfl
  have hd : s.core.dbd.hdist = s.dbd.hdist := rfl
  unfold setupDynamic
  rw [hl, hd, assignSlot_core]
  cases assignSlot .ll s.dbd.hlit.toNat s with
  | error c => rfl
  | ok s1 =>
    simp only [Except.map, assignSlot_core]
    cases assignSlot .dist s.dbd.hdist.toNat s1 <;> rfl

theorem onAlphabetHeader_core (v : Word) (s : State) : onAlphabetHeader v s.core = (onAlphabetHeader v s).core :=
  Micro.ite_core rfl rfl rfl

theorem finishAlphabet_core (s : State) : finishAlphabet s.core = (finishAlphabet s).core := by
  unfold finishAlphabet
  rw [assignSlot_core]
  cases assignSlot .cl 19 s <;> rfl

theorem onAlphabetLength_core (v : Word) (s : State) : onAlphabetLength v s.core = (onAlphabetLength v s).core := by
  unfold onAlphabetLength
  refine Micro.ite_core rfl ((congrArg finishAlphabet ?_).trans (finishAlphabet_core _)) rfl
  rfl

theorem appendLens_core (v n : Nat) (s : State) : appendLens v n s.core = (appendLens v n s).core := by
  induction n generalizing s with
  | zero => rfl
  | succ n ih =>
    have hs : setLenAt s.dbd.idx.toNat v s.core = (setLenAt s.dbd.idx.toNat v s).core := State.ite_core rfl rfl rfl
    rw [appendLens_succ, appendLens_succ, ← ih]
    refine congrArg (appendLens v n) ?_
    exact congrArg (fun u => State.setDbd u _) hs

theorem lensDone_core (s : State) : lensDone s.core = (lensDone s).core := State.ite_core rfl rfl rfl

theorem onLengthSymbol_core (sym : Nat) (s : State) : onLengthSymbol sym s.core = (onLengthSymbol sym s).core := by
  refine Micro.ite_core rfl ?_ (Micro.ite_core rfl rfl rfl)
  rw [appendLens_core, lensDone_core]
  rfl

theorem onRepeat_core (v : Word) (s : State) : onRepeat v s.core = (onRepeat v s).core := by
  unfold onRepeat
  refine Micro.ite_core rfl rfl (congrArg Micro.cont ?_)
  rw [appendLens_core, ← lensDone_core]
  rfl

theorem onLiteralOrLength_core (sym : Nat) (s : State) :
    onLiteralOrLength sym s.core = (onLiteralOrLength sym s).core := by
  unfold onLiteralOrLength
  refine Micro.ite_core rfl rfl (Micro.ite_core rfl (cont_setDbd_core (endOfBlock_unheld s.dbd)) ?_)
  generalize sym - 257 = k
  exact Micro.ite_core rfl rfl rfl

theorem onDistance_core (sym : Nat) (s : State) : onDistance sym s.core = (onDistance sym s).core :=
  Micro.ite_core rfl rfl (cont_setDbd_core (Dbd.ite_unheld rfl rfl rfl))

/-! ## Micro-steps -/

theorem fieldStep_core {act : Word → State → Micro} (h : ∀ v s, act v (State.core s) = (act v s).core) (n : Nat) (bit : Bool)
    (s : State) : fieldStep n act bit s.core = (fieldStep n act bit s).core := by
  have hr : readField n bit s.core = readField n bit s := rfl
  unfold fieldStep
  rw [hr, fieldState_core]
  cases readField n bit s with
  | none => rfl
  | some v => exact h v _

theorem codeStep_core {act : Nat → State → Micro} (h : ∀ n s, act n (State.core s) = (act n s).core) (t : Slot) (m : Nat)
    (bit : Bool) (s : State) : codeStep t m act bit s.core = (codeStep t m act bit s).core := by
  have hr : readCode t m bit s.core = readCode t m bit s := rfl
  unfold codeStep
  rw [hr, codeState_core]
  cases readCode t m bit s with
  | pending => rfl
  | symbol n => exact h n _
  | bad => rfl

theorem bitStep_core (bit : Bool) (s : State) : bitStep bit s.core = (bitStep bit s).core := by
  have hd : s.core.dbd.dstate = s.dbd.dstate := rfl
  rw [bitStep_eq, bitStep_eq, hd]
  split
  · exact fieldStep_core onBlockHeader_core _ _ _
  · exact fieldStep_core onRawLength_core _ _ _
  · exact fieldStep_core onRawByte_core _ _ _
  · exact fieldStep_core onAlphabetHeader_core _ _ _
  · exact fieldStep_core onAlphabetLength_core _ _ _
  · exact codeStep_core onLengthSymbol_core _ _ _ _
  · exact fieldStep_core onRepeat_core _ _ _
  · exact codeStep_core onLiteralOrLength_core _ _ _ _
  · exact fieldStep_core (fun _ _ => rfl) _ _ _
  · exact codeStep_core onDistance_core _ _ _ _
  · exact fieldStep_core (fun _ _ => rfl) _ _ _
  all_goals rfl

theorem engineStep_core (s : State) : engineStep s.core = (engineStep s).core := by
  have hd : s.core.dbd.dstate = s.dbd.dstate := rfl
  have hi : inputStep s.core = (inputStep s).core := Micro.ite_core rfl rfl (bitStep_core _ (dropBit s))
  unfold engineStep
  rw [hd]
  split
  · rfl
  · exact cont_setDbd_core (Dbd.ite_unheld rfl rfl rfl)
  · exact Micro.ite_core rfl rfl (setupDynamic_core s)
  all_goals exact hi

/-! ## Two machines that differ in HOLD, STATUS and VALUE alone -/

/-- The machines differ in HOLD, STATUS and VALUE at most. -/
def Alike (s t : State) : Prop := s.core = t.core ∧ s.env = t.env

theorem Micro.core_eq_cases {m m' : Micro} (h : m.core = m'.core) :
    (∃ s t, m = .cont s ∧ m' = .cont t ∧ s.core = t.core) ∨
      ∃ c s t, m = .stop c s ∧ m' = .stop c t ∧ s.core = t.core := by
  cases m <;> cases m' <;> simp only [Micro.core, Micro.cont.injEq, Micro.stop.injEq, reduceCtorEq] at h
  · exact .inl ⟨_, _, rfl, rfl, h⟩
  · obtain ⟨rfl, h⟩ := h
    exact .inr ⟨_, _, _, rfl, rfl, h⟩

/-- With no byte pending two machines of one core answer alike, and neither answer touches the environment. -/
theorem engineStep_cases {s t : State} (h : s.core = t.core) :
    (∃ s' t', engineStep s = .cont s' ∧ engineStep t = .cont t' ∧ s'.core = t'.core ∧ s'.env = s.env ∧ t'.env = t.env) ∨
      ∃ c s' t', engineStep s = .stop c s' ∧ engineStep t = .stop c t' ∧ s'.core = t'.core ∧ s'.env = s.env ∧ t'.env = t.env
    := by
  have hc : (engineStep s).core = (engineStep t).core := by rw [← engineStep_core, ← engineStep_core, h]
  have hs := engineStep_keeps s
  have ht := engineStep_keeps t
  rcases Micro.core_eq_cases hc with ⟨s', t', es, et, hst⟩ | ⟨c, s', t', es, et, hst⟩ <;> rw [es] at hs <;> rw [et] at ht
  · exact .inl ⟨s', t', es, et, hst, hs.2.2, ht.2.2⟩
  · exact .inr ⟨c, s', t', es, et, hst, hs.2.2, ht.2.2⟩

theorem core_outv {s t : State} (h : s.core = t.core) : s.dbd.outv = t.dbd.outv := congrArg (fun u => u.dbd.outv) h
theorem core_outb {s t : State} (h : s.core = t.core) : s.dbd.outb = t.dbd.outb := congrArg (fun u => u.dbd.outb) h

/-- The machine after an accepted byte, but for the environment. -/
def State.drained (s : State) : State :=
  { s with lzm := s.lzm.record s.dbd.outb true, dbd := { s.dbd with outv := false } }

/-- Two machines that differ in HOLD, STATUS and VALUE alone take the same micro-step. -/
theorem microStep_alike {s t : State} (h : Alike s t) :
    (∃ s' t', microStep s = .cont s' ∧ microStep t = .cont t' ∧ Alike s' t') ∨
      ∃ c s' t', microStep s = .stop c s' ∧ microStep t = .stop c t' ∧ Alike s' t' := by
  obtain ⟨hc, he⟩ := h
  have hv := core_outv hc
  unfold microStep
  cases ho : s.dbd.outv with
  | true =>
    have hoffer : s.env.offer s.dbd.outb = t.env.offer t.dbd.outb := by rw [he, core_outb hc]
    have hput : (put s).1 = (put t).1 := by simp only [put, hoffer]
    have henv : (put s).2.env = (put t).2.env := by simp only [put, hoffer]
    rw [← hv, ho, if_pos rfl, if_pos rfl]
    rcases drainStep_cases s with ⟨hs, es⟩ | ⟨hs, es⟩ <;> rcases drainStep_cases t with ⟨ht, et⟩ | ⟨ht, et⟩
    · exact .inr ⟨_, _, _, es, et, hc, henv⟩
    · exact absurd (hs.symm.trans (hput.trans ht)) nofun
    · exact absurd (hs.symm.trans (hput.trans ht)) nofun
    · exact .inl ⟨_, _, es, et, congrArg State.drained hc, henv⟩
  | false =>
    rw [← hv, ho, if_neg nofun, if_neg nofun]
    rcases engineStep_cases hc with ⟨s', t', es, et, hst, hs, ht⟩ | ⟨c, s', t', es, et, hst, hs, ht⟩
    · exact .inl ⟨s', t', es, et, hst, hs.trans (he.trans ht.symm)⟩
    · exact .inr ⟨c, s', t', es, et, hst, hs.trans (he.trans ht.symm)⟩

/-- Run reads neither HOLD, STATUS nor VALUE. -/
theorem run_alike (n : Nat) {s t : State} (h : Alike s t) :
    (run n s).1 = (run n t).1 ∧ Alike (run n s).2 (run n t).2 := by
  induction n generalizing s t with
  | zero => exact ⟨rfl, congrArg (fail .loopedState) h.1, h.2⟩
  | succ n ih =>
    rcases microStep_alike h with ⟨s', t', es, et, hst⟩ | ⟨c, s', t', es, et, hst⟩
    · rw [run_cont es, run_cont et]
      exact ih hst
    · rw [run_stop es, run_stop et]
      exact ⟨rfl, hst⟩

/-- DEC.ONE writes the three registers Run does not read. -/
theorem oneEnd_congr {r r' : Code × State} (hc : r.1 = r'.1) (h : Alike r.2 r'.2) : oneEnd r = oneEnd r' := by
  obtain ⟨hcore, henv⟩ := h
  have hend : ∀ p : Code × State, oneEnd p = oneEnd (p.1, { p.2.core with env := p.2.env }) := fun _ => rfl
  rw [hend r, hend r', hc, hcore, henv]

/-! ## Where a refusal falls (R197) -/

/-- Run after a refused byte: it stands where Run without the refusal comes to. -/
theorem run_refused {q1 q2 : List SinkAnswer} (hq : ∀ a ∈ q1, a = .accepted) {n : Nat} {s t : State} {e : Env}
    (h : s.core = t.core) (hs : s.env = { e with sink := q1 ++ .refused :: q2 }) (ht : t.env = { e with sink := q1 ++ q2 })
    (hrun : (run n s).1 = .overflow) : ∃ k u, (∀ m, run (k + m) t = run m u) ∧ Alike (run n s).2 u := by
  induction n generalizing q1 s t e with
  | zero => cases hrun
  | succ n ih =>
    have hstep : ∀ {s' t' : State}, microStep s = .cont s' → microStep t = .cont t' →
        (∃ k u, (∀ m, run (k + m) t' = run m u) ∧ Alike (run n s').2 u) →
        ∃ k u, (∀ m, run (k + m) t = run m u) ∧ Alike (run (n + 1) s).2 u := by
      rintro s' t' es et ⟨k, u, hk, hu⟩
      refine ⟨k + 1, u, fun m => ?_, by rw [run_cont es]; exact hu⟩
      rw [Nat.add_right_comm, run_cont et, hk]
    cases ho : s.dbd.outv with
    | true =>
      have ho' : t.dbd.outv = true := (core_outv h).symm.trans ho
      cases q1 with
      | nil =>
        have es := microStep_refused ho (q := q2) (by rw [hs]; rfl)
        refine ⟨0, t, fun m => by rw [Nat.zero_add], ?_⟩
        rw [run_stop es]
        exact ⟨h, by rw [ht, hs]; rfl⟩
      | cons a q1 =>
        obtain rfl := hq a List.mem_cons_self
        have es := microStep_accepted ho (q := q1 ++ .refused :: q2) (by rw [hs]; rfl)
        have et := microStep_accepted ho' (q := q1 ++ q2) (by rw [ht]; rfl)
        refine hstep es et ?_
        rw [run_cont es] at hrun
        refine ih (e := { e with out := e.out ++ [s.dbd.outb] }) (fun a ha => hq a (List.mem_cons_of_mem _ ha))
          (congrArg State.drained h) ?_ ?_ hrun
        · simp only [hs]
        · simp only [ht, core_outb h]
    | false =>
      have es : microStep s = engineStep s := if_neg (by simp [ho])
      have et : microStep t = engineStep t := if_neg (by simp [← core_outv h, ho])
      rcases engineStep_cases h with ⟨s', t', es', et', hst, hse, hte⟩ | ⟨c, s', t', es', et', -⟩
      · refine hstep (es.trans es') (et.trans et') ?_
        rw [run_cont (es.trans es')] at hrun
        exact ih hq hst (hse.trans hs) (hte.trans ht) hrun
      · have hends := engineStep_ends s
        rw [es'] at hends
        rw [run_stop (es.trans es')] at hrun
        exact absurd hrun hends.ne_overflow

/-! ## DEC.ONE after a refusal -/

theorem loadByte_setSink (x : Bm1) (s : State) (q : List SinkAnswer) :
    loadByte x (s.setSink q) = (loadByte x s).setSink q := by
  cases x with
  | minusOne => rfl
  | byte b => exact ite_eq_map (fun u => State.setSink u q) rfl rfl rfl

/-- A DEC.ONE that ends with Overflow has run the engine, and HOLD is 1. -/
theorem execDecOne_overflow {v : Word} {s t : State} (hi : s.Inv) (h : execDecOne v s = .next t) (ht : t.status = 0x01) :
    sessionOpen s = true ∧ ∃ x, readBm1 v = some x ∧ (runEngine (loadByte x s)).1 = .overflow ∧
      t = oneEnd (.overflow, (runEngine (loadByte x s)).2) := by
  have hword : ∀ c : Code, c.word = 0x01 → c = .overflow := fun c => by cases c <;> decide
  cases ho : sessionOpen s with
  | false =>
    exfalso
    rcases DState.of_not_open ho with hd | hd | hd
    · rw [execDecOne_idle v hd] at h; cases h
      exact absurd (hword _ ht) (by decide)
    · rw [execDecOne_closed v hd] at h; cases h
      exact absurd (hword _ ht) (by decide)
    · rw [execDecOne_error v hd] at h; cases h
      have herr : ∀ b ∈ failCodes, statusWord b ≠ 0x01 := by decide
      exact herr _ (Dbd.err_mem_failCodes hi.2.2.1 hd) ht
  | true =>
    cases hx : readBm1 v with
    | none =>
      rw [execDecOne_badParam ho hx] at h; cases h
      exact absurd (hword _ ht) (by decide)
    | some x =>
      rw [execDecOne_open ho hx] at h; cases h
      have hc := hword _ ht
      exact ⟨rfl, x, rfl, hc, by rw [← hc]⟩

/-- Run stops with Overflow in an open session. -/
theorem Stopped.engInv {t : State} (h : Stopped .overflow t) : EngInv t := by
  rcases h with ⟨-, h, -⟩ | ⟨h, -⟩ | ⟨h, -⟩ | ⟨h, -⟩
  · exact h
  · cases h
  · cases h
  · exact absurd h (by decide)

/-- More micro-steps than a command has change nothing, from the invariant. -/
theorem EngInv.run_add {s : State} (h : EngInv s) (k : Nat) : run (k + Config.troubleLimit) s = runEngine s := by
  obtain ⟨-, hadd⟩ := run_2700 h
  rw [runEngine, show k + Config.troubleLimit = 2700 + (k + 128372) by unfold Config.troubleLimit; omega, hadd]
  exact (hadd 128372).symm

/-- The DEC.ONE that follows an Overflow goes on with Run, whatever its operand. -/
theorem execDecOne_resumes {w : Word} {r u : State} (hw : IsBm1 w) (hr : EngInv r) (hu : Alike r u) :
    execDecOne w (oneEnd (.overflow, r)) = .next (oneEnd (runEngine u)) := by
  obtain ⟨y, hy⟩ := (readBm1_isSome w).2 hw
  have hopen : sessionOpen (oneEnd (.overflow, r)) = true := hr.isOpen
  obtain ⟨hcode, halike⟩ := run_alike Config.troubleLimit (s := oneEnd (.overflow, r)) (t := u) hu
  rw [execDecOne_open hopen hy, loadByte_held rfl]
  exact congrArg _ (oneEnd_congr hcode halike)

end Sys2Proof.Machine

/-! SUPPORT. The statement of 42_decoder.md R197. -/

namespace Sys2Proof.Proofs
open Sys2Proof.Machine

/-- Settles O59: the second DEC.ONE runs from where the DEC.ONE without the refusal comes to, but for HOLD, STATUS and VALUE,
and neither runs out of micro-steps. -/
theorem refusalDoesNotChangeTheOutput : Obligations.RefusalDoesNotChangeTheOutput := by
  intro v w s t q1 q2 hi hw hq hx hst
  obtain ⟨ho, x, hv, hover, rfl⟩ := execDecOne_overflow (s := s.setSink (q1 ++ .refused :: q2)) hi hx hst
  have hinv : EngInv (loadByte x s) := loadByte_engInv x (engInv_of_inv hi ho)
  have hload := loadByte_setSink x s
  have hinv : ∀ q, EngInv (loadByte x (s.setSink q)) := fun q =>
    loadByte_engInv x (engInv_of_inv (s := s.setSink q) hi ho)
  obtain ⟨k, u, hk, hu⟩ := run_refused (t := loadByte x (s.setSink (q1 ++ q2))) (e := (loadByte x s).env) hq
    (by rw [hload, hload]; rfl) (by rw [hload]; rfl) (by rw [hload]; rfl) hover
  have hstop : EngInv (runEngine (loadByte x (s.setSink (q1 ++ .refused :: q2)))).2 :=
    Stopped.engInv (hover ▸ run_stopped _ (hinv _))
  calc execDecOne w (oneEnd (.overflow, (runEngine (loadByte x (s.setSink (q1 ++ .refused :: q2)))).2))
      = .next (oneEnd (runEngine u)) := execDecOne_resumes hw hstop hu
    _ = .next (oneEnd (runEngine (loadByte x (s.setSink (q1 ++ q2))))) := by
        rw [runEngine, ← hk, (hinv _).run_add]
    _ = execDecOne v (s.setSink (q1 ++ q2)) := (execDecOne_open (s := s.setSink (q1 ++ q2)) ho hv).symm

end Sys2Proof.Proofs

/-! SUPPORT. A copy from the history (42_decoder.md R188 to R193): the length and the distance from their extra bits, the
bytes it outputs, and its run through a sink that accepts them. -/

namespace Sys2Proof.Machine

/-! ## The bytes of a copy (R193, R196) -/

/-- The ring after one byte of a copy at distance `d`. -/
def Lzm.copyByte (d : Nat) (l : Lzm) : Lzm := l.record (l.get d) true

/-- Byte `i` of a copy is read from the ring as the `i` bytes before it left it. -/
theorem copyOutput_getD {d n i : Nat} (l : Lzm) (hi : i < n) :
    (copyOutput d n l).getD i 0 = ((Lzm.copyByte d)^[i] l).get d := by
  induction n generalizing i l with
  | zero => omega
  | succ n ih =>
    cases i with
    | zero => rfl
    | succ i => exact ih _ (by omega)

/-- The window, POS and FILL after `i` bytes of a copy. -/
theorem copyByte_iterate (d i : Nat) {l : Lzm} (hp : l.pos.toNat < l.window) (hf : l.fill.toNat ≤ l.window) :
    ((Lzm.copyByte d)^[i] l).pos.toNat < l.window ∧ ((Lzm.copyByte d)^[i] l).window = l.window ∧
      ((Lzm.copyByte d)^[i] l).fill.toNat = min (l.fill.toNat + i) l.window := by
  induction i with
  | zero => exact ⟨hp, rfl, by simp; omega⟩
  | succ i ih =>
    obtain ⟨-, hw, hfill⟩ := ih
    rw [Function.iterate_succ_apply']
    refine ⟨?_, hw, ?_⟩
    · rw [Lzm.copyByte, Lzm.record_pos, ← hw]
      exact Lzm.nextPos_lt _
    · rw [Lzm.copyByte, Lzm.record_fill, Lzm.nextFill, hfill, hw]
      omega

/-- `j` more bytes of a copy put every recorded byte `j` further. -/
theorem get_copyByte_iterate (d j : Nat) {l : Lzm} (hp : l.pos.toNat < l.window) (hf : l.fill.toNat ≤ l.window) {e : Nat}
    (he : 1 ≤ e) (hle : e + j ≤ min (l.fill.toNat + j) l.window) : ((Lzm.copyByte d)^[j] l).get (e + j) = l.get e := by
  induction j with
  | zero => rfl
  | succ j ih =>
    obtain ⟨hpos, hw, -⟩ := copyByte_iterate d j hp hf
    obtain ⟨-, -, hfill⟩ := copyByte_iterate d (j + 1) hp hf
    rw [Function.iterate_succ_apply', Lzm.copyByte] at hfill ⊢
    rw [← Nat.add_assoc, Lzm.get_record_succ _ _ _ (by rw [hw]; exact hpos) (by omega) (by rw [hfill]; exact hle)]
    exact ih (by omega)

/-- A copied byte stands at distance 1. -/
theorem get_copyByte_one (d i : Nat) {l : Lzm} (hp : l.pos.toNat < l.window) (hf : l.fill.toNat ≤ l.window) :
    ((Lzm.copyByte d)^[i + 1] l).get 1 = ((Lzm.copyByte d)^[i] l).get d := by
  obtain ⟨hpos, hw, -⟩ := copyByte_iterate d i hp hf
  rw [Function.iterate_succ_apply']
  exact Lzm.get_record_one _ _ _ (by rw [hw]; exact hpos)

/-- A copy at a recorded distance reads the history, then its own bytes. -/
theorem copyOutput_overlap {d n i : Nat} {l : Lzm} (hp : l.pos.toNat < l.window) (hf : l.fill.toNat ≤ l.window) (hd : 1 ≤ d)
    (hi : i < n) (hdf : d ≤ l.fill.toNat) :
    (copyOutput d n l).getD i 0 = if i < d then l.get (d - i) else (copyOutput d n l).getD (i - d) 0 := by
  rw [copyOutput_getD l hi]
  split
  · have h := get_copyByte_iterate d i hp hf (e := d - i) (by omega) (by omega)
    rwa [Nat.sub_add_cancel (by omega)] at h
  · rw [copyOutput_getD l (by omega)]
    obtain ⟨hpos, hw, hfill⟩ := copyByte_iterate d (i - d + 1) hp hf
    have h := get_copyByte_iterate d (d - 1) (l := (Lzm.copyByte d)^[i - d + 1] l) (by rw [hw]; exact hpos)
      (by rw [hw, hfill]; omega) le_rfl (by rw [hw, hfill]; omega)
    rw [← Function.iterate_add_apply, Nat.add_sub_cancel' hd, show d - 1 + (i - d + 1) = i by omega] at h
    rw [h, get_copyByte_one d (i - d) hp hf]

/-- A distance beyond the recorded history gives 0. -/
theorem copyOutput_unrecorded {d n i : Nat} {l : Lzm} (hp : l.pos.toNat < l.window) (hf : l.fill.toNat ≤ l.window)
    (hi : i < n) (hd : min (l.fill.toNat + i) l.window < d) : (copyOutput d n l).getD i 0 = 0 := by
  obtain ⟨-, -, hfill⟩ := copyByte_iterate d i hp hf
  rw [copyOutput_getD l hi, Lzm.get_unrecorded _ (.inr (by rw [hfill]; exact hd))]

/-! ## The length and the distance (R188, R189, R191, R192) -/

/-- A field of `n` bits is below `2 ^ n`. -/
theorem readField_lt {n : Nat} {s : State} {v : Word} (hr : s.dbd.reading n) (hn : n ≤ 32)
    (h : readField n (nextBit s) (dropBit s) = some v) : v.toNat < 2 ^ n := by
  rcases field_cases (nextBit s) (s := dropBit s) hr hn with ⟨h0, -⟩ | ⟨w, hw, hlt, -⟩
  · rw [h0] at h; cases h
  · rw [hw] at h; cases h; exact hlt

/-- The extra bits of a length are added to its base (R189). -/
theorem readLengthExtra_reads {s : State} (h : TakesBit .readLengthExtra s) (hp : phaseOk s.htg s.dbd) :
    ReadsField (lenExtra.getD s.dbd.lsym.toNat 0) s fun v =>
      ∀ len : Nat, len = lenBase.getD s.dbd.lsym.toNat 0 + v.toNat → 3 ≤ len ∧ len ≤ 258 ∧
        microStep s = .cont (s.setDbd { s.dbd.bitTaken with length := BitVec.ofNat 9 len, dstate := .readDistance }) := by
  have hd := h.1
  rw [phaseOk, hd] at hp
  obtain ⟨hr, hsym, hlen⟩ := hp
  obtain ⟨hb1, hb2, hx⟩ := lenBase_range _ hsym
  refine readsField_intro (act := onLengthExtra) ((microStep_takesBit h nofun nofun nofun).trans ?_) ?_
  · have hd' : (dropBit s).dbd.dstate = .readLengthExtra := hd
    simp only [bitStep, hd']
    rfl
  · rintro v hv hm len rfl
    have hlt := readField_lt hr (by omega) hv
    refine ⟨by omega, by omega, hm.trans ?_⟩
    have hadd : s.dbd.length + v.setWidth 9 = BitVec.ofNat 9 (lenBase.getD s.dbd.lsym.toNat 0 + v.toNat) := by
      apply BitVec.eq_of_toNat_eq
      simp only [BitVec.toNat_add, BitVec.toNat_setWidth, BitVec.toNat_ofNat, hlen, Nat.add_mod_mod]
    rw [← hadd]
    rfl

/-- The extra bits of a distance are added to its base, and the copy starts (R192). -/
theorem readDistanceExtra_reads {s : State} (h : TakesBit .readDistanceExtra s) (hp : phaseOk s.htg s.dbd) :
    ReadsField (distExtra.getD s.dbd.dsym.toNat 0) s fun v =>
      ∀ d : Nat, d = distBase.getD s.dbd.dsym.toNat 0 + v.toNat → 1 ≤ d ∧ d ≤ 32768 ∧
        microStep s = .cont (s.setDbd
          { s.dbd.bitTaken with
            dist := BitVec.ofNat 16 d, rem := BitVec.ofNat 16 s.dbd.length.toNat, dstate := .copyFromHistory }) := by
  have hd := h.1
  rw [phaseOk, hd] at hp
  obtain ⟨hr, hsym, hdist, -⟩ := hp
  obtain ⟨hb1, hb2, hx⟩ := distBase_range _ hsym
  refine readsField_intro (act := onDistanceExtra) ((microStep_takesBit h nofun nofun nofun).trans ?_) ?_
  · have hd' : (dropBit s).dbd.dstate = .readDistanceExtra := hd
    simp only [bitStep, hd']
    rfl
  · rintro v hv hm d rfl
    have hlt := readField_lt hr (by omega) hv
    refine ⟨by omega, by omega, hm.trans ?_⟩
    have hadd : s.dbd.dist + v.setWidth 16 = BitVec.ofNat 16 (distBase.getD s.dbd.dsym.toNat 0 + v.toNat) := by
      apply BitVec.eq_of_toNat_eq
      simp only [BitVec.toNat_add, BitVec.toNat_setWidth, BitVec.toNat_ofNat, hdist, Nat.add_mod_mod]
    rw [← hadd, BitVec.ofNat_toNat]
    rfl

/-- The lengths of `e` extra bits stand together, their bases `2 ^ e` apart (R188). -/
theorem lenTables_extra : ∀ e ≤ 5, ∀ i < 4, 1 ≤ e →
    lenExtra.getD (4 + 4 * e + i) 0 = e ∧ lenBase.getD (4 + 4 * e + i) 0 = 2 ^ (e + 2) + 3 + i * 2 ^ e := by decide

/-- The distances of `e` extra bits stand together, their bases `2 ^ e` apart (R191). -/
theorem distTables_extra : ∀ e ≤ 13, ∀ i < 2, 1 ≤ e →
    distExtra.getD (2 + 2 * e + i) 0 = e ∧ distBase.getD (2 + 2 * e + i) 0 = 2 ^ (e + 1) + 1 + i * 2 ^ e := by decide

/-! ## The stops of Run (R163, R170, R194) -/

theorem engineStep_of_consumesBits {s : State} (hd : consumesBits s.dbd.dstate = true) : engineStep s = inputStep s := by
  unfold engineStep
  revert hd
  cases s.dbd.dstate <;> simp [consumesBits]

/-- A state that reads a bit stops with Ok where none is held. -/
theorem microStep_noBit {s : State} (hd : consumesBits s.dbd.dstate = true) (ho : s.dbd.outv = false)
    (hb : s.dbd.bitcnt = 0) : microStep s = .stop .ok s := by
  have hm : microStep s = engineStep s := if_neg (by simp [ho])
  rw [hm, engineStep_of_consumesBits hd]
  exact if_pos hb

theorem sessionOpen_of_consumesBits {s : State} (hd : consumesBits s.dbd.dstate = true) : sessionOpen s = true := by
  refine (sessionOpen_iff s).2 ⟨?_, ?_, ?_⟩ <;> intro h <;> rw [h] at hd <;> cases hd

/-- A decoder that waits for input answers Ok to a DEC.ONE without a byte. -/
theorem execDecOne_noByte {s : State} (hd : consumesBits s.dbd.dstate = true) (ho : s.dbd.outv = false)
    (hb : s.dbd.bitcnt = 0) (hh : s.dbd.hold = false) : execDecOne 0xFFFFFFFF s = .next (finish .ok 0 s) := by
  have hrun : runEngine s = (.ok, s) := run_stop (microStep_noBit hd ho hb)
  rw [execDecOne_open (sessionOpen_of_consumesBits hd) readBm1_minusOne]
  exact congrArg Host.Outcome.next ((congrArg oneEnd hrun).trans (oneEnd_notHeld (by decide) hh))

/-- Done answers Done to every DEC.ONE of a legal operand. -/
theorem execDecOne_done {v : Word} {s : State} (hv : IsBm1 v) (hd : s.dbd.dstate = .done) (ho : s.dbd.outv = false) :
    execDecOne v s = .next { s with status := 0x02, value := 0, dbd := { s.dbd with hold := false } } := by
  obtain ⟨x, hx⟩ := (readBm1_isSome v).2 hv
  have hopen : sessionOpen s = true := (sessionOpen_iff s).2 (by simp [hd])
  have hload : loadByte x s = s := (loadByte_cases x s).resolve_right fun ⟨_, _, _, hne, _⟩ => hne hd
  have hrun : runEngine s = (.done, s) := run_stop (microStep_done hd ho)
  rw [execDecOne_open hopen hx, hload, hrun]
  rfl

/-! ## The run of a copy (R170, R174, R193) -/

theorem microStep_copy {s : State} (hd : s.dbd.dstate = .copyFromHistory) (ho : s.dbd.outv = false) :
    microStep s = .cont (s.setDbd
      { s.dbd with
        outb := s.lzm.get s.dbd.dist.toNat, outv := true, rem := s.dbd.rem - 1
        dstate := if s.dbd.rem = 1 then .readLiteralOrLength else .copyFromHistory }) := by
  have hm : microStep s = copyStep s := by simp [microStep, ho, engineStep, hd]
  have hr : s.dbd.rem - 1 = 0 ↔ s.dbd.rem = 1 := sub_eq_zero
  rw [hm]
  simp only [copyStep, emit, hr]
  split <;> simp only [hd]

/-- The machine after a byte of a copy that the sink, `q` its answers left, has accepted. -/
def State.copiedByte (q : List SinkAnswer) (s : State) : State :=
  { s with
    lzm := s.lzm.copyByte s.dbd.dist.toNat
    env := { s.env with sink := q, out := s.env.out ++ [s.lzm.get s.dbd.dist.toNat] }
    dbd := { s.dbd with
      outb := s.lzm.get s.dbd.dist.toNat, outv := false, rem := s.dbd.rem - 1
      dstate := if s.dbd.rem = 1 then .readLiteralOrLength else .copyFromHistory } }

/-- A byte of a copy, accepted: two micro-steps. -/
theorem run_copiedByte {s : State} {q : List SinkAnswer} (hd : s.dbd.dstate = .copyFromHistory) (ho : s.dbd.outv = false)
    (hq : s.env.sink = .accepted :: q) (k : Nat) : run (k + 2) s = run k (s.copiedByte q) :=
  (run_cont (microStep_copy hd ho)).trans (run_cont (microStep_accepted rfl hq))

/-- The run of a copy through a sink that accepts its bytes. -/
theorem run_copy {n : Nat} {s : State} {q : List SinkAnswer} (hn : 1 ≤ n) (hd : s.dbd.dstate = .copyFromHistory)
    (ho : s.dbd.outv = false) (hr : s.dbd.rem.toNat = n) (hq : s.env.sink = List.replicate n .accepted ++ q) :
    ∃ t, (∀ k, run (2 * n + k) s = run k t) ∧
      t.env = { s.env with sink := q, out := s.env.out ++ copyOutput s.dbd.dist.toNat n s.lzm } ∧
      t.lzm = recordAll (copyOutput s.dbd.dist.toNat n s.lzm) s.lzm ∧
      t.dbd = { s.dbd with dstate := .readLiteralOrLength, rem := 0, outb := t.dbd.outb } ∧
      t.htg = s.htg ∧ t.cmd = s.cmd ∧ t.data = s.data := by
  induction n, hn using Nat.le_induction generalizing s with
  | base =>
    have hrem : s.dbd.rem = 1 := BitVec.eq_of_toNat_eq hr
    refine ⟨s.copiedByte q, fun k => ?_, rfl, rfl, ?_, rfl, rfl, rfl⟩
    · rw [Nat.add_comm]
      exact run_copiedByte hd ho hq k
    · simp only [State.copiedByte, hrem, if_pos, ho]
      rfl
  | succ n hn ih =>
    have hrem : s.dbd.rem ≠ 1 := fun h => by rw [h] at hr; simp at hr; omega
    have hleft : (s.dbd.rem - 1).toNat = n := by bv_omega
    have hst : (s.copiedByte (List.replicate n .accepted ++ q)).dbd.dstate = .copyFromHistory := if_neg hrem
    obtain ⟨t, hrun, henv, hlzm, hdbd, hrest⟩ := ih hst rfl hleft rfl
    refine ⟨t, fun k => ?_, ?_, hlzm, ?_, hrest⟩
    · rw [show 2 * (n + 1) + k = 2 * n + k + 2 by omega]
      exact (run_copiedByte hd ho hq _).trans (hrun k)
    · rw [henv, copyOutput, List.append_cons]
      rfl
    · rw [hdbd]
      simp only [State.copiedByte, ho]

end Sys2Proof.Machine

namespace Sys2Proof.Proofs
open Sys2Proof.Machine

/-- Settles O56, by the ring after each byte of the copy. -/
theorem overlappingCopyRepeats : Obligations.OverlappingCopyRepeats := fun _ _ _ _ hp hf hd hi =>
  ⟨copyOutput_overlap hp hf hd hi, copyOutput_unrecorded hp hf hi⟩

/-- Settles O55: Run and its stops, the tables symbol by symbol, the extra bits by their field, and the copy byte by byte. -/
theorem copyOutputsFromHistory : Obligations.CopyOutputsFromHistory := by
  refine ⟨fun k s t c => ⟨run_cont, run_stop⟩, fun s hd ho hb => ⟨microStep_noBit hd ho hb, execDecOne_noByte hd ho hb⟩,
    fun s hd ho => ⟨microStep_done hd ho, fun v hv => execDecOne_done hv hd ho⟩, by decide,
    fun e i h1 he hi => lenTables_extra e he i hi h1, by decide, by decide,
    fun e i h1 he hi => distTables_extra e he i hi h1, fun s => readLengthExtra_reads, fun s => readDistanceExtra_reads,
    fun n s q => run_copy⟩

end Sys2Proof.Proofs

/-! SUPPORT. The dynamic block header (42_decoder.md R181 to R186): its fields, the code-length alphabet, the repeat runs,
and the setup. -/

namespace Sys2Proof.Machine

/-! ## Canonical of lengths up to 15 (40_huffman.md R114) -/

/-- Canonical of lengths up to 15 fails with CodeExcess alone. -/
theorem canonical_error_of_lensAtMost {t : Table} (h : lensAtMost 15 t) {c : Code}
    (hc : canonical (lengthsOf t) = .error c) : c = .codeExcess := by
  have hlong : hasLongLength (lengthsOf t) = false := (forall_le_fifteen_iff _).1 fun l hl => by
    obtain ⟨e, he, rfl⟩ := List.mem_map.1 hl
    exact h e he
  unfold canonical at hc
  split at hc
  · cases hc; rfl
  · rw [hlong, if_neg nofun] at hc
    cases hc

/-- Canonical patterns for a whole slot. -/
theorem assignSlot_error (t : Slot) {n : Nat} (s : State) {c : Code} (hn : (s.table t).length = n)
    (h : canonical (lengthsOf (s.table t)) = .error c) : assignSlot t n s = .error c := by
  rw [assignSlot, List.take_of_length_le hn.le]
  simp only [h]

theorem assignSlot_ok (t : Slot) {n : Nat} (s : State) {ps : List (BitVec 16)} (hn : (s.table t).length = n)
    (h : canonical (lengthsOf (s.table t)) = .ok ps) : assignSlot t n s = .ok (s.setTable t (setPats (s.table t) ps)) := by
  rw [assignSlot, List.take_of_length_le hn.le]
  simp only [h]

/-! ## The header (R182) -/

theorem toNat_hlit (v : Word) : (v.extractLsb' 0 5).toNat = v.toNat % 32 := by simp [BitVec.extractLsb'_toNat]

theorem toNat_hdist (v : Word) : (v.extractLsb' 5 5).toNat = v.toNat / 32 % 32 := by
  simp [BitVec.extractLsb'_toNat, Nat.shiftRight_eq_div_pow]

theorem toNat_hclen (v : Word) : (v.extractLsb' 10 4).toNat = v.toNat / 1024 % 16 := by
  simp [BitVec.extractLsb'_toNat, Nat.shiftRight_eq_div_pow]

theorem onAlphabetHeader_eq {v : Word} {s : State} {hlit hdist hclen : Nat} (h1 : hlit = v.toNat % 32 + 257)
    (h2 : hdist = v.toNat / 32 % 32 + 1) (h3 : hclen = v.toNat / 1024 % 16 + 4) :
    onAlphabetHeader v s = if hlit > 286 ∨ hdist > 30 then failStep .badCodeLength s
      else .cont ((s.setTable .cl (freshTable 19)).setDbd
        { s.dbd with
          hlit := BitVec.ofNat 9 hlit, hdist := BitVec.ofNat 6 hdist, hclen := BitVec.ofNat 5 hclen, idx := 0
          dstate := .readCodeLengthAlphabet }) := by
  rw [h1, h2, h3, ← toNat_hlit, ← toNat_hdist, ← toNat_hclen]
  rfl

/-! ## The code-length alphabet (R183, R184) -/

theorem readCodeLengthAlphabet_acts : ActsOnField 3 .readCodeLengthAlphabet onAlphabetLength :=
  .intro nofun nofun nofun fun _ _ h => by simp only [bitStep, h]; rfl

section
variable {v : Word} {s : State} {es : Table} {d : Dbd} (hidx : (s.dbd.idx + 1).toNat = s.dbd.idx.toNat + 1)
  (hes : es = setLen s.htg.cl
    ([16, 17, 18, 0, 8, 7, 9, 6, 10, 5, 11, 4, 12, 3, 13, 2, 14, 1, 15].getD s.dbd.idx.toNat 19) v.toNat)
  (hd : d = { s.dbd with idx := BitVec.ofNat 9 (s.dbd.idx.toNat + 1) })
include hidx hes hd

/-- A length of the alphabet, the last one or not. -/
theorem onAlphabetLength_eq : onAlphabetLength v s =
    if s.dbd.idx.toNat + 1 = s.dbd.hclen.toNat then finishAlphabet ((s.setTable .cl es).setDbd d)
    else .cont ((s.setTable .cl es).setDbd d) := by
  have hi : s.dbd.idx + 1 = BitVec.ofNat 9 (s.dbd.idx.toNat + 1) := by
    rw [← hidx, BitVec.ofNat_toNat, BitVec.setWidth_eq]
  rw [hes, hd, ← hi, ← hidx]
  rfl

end

theorem finishAlphabet_error {s : State} {c : Code} (hl : s.htg.cl.length = 19)
    (h : canonical (lengthsOf s.htg.cl) = .error c) : finishAlphabet s = .stop c (fail c s) := by
  rw [finishAlphabet, assignSlot_error .cl s hl h]
  rfl

theorem finishAlphabet_ok {s : State} {ps : List (BitVec 16)} (hl : s.htg.cl.length = 19)
    (h : canonical (lengthsOf s.htg.cl) = .ok ps) : finishAlphabet s
      = .cont ((((s.setTable .cl (setPats s.htg.cl ps)).setTable .ll (freshTable s.dbd.hlit.toNat)).setTable
          .dist (freshTable s.dbd.hdist.toNat)).setDbd { s.dbd with idx := 0, dstate := .readCodeLengths }) := by
  rw [finishAlphabet, assignSlot_ok .cl s hl h]
  rfl

/-! ## The repeat runs (R186) -/

/-- A repeat code's extra bits, as many as the code says. -/
theorem readCodeLengthExtra_reads {s : State} (h : TakesBit .readCodeLengthExtra s) :
    ReadsField (if s.dbd.rep.toNat = 16 then 2 else if s.dbd.rep.toNat = 17 then 3 else 7) s fun v =>
      microStep s = onRepeat v (s.setDbd s.dbd.bitTaken) := by
  refine readsField_intro ((microStep_takesBit h nofun nofun nofun).trans ?_) fun _ _ hm => hm
  have hd : (dropBit s).dbd.dstate = .readCodeLengthExtra := h.1
  simp only [bitStep, hd]
  rfl

/-- The count of a repeat code. -/
theorem repBase_eq {rep : Nat} (h : rep = 16 ∨ rep = 17 ∨ rep = 18) : repBase rep = if rep = 18 then 11 else 3 := by
  rcases h with rfl | rfl | rfl <;> rfl

theorem OnlyLengths.setDbd {s t : State} (h : OnlyLengths s t) (d : Dbd) : OnlyLengths s (t.setDbd d) := h

theorem OnlyLengths.lensDone {s t : State} (h : OnlyLengths s t) : OnlyLengths s (lensDone t) := by
  unfold Machine.lensDone; split <;> exact h

/-- A run past the last length fails. -/
theorem onRepeat_tooLong {v : Word} {s : State}
    (h : totalLens s.dbd < s.dbd.idx.toNat + (repBase s.dbd.rep.toNat + v.toNat)) :
    onRepeat v s = .stop .badCodeLength (fail .badCodeLength s) := if_pos h

/-- A run within the lengths writes its value at its positions and no other length. -/
theorem onRepeat_run {v : Word} {s : State} {cnt val : Nat} (hl : lensReading s.htg s.dbd)
    (hcnt : cnt = repBase s.dbd.rep.toNat + v.toNat)
    (hval : val = if s.dbd.rep.toNat = 16 then getLenAt (s.dbd.idx.toNat - 1) s else 0)
    (hle : s.dbd.idx.toNat + cnt ≤ totalLens s.dbd) : ∃ t, onRepeat v s = .cont t ∧
      (∀ j, getLenAt j t = if s.dbd.idx.toNat ≤ j ∧ j < s.dbd.idx.toNat + cnt then val else getLenAt j s) ∧
      t.dbd = { s.dbd with
        rep := 0
        idx := BitVec.ofNat 9 (s.dbd.idx.toNat + cnt)
        setupKind := if s.dbd.idx.toNat + cnt = totalLens s.dbd then 2 else s.dbd.setupKind
        dstate := if s.dbd.idx.toNat + cnt = totalLens s.dbd then .fixedOrDynamicSetup else .readCodeLengths } ∧
      OnlyLengths s t ∧ OnlyHtgAndDbd s t := by
  have hval15 : val ≤ 15 := by
    rw [hval]
    split
    · exact getLenAt_le hl _
    · omega
  have htot : totalLens s.dbd ≤ 316 := by
    obtain ⟨⟨⟨-, h1⟩, ⟨-, h2⟩, -⟩, -⟩ := hl
    unfold totalLens; omega
  have hidx : (BitVec.ofNat 9 (s.dbd.idx.toNat + cnt)).toNat = s.dbd.idx.toNat + cnt := Nat.mod_eq_of_lt (by omega)
  obtain ⟨hlen, honly, hdbd⟩ := appendLens_lengths hval15 cnt hl hle
  have hkeeps := (appendLens_keeps val cnt s).setDbd
    (d := { (appendLens val cnt s).dbd with rep := 0, dstate := .readCodeLengths }) ⟨rfl, rfl, rfl⟩
  refine ⟨lensDone ((appendLens val cnt s).setDbd
    { (appendLens val cnt s).dbd with rep := 0, dstate := .readCodeLengths }), ?_, fun j => ?_, ?_, ?_, ?_⟩
  · rw [hval, hcnt]
    exact if_neg (by omega)
  · rw [getLenAt_lensDone, ← hlen]
    rfl
  · rw [lensDone_dbd, State.setDbd_dbd, hdbd]
    simp only [hidx, totalLens]
    rfl
  · exact (honly.setDbd _).lensDone
  · exact (lensDone_keeps hkeeps).onlyHtgAndDbd

/-! ## The dynamic setup (R181) -/

section
variable {s : State} (hd : s.dbd.dstate = .fixedOrDynamicSetup) (ho : s.dbd.outv = false) (hk : s.dbd.setupKind = 2)
include hd ho hk

theorem microStep_setupDynamic : microStep s = setupDynamic s := by
  have hm : microStep s = engineStep s := if_neg (by simp [ho])
  have he : engineStep s = stepSetup s := by simp only [engineStep, hd]
  rw [hm, he, stepSetup, hk, if_neg (by decide)]

variable (hl : lensReading s.htg s.dbd)
include hl

theorem microStep_setupDynamic_llFails {c : Code} (h : canonical (lengthsOf s.htg.ll) = .error c) :
    microStep s = .stop c (fail c s) := by
  obtain ⟨-, -, hll, -⟩ := hl
  rw [microStep_setupDynamic hd ho hk, setupDynamic, assignSlot_error .ll s hll h]
  rfl

theorem microStep_setupDynamic_distFails {c : Code} {ps : List (BitVec 16)} (h : canonical (lengthsOf s.htg.ll) = .ok ps)
    (h' : canonical (lengthsOf s.htg.dist) = .error c) :
    microStep s = .stop c (fail c (s.setTable .ll (setPats s.htg.ll ps))) := by
  obtain ⟨-, -, hll, hdist, -⟩ := hl
  rw [microStep_setupDynamic hd ho hk, setupDynamic, assignSlot_ok .ll s hll h]
  have hfail := assignSlot_error .dist (s.setTable .ll (setPats (s.table .ll) ps)) hdist h'
  simp only [hfail]
  rfl

theorem microStep_setupDynamic_ok {ps qs : List (BitVec 16)} (h : canonical (lengthsOf s.htg.ll) = .ok ps)
    (h' : canonical (lengthsOf s.htg.dist) = .ok qs) :
    microStep s = .cont (((s.setTable .ll (setPats s.htg.ll ps)).setTable .dist (setPats s.htg.dist qs)).setDbd
      { s.dbd with setupKind := 0, dstate := .readLiteralOrLength }) := by
  obtain ⟨-, -, hll, hdist, -⟩ := hl
  rw [microStep_setupDynamic hd ho hk, setupDynamic, assignSlot_ok .ll s hll h]
  have hok := assignSlot_ok .dist (s.setTable .ll (setPats (s.table .ll) ps)) hdist h'
  simp only [hok]
  rfl

end

end Sys2Proof.Machine

/-! SUPPORT. The statement of the dynamic block header. -/

namespace Sys2Proof.Proofs
open Sys2Proof.Machine

/-- Settles O54: each field by its transition, the run of lengths by induction on its count, and the setup slot by slot. -/
theorem repeatRunWritesLengths : Obligations.RepeatRunWritesLengths := by
  refine ⟨fun n => ⟨freshTable_length n, fun i hi => (freshTable_getElem? n i).trans (if_pos hi)⟩, fun s h => ?_,
    fun s h hp => ?_, fun s => readCodeLengthExtra_reads, ?_, fun s hd ho hk hl => ?_⟩
  · refine (readCodeLengthAlphabetHeader_acts s h).imp fun v hm hlit hdist hclen h1 h2 h3 => ?_
    rw [hm, onAlphabetHeader_eq h1 h2 h3]
    exact ⟨fun hgt => if_pos hgt, fun hle1 hle2 => if_neg (by omega)⟩
  · have hst := h.1
    rw [phaseOk, hst] at hp
    obtain ⟨hr, hcounts, hi, hcl, hlens⟩ := hp
    obtain ⟨hpend, hwhole⟩ := readCodeLengthAlphabet_acts s h
    refine ⟨hpend, fun v hv es d hes hd => ?_⟩
    have hv8 := readField_lt hr (by omega) hv
    have hes7 : lensAtMost 7 es := hes ▸ setLen_lens _ hlens (by omega)
    have hes19 : es.length = 19 := by rw [hes, setLen_length, hcl]
    have hidx : (s.dbd.idx + 1).toNat = s.dbd.idx.toNat + 1 := by
      obtain ⟨-, -, -, h19⟩ := hcounts
      simp [BitVec.toNat_add]; omega
    rw [hwhole v hv, onAlphabetLength_eq (s := s.setDbd s.dbd.bitTaken) hidx hes hd]
    refine ⟨fun hlt => if_neg (Nat.ne_of_lt hlt), fun c heq hc => ⟨?_, ?_⟩, fun ps heq hc => ?_⟩
    · exact canonical_error_of_lensAtMost (fun e he => (hes7 e he).trans (by omega)) hc
    · exact (if_pos heq).trans (finishAlphabet_error hes19 hc)
    · refine (if_pos heq).trans ((finishAlphabet_ok hes19 hc).trans ?_)
      rw [hd]
      rfl
  · intro v s cnt val hl _ hrep hcnt hval
    rw [← repBase_eq (by omega)] at hcnt
    refine ⟨fun hgt => onRepeat_tooLong (by omega), fun hle => ?_⟩
    obtain ⟨t, ht, hlen, hrest⟩ := onRepeat_run hl hcnt hval hle
    exact ⟨t, ht, fun j _ => hlen j, hrest⟩
  · obtain ⟨-, -, -, -, hll, hdist⟩ := id hl
    exact ⟨fun c h => ⟨canonical_error_of_lensAtMost hll h, microStep_setupDynamic_llFails hd ho hk hl h⟩,
      fun ps c h h' => ⟨canonical_error_of_lensAtMost hdist h', microStep_setupDynamic_distFails hd ho hk hl h h'⟩,
      fun ps qs h h' => microStep_setupDynamic_ok hd ho hk hl h h'⟩

end Sys2Proof.Proofs

/-! SUPPORT. What a reset pulse leaves in the block (70_reset_and_hazards.md R260, R261). -/

namespace Sys2Proof.Machine

/-- Whatever values HIST is drawn with, every slot is empty. -/
@[simp] theorem resetBlock_table (s : State) (u : Slot) : (resetBlock s).table u = [] := by cases u <;> rfl

@[simp] theorem Lzm.reset_insAt (k : Nat) : Lzm.reset.insAt k = false := rfl

end Sys2Proof.Machine

/-! SUPPORT. The statement of the reset pulse. -/

namespace Sys2Proof.Proofs
open Sys2Proof.Machine

/-- Settles O11: the step is `resetBlock` on the accesses that follow the pulse, which writes every register and, of the
environment, the draw counter alone. -/
theorem resetPulseGivesResetState : Obligations.ResetPulseGivesResetState := fun s rest h =>
  ⟨resetBlock (s.setHost rest), step_reset h, rfl, rfl, rfl, rfl, resetBlock_table _, rfl, rfl, rfl, Lzm.reset_insAt,
    rfl, rfl, rfl, rfl⟩

end Sys2Proof.Proofs
